-- ==== Sys2Proof/Word.lean ====
section
/-!
DEFINITION. The words of the block: a byte (00_scope.md R7: 8 bits, bit 0 the least significant), a 16-bit address or
operand (00_scope.md R5: TADDR_BITS = DADDR_BITS = LEN_BITS = DELAY_BITS = 16), and a line level.
-/

namespace Sys2Proof

/-- A byte: every table field and every transmitted unit (00_scope.md R5, `BYTE`). -/
abbrev Byte := BitVec 8

/-- A 16-bit quantity: an address of TROM or DMEM, a length, or a host operand port (00_scope.md R5). -/
abbrev Word := BitVec 16

/-- A line level: `false` is 0 (low), `true` is 1 (high) (00_scope.md R7). -/
abbrev Level := Bool

end Sys2Proof
end

