-- ==== Sys2Proof/Config.lean ====
section
/-!
DEFINITION. What is fixed for one machine: the parameters of 00_scope.md R5. The open ones are the fields of `Config`; State carries
one `Config` that no step changes, so a statement over every state is a statement over every configuration (log 1). The
polarities, which the spec fixes, are constants.
-/

namespace Sys2Proof

/-- The substrate under the framers (00_scope.md R5, `BUS_MODE`, D16). -/
inductive BusMode where
  | parallel
  | serial
  deriving DecidableEq, Repr

/-- The open parameters of 00_scope.md R5. DESIGN CHOICE (log 1): they stand in State as one record, so no value of
theirs is built into the model. -/
structure Config where
  /-- `BUS_MODE`. -/
  busMode : BusMode
  /-- The build option behind `HAS_STE`; `Config.hasSte` adds what R5 forces. -/
  steFitted : Bool
  /-- `TBL_BASE`, the address of the count byte. -/
  tblBase : Word
  /-- `TBL_LEN`, the table's extent as told from outside; used by the validator only. -/
  tblLen : Nat
  /-- `VALIDATE`: the format validator runs at the start of `INIT`. -/
  validate : Bool
  /-- `TIMEOUT_POLLS`. -/
  timeoutPolls : Option Nat
  /-- `T_RST_MS`, milliseconds. -/
  tRstMs : Nat
  /-- `T_MSEL_US`, microseconds. -/
  tMselUs : Nat
  /-- `T_WR_LOW`: no rule depends on it (00_scope.md R5). -/
  tWrLow : Nat
  /-- `TIMER_RES`: no rule depends on it (00_scope.md R5). -/
  timerRes : Nat
  /-- The MODEL's option, not the block's: `step` refuses by name what 00_scope.md R9 says a model should refuse. Off, those
  commands have the effect that 30_encoding.md R69 and 43_serial_transport.md R152 give them. DESIGN CHOICE (log 6, log 7). -/
  refuse : Bool
  deriving DecidableEq, Repr

/-- `HAS_STE`, forced true when `BUS_MODE = SERIAL` (00_scope.md R5, D33). -/
def Config.hasSte (c : Config) : Bool :=
  match c.busMode with
  | .serial => true
  | .parallel => c.steFitted

/-- The configuration of `State.reset`: the conventions of 95_test_vectors.md for the base and the durations, the spec's defaults for
`VALIDATE` and `TIMEOUT_POLLS`, and a build with the serial engine fitted. DESIGN CHOICE (log 1), unsafe: no statement may rest
on one of these values. -/
def Config.initial : Config where
  busMode := .parallel
  steFitted := true
  tblBase := 0x1000
  tblLen := 1
  validate := false
  timeoutPolls := none
  tRstMs := 10
  tMselUs := 5
  tWrLow := 0
  timerRes := 0
  refuse := false

namespace Polarity

/-- `CS_ASSERTED` (00_scope.md R5; the document's glossary "asserted low"). -/
def csAsserted : Level := false

/-- `DC_COMMAND` (00_scope.md R5, D5). PRESUMED by the spec itself, K3 (log 15). -/
def dcCommand : Level := false

/-- `DC_DATA`, the idle level of DC (00_scope.md R5, D5). PRESUMED by the spec itself, K3 (log 15). -/
def dcData : Level := true

/-- `RESET_ASSERTED` (00_scope.md R5, D4). PRESUMED by the spec itself, K2 (log 15). -/
def resetAsserted : Level := false

/-- `MSEL_ASSERTED` (00_scope.md R5). -/
def mselAsserted : Level := false

/-- `WR_IDLE` (00_scope.md R5). -/
def wrIdle : Level := true

/-- `RD_IDLE` (00_scope.md R5, D6). PRESUMED by the spec itself, K4 (log 15). -/
def rdIdle : Level := true

end Polarity

end Sys2Proof
end

