-- ==== Sys2Proof/Syntax.lean ====
section
/-!
DEFINITION. The syntax: the host command (30_encoding.md R66, format H) and `Instr`, one constructor per row of spec/opcode_table.json.
-/

namespace Sys2Proof

/-- The three operand ports `host_a`, `host_b`, `host_n` as they are sampled at acceptance (30_encoding.md R66). The ignored
bits are kept: the event `OpStart(op, a, b, n)` shows them. -/
structure Ports where
  a : Word
  b : Word
  n : Word
  deriving DecidableEq, Repr

/-- A command on the host ports: `host_op[3:0]` and the operand ports (30_encoding.md R66). -/
structure HostCmd where
  op : BitVec 4
  ports : Ports
  deriving DecidableEq, Repr

/-- The instructions: the two of the table program and the eight host operations (30_encoding.md R67). -/
inductive Instr where
  /-- `COUNT`, the table head (R60, R83). -/
  | count (count : Byte)
  /-- `REC`, the record (R61, R84). -/
  | record (argCount delayMs opcode : Byte) (args : List Byte)
  /-- `INIT` (R80). -/
  | init (p : Ports)
  /-- `TXCMD` (R110, R114). -/
  | txcmd (p : Ports)
  /-- `TXDAT` (R111, R114). -/
  | txdat (p : Ports)
  /-- `DELAY` (R136). -/
  | delay (p : Ports)
  /-- `XFER` (R150). -/
  | xfer (p : Ports)
  /-- `SETLN` (R133). -/
  | setln (p : Ports)
  /-- `CLRLN` (R134). -/
  | clrln (p : Ports)
  /-- `CFGDIR` (R135). -/
  | cfgdir (p : Ports)
  deriving DecidableEq, Repr

end Sys2Proof
end

