-- ==== Sys2Proof/WellFormed.lean ====
section
/-!
DEFINITION. Well-formed instructions: what the formats of 30_encoding.md admit for every configuration. A record carries as many
arguments as its `argCount` says (R61); a line operation names one of the signal ids 0 to 13 (R69: 14 and 15 are reserved).
-/

namespace Sys2Proof

/-- The signal identifier field `host_a[3:0]` is not one of the reserved ids 14 and 15 (30_encoding.md R63, R69). -/
def Ports.idOk (p : Ports) : Bool := decide ((p.a.extractLsb' 0 4).toNat < 14)

/-- Well-formedness of an instruction as syntax. -/
def Instr.wellFormed : Instr → Bool
  | .count _ => true
  | .record argCount _ _ args => decide (args.length = argCount.toNat)
  | .init _ => true
  | .txcmd _ => true
  | .txdat _ => true
  | .delay _ => true
  | .xfer _ => true
  | .setln p => p.idOk
  | .clrln p => p.idOk
  | .cfgdir p => p.idOk

/-- Well-formedness as a proposition. -/
abbrev Instr.WellFormed (i : Instr) : Prop := i.wellFormed = true

end Sys2Proof
end

