-- ==== Sys2Proof/Decode.lean ====
section
/-!
DEFINITION. Decoding and encoding (30_encoding.md). Three positions hold code: the table head (R60), a record boundary (R61) and the
host ports (R66). What stands at a position is told by the position, not by bits (R69, opcode_table.json "selected_by"). The
decoder is total and rejects by name.
-/

namespace Sys2Proof

/-- Code at one of the three positions. -/
inductive Code where
  /-- The bytes from the table head on (format T). -/
  | head (bytes : List Byte)
  /-- The bytes from a record boundary on (format R). -/
  | boundary (bytes : List Byte)
  /-- A command on the host ports (format H). -/
  | command (c : HostCmd)
  deriving DecidableEq, Repr

/-- Why the decoder gives no instruction. -/
inductive Reject where
  /-- A byte string that ends before the instruction does. A ROM has a byte at every address, so no fetch meets it (R64). -/
  | truncated
  /-- A host operation code 0x8 to 0xF (R69). -/
  | reservedOp (op : BitVec 4)
  /-- A signal id 14 or 15 in SETLN, CLRLN or CFGDIR (R69). -/
  | reservedSignal (op : BitVec 4) (id : BitVec 4)
  deriving DecidableEq, Repr

/-- What the decoder answers: an instruction and the bytes after it, or a rejection by name. -/
inductive Decoded where
  | instr (i : Instr) (rest : List Byte)
  | reject (r : Reject)
  deriving DecidableEq, Repr

/-- The table head: one byte, every value legal (30_encoding.md R60). -/
def decodeHead : List Byte → Decoded
  | c :: rest => .instr (.count c) rest
  | [] => .reject .truncated

/-- A record: `argCount`, `delayMs`, `opcode` in this order, then `argCount` argument bytes (30_encoding.md R61, R64). -/
def decodeRecord : List Byte → Decoded
  | argCount :: delayMs :: opcode :: rest =>
    if argCount.toNat ≤ rest.length then
      .instr (.record argCount delayMs opcode (rest.take argCount.toNat)) (rest.drop argCount.toNat)
    else .reject .truncated
  | _ => .reject .truncated

/-- A line operation, refused when its signal id is 14 or 15 (30_encoding.md R69). -/
def decodeLine (op : BitVec 4) (p : Ports) (i : Instr) : Decoded :=
  if p.idOk then .instr i [] else .reject (.reservedSignal op (p.a.extractLsb' 0 4))

/-- A host command, selected by `host_op` (30_encoding.md R67); the codes 0x8 to 0xF are reserved (R69). -/
def decodeCommand (c : HostCmd) : Decoded :=
  match c.op.toNat with
  | 0 => .instr (.init c.ports) []
  | 1 => .instr (.txcmd c.ports) []
  | 2 => .instr (.txdat c.ports) []
  | 3 => .instr (.delay c.ports) []
  | 4 => .instr (.xfer c.ports) []
  | 5 => decodeLine c.op c.ports (.setln c.ports)
  | 6 => decodeLine c.op c.ports (.clrln c.ports)
  | 7 => decodeLine c.op c.ports (.cfgdir c.ports)
  | _ => .reject (.reservedOp c.op)

/-- The decoder, total on any code at any position. -/
def decode : Code → Decoded
  | .head bytes => decodeHead bytes
  | .boundary bytes => decodeRecord bytes
  | .command c => decodeCommand c

/-- The operation code of a host operation (30_encoding.md R67); the table program has none. -/
def Instr.hostOp : Instr → Option (BitVec 4)
  | .count _ => none
  | .record _ _ _ _ => none
  | .init _ => some 0x0
  | .txcmd _ => some 0x1
  | .txdat _ => some 0x2
  | .delay _ => some 0x3
  | .xfer _ => some 0x4
  | .setln _ => some 0x5
  | .clrln _ => some 0x6
  | .cfgdir _ => some 0x7

/-- The encoder, followed by `rest` where the position holds bytes: the code of a well-formed instruction, from the same tables of
30_encoding.md (R60, R61, R66, R67). -/
def encodeThen (rest : List Byte) : Instr → Code
  | .count c => .head (c :: rest)
  | .record argCount delayMs opcode args => .boundary (argCount :: delayMs :: opcode :: (args ++ rest))
  | .init p => .command ⟨0x0, p⟩
  | .txcmd p => .command ⟨0x1, p⟩
  | .txdat p => .command ⟨0x2, p⟩
  | .delay p => .command ⟨0x3, p⟩
  | .xfer p => .command ⟨0x4, p⟩
  | .setln p => .command ⟨0x5, p⟩
  | .clrln p => .command ⟨0x6, p⟩
  | .cfgdir p => .command ⟨0x7, p⟩

/-- The code of one instruction with nothing after it. -/
def encode (i : Instr) : Code := encodeThen [] i

/-- The bytes that may follow an instruction at its position: any for the table program, none on the host ports. -/
def Instr.trailing (rest : List Byte) : Instr → List Byte
  | .count _ => rest
  | .record _ _ _ _ => rest
  | _ => []

/-- The first `n` bytes of a word numbered as the opcode table numbers bits: byte k is bits 8k+7 .. 8k. -/
def bytesOfWord (w : Nat) : Nat → List Byte
  | 0 => []
  | n + 1 => BitVec.ofNat 8 w :: bytesOfWord (w >>> 8) n

/-- A host command laid out as a word: `host_op` in bits 3:0, then the ports `host_a`, `host_b`, `host_n` from bits 8, 24 and 40 on.
The ports have no bit numbers in the spec; DESIGN CHOICE of the model (log 14). -/
def hostCmdOfWord (w : Nat) : HostCmd :=
  ⟨BitVec.ofNat 4 w, ⟨BitVec.ofNat 16 (w >>> 8), BitVec.ofNat 16 (w >>> 24), BitVec.ofNat 16 (w >>> 40)⟩⟩

/-- Which code an opcode-table word of `nbits` bits stands for (log 14): 24 bits are the head of a record, with argument bytes of
zeros after it; a word of at most 8 bits that is no 4-bit `host_op` can only be a table head; anything else is a host command. -/
def codeOfTableWord (nbits w : Nat) : Code :=
  if nbits = 24 then .boundary (bytesOfWord w 258)
  else if nbits = 0 then .head (bytesOfWord w 1)
  else if nbits ≤ 8 ∧ 16 ≤ w then .head (bytesOfWord w 1)
  else .command (hostCmdOfWord w)

/-- The instruction the decoder reads from an opcode-table word (log 14). -/
def decodeTableWord (nbits w : Nat) : Option Instr :=
  match decode (codeOfTableWord nbits w) with
  | .instr i _ => some i
  | .reject _ => none

end Sys2Proof
end

