-- ==== Sys2Proof/Machine/State.lean ====
section
/-!
DEFINITION. The state of TFTSEQ as plain data: the registers CR0 to CR15 of 10_state.md R10 (STATUS, CR16, is a view and stands in
Flags.lean), the ghost trace (R30), the two memories (20_memory.md R40), the parameters (00_scope.md R5), and the model's own
record of what CORE has still to do and what HOST, CPL and `rst` are going to do.
-/

namespace Sys2Proof.Machine

/-- The signal lines of 10_state.md R11. -/
inductive Signal where
  | reset | cs | dc | wr | rd
  | d0 | d1 | d2 | d3 | d4 | d5 | d6 | d7
  | msel
  deriving DecidableEq, Repr

/-- `SEQ_STATE`, the four states of 10_state.md R15. -/
inductive SeqState where
  | notStarted | applyingRecord | awaitingSettle | done
  deriving DecidableEq, Repr

/-- `RESULT`: the three values ever written (10_state.md R22; code 3 is reserved and never written, U10). -/
inductive Result where
  | ok | transportTimeout | tableFormat
  deriving DecidableEq, Repr

/-- The events of the ghost trace (10_state.md R30). -/
inductive Event where
  | opStart (op : BitVec 4) (a b n : Word)
  | opEnd (op : BitVec 4) (result : Result)
  | dir (sig : Signal) (d : Bool)
  | pin (sig : Signal) (v : Level)
  | bus (b : Byte)
  | delayMs (n : Nat)
  | delayUs (n : Nat)
  | romRd (a : Word) (v : Byte)
  | memRd (a : Word) (v : Byte)
  | memWr (a : Word) (v : Byte)
  | flagClr
  | serTx (b : Byte)
  | cpl (r : Byte)
  | serRx (r : Byte)
  | timeout
  deriving DecidableEq, Repr

/-- The operations in which a completion wait can lie: the host framers, `INIT` in serial mode, and `XFER`
(43_serial_transport.md R152, "Used by"). -/
inductive Waiter where
  | txcmd | txdat | init | xfer
  deriving DecidableEq, Repr

/-- Where a byte read from the table goes: a sequencer register, or the temporary `a` of 40_sequencer.md R84. -/
inductive RomDst where
  | recs | args | dly | opc | arg
  deriving DecidableEq, Repr

/-- The micro-actions of CORE (00_scope.md R6) and the four points at which a fused run stops (log 5). Some constructors make several micro-actions of the
spec as one: DESIGN CHOICE (log 27). -/
inductive Micro where
  /-- `pin_write(sig, v)`, 42_pins_delay.md R130. -/
  | pin (sig : Signal) (v : Level)
  /-- `dir_write(sig, d)`, R131. -/
  | dir (sig : Signal) (d : Bool)
  /-- `bus_write(b)`, R132. -/
  | bus (b : Byte)
  /-- `delay_ms(n)`, R136. -/
  | delayMs (n : Nat)
  /-- `delay_us(n)`, R137. -/
  | delayUs (n : Nat)
  /-- `SEQ_STATE <- st`, 40_sequencer.md R85. -/
  | seq (st : SeqState)
  /-- `PTR <- TBL_BASE`, R80. -/
  | ptrBase
  /-- `dst <- RomRead(PTR); PTR <- PTR + 1`; `v` is the byte the fetch found there, R83, R84. -/
  | romRd (dst : RomDst) (v : Byte)
  /-- `ARGS <- ARGS - 1`, R84. -/
  | argSent
  /-- `SEQ_STATE <- AwaitingSettle; delay_ms(DLY)`, R84. -/
  | settle
  /-- `SEQ_STATE <- ApplyingRecord; RECS <- RECS - 1`, R84. -/
  | settled
  /-- `IDX <- 0`, 43_serial_transport.md R150. -/
  | idxZero
  /-- `b <- MemRead(a, 1)`, R150; `b` is the byte found there. -/
  | memRd (a : Word) (b : Byte)
  /-- `XDONE <- 0; emit FlagClr`, R152 step 1. -/
  | flagClr
  /-- `TXBUF <- b; PENDING <- 1; emit SerTx(b); POLLS <- 0`, R152 step 2. -/
  | serTx (b : Byte)
  /-- `r <- RXHOLD; emit SerRx(r)` with `r` discarded, R152 step 4 in a framer. -/
  | serRx
  /-- `r <- RXHOLD; emit SerRx(r); MemWrite(a, 1, r); IDX <- IDX + 1`, R152 step 4 and R150, made as ONE: no late completion (60_exceptions.md R185) can fall
  between its `SerRx` and its `MemWr`. DESIGN CHOICE, unsafe for claims about that order of events (log 27). -/
  | storeRx (a : Word)
  /-- `RESULT <- r`, the error path of 60_exceptions.md R184. -/
  | result (r : Result)
  /-- The end step of 30_encoding.md R66: emit `OpEnd(op, RESULT)`, `BUSY <- 0`. -/
  | opEnd (op : BitVec 4)
  /-- Stop: the completion wait, R152 step 3. -/
  | poll (who : Waiter)
  /-- Stop: the table head is fetched and executed next, 40_sequencer.md R80. -/
  | tableHead
  /-- Stop: the test `RECS != 0` of R80; a record is fetched and executed, or the loop ends. -/
  | records
  /-- Stop: the test `IDX != len` of 43_serial_transport.md R150. -/
  | xferLoop (txA rxA len : Word)
  deriving DecidableEq, Repr

/-- The moves of the other agents (00_scope.md R4) that can fall between any two micro-actions of CORE. -/
inductive Move where
  /-- The completion signal with the far end's byte: 43_serial_transport.md R154. -/
  | cpl (r : Byte)
  /-- A pulse of the input `rst`: 70_reset_and_hazards.md R200. -/
  | rst
  /-- The host presents a command at this moment, ready or not: 30_encoding.md R66, U12. -/
  | present (c : HostCmd)
  /-- The host stores a byte into `DMEM`: 20_memory.md R43. -/
  | hostStore (a : Word) (v : Byte)
  /-- The host looks at `STATUS`: 10_state.md R29. -/
  | hostLook
  deriving DecidableEq, Repr

/-- A move and its moment: after how many more micro-actions of CORE it is made (log 4). -/
structure Timed where
  after : Nat
  move : Move
  deriving DecidableEq, Repr

/-- A memory: (address, byte) pairs, addresses strictly rising, none equal to what an unlisted address reads as. -/
abbrev Memory := List Host.Cell

/-- The state of the block and of its surroundings. -/
structure State where
  /-- The parameters (00_scope.md R5). -/
  cfg : Config
  /-- `TROM` (20_memory.md R41). -/
  rom : Memory
  /-- `DMEM` (20_memory.md R43). -/
  dmem : Memory
  /-- `PIN_OUT` (10_state.md R12). -/
  pinOut : BitVec 14
  /-- `PIN_DIR` (R13). -/
  pinDir : BitVec 14
  /-- `SEQ_STATE` (R15). -/
  seqState : SeqState
  /-- `PTR` (R16). -/
  ptr : Word
  /-- `RECS` (R17). -/
  recs : Byte
  /-- `ARGS` (R18). -/
  args : Byte
  /-- `DLY` (R19). -/
  dly : Byte
  /-- `OPC` (R20). -/
  opc : Byte
  /-- `BUSY` (R21). -/
  busy : Bool
  /-- `RESULT` (R22). -/
  result : Result
  /-- `XDONE` (R23). -/
  xdone : Bool
  /-- `TXBUF` (R24). -/
  txbuf : Byte
  /-- `RXHOLD` (R25). -/
  rxhold : Byte
  /-- `IDX` (R26). -/
  idx : Word
  /-- `PENDING` (R27). -/
  pending : Bool
  /-- `POLLS` (R28). -/
  polls : Nat
  /-- `TRACE` (R30), oldest event first. -/
  trace : List Event
  /-- The model's own: the micro-actions of the running operation not yet made, next first (log 16). -/
  todo : List Micro
  /-- The model's own: the operations HOST will issue, each when `host_ready = 1` (log 4). -/
  cmds : List HostCmd
  /-- The model's own: the other moves and their moments (log 4). -/
  events : List Timed
  deriving DecidableEq, Repr

/-- Why a step could stop the machine: for no reason at all. The spec names no condition that stops the block: both of its conditions
end an operation with a RESULT (60_exceptions.md R180, R184), and the hang is an endless run of polls (R183). Safe (log 25). -/
inductive Fault where
  deriving DecidableEq, Repr

/-- Why a step gives no next state. But for `rejected .truncated`, which no fetch meets, each is raised only with `Config.refuse` on
(00_scope.md R9, 93_implementation_defined.md U4, U6, U7, U8). All safe: the model stops where the block goes on. -/
inductive Refusal where
  /-- An instruction without a meaning in this model; no arm of `exec` raises it. Safe. -/
  | notModelled (mnemonic : String)
  /-- The code is reserved (U6, U7): raised when a command is issued. Safe. -/
  | rejected (r : Reject)
  /-- Signal id 13 without `HAS_STE` (U7): raised when a command is issued. Safe. -/
  | noModeSelect
  /-- `XFER` without `HAS_STE` (U8): raised when a command is issued. Safe. -/
  | noSerialEngine
  /-- A serial operation while a timed-out byte transfer is still pending (U4): raised when a command is issued. Safe. -/
  | transferPending
  deriving DecidableEq, Repr

/-- The reset value of `PIN_OUT`: the idle levels, 0x201F with `HAS_STE`, else 0x001F (10_state.md R33). -/
def resetPinOut (c : Config) : BitVec 14 := if c.hasSte then 0x201F else 0x001F

/-- Every register at its reset value of 10_state.md R33, around what block reset does not touch (70_reset_and_hazards.md R200): the
parameters, the two memories, and what the other agents are going to do. -/
def State.resetWith (cfg : Config) (rom dmem : Memory) (cmds : List HostCmd) (events : List Timed) : State where
  cfg := cfg
  rom := rom
  dmem := dmem
  pinOut := resetPinOut cfg
  pinDir := 0
  seqState := .notStarted
  ptr := 0
  recs := 0
  args := 0
  dly := 0
  opc := 0
  busy := false
  result := .ok
  xdone := false
  txbuf := 0
  rxhold := 0
  idx := 0
  pending := false
  polls := 0
  trace := []
  todo := []
  cmds := cmds
  events := events

/-- The machine right after reset (10_state.md R33), with the parameters of `Config.initial` and nothing listed in either memory
(DESIGN CHOICE, log 1, log 2, log 3); no command waits and no other agent is about to move. -/
def State.reset : State := State.resetWith Config.initial [] [] [] []

end Sys2Proof.Machine
end

