-- ==== Sys2Proof/Machine/Operands.lean ====
section
/-!
DEFINITION. Operand forms: the slices of the host operand ports (30_encoding.md R63), the signal identifiers (10_state.md R11), and the bit
and field writes of the two pin registers (R12, R13).
-/

namespace Sys2Proof.Machine

/-- The identifier of a signal (10_state.md R11). -/
def Signal.id : Signal → Nat
  | .reset => 0
  | .cs => 1
  | .dc => 2
  | .wr => 3
  | .rd => 4
  | .d0 => 5
  | .d1 => 6
  | .d2 => 7
  | .d3 => 8
  | .d4 => 9
  | .d5 => 10
  | .d6 => 11
  | .d7 => 12
  | .msel => 13

/-- The signal of an identifier; 14 and 15 are no line (10_state.md R11). -/
def Signal.ofId (id : BitVec 4) : Option Signal :=
  match id.toNat with
  | 0 => some .reset
  | 1 => some .cs
  | 2 => some .dc
  | 3 => some .wr
  | 4 => some .rd
  | 5 => some .d0
  | 6 => some .d1
  | 7 => some .d2
  | 8 => some .d3
  | 9 => some .d4
  | 10 => some .d5
  | 11 => some .d6
  | 12 => some .d7
  | 13 => some .msel
  | _ => none

/-- A line exists: all do, but `MSEL` only with `HAS_STE` (10_state.md R11). -/
def lineExists (c : Config) : Signal → Bool
  | .msel => c.hasSte
  | _ => true

/-- A byte operand, `host_a[7:0]` (30_encoding.md R63). -/
def byteOperand (p : Ports) : Byte := p.a.extractLsb' 0 8

/-- The signal identifier field, `host_a[3:0]` (30_encoding.md R63). -/
def signalField (p : Ports) : BitVec 4 := p.a.extractLsb' 0 4

/-- The signal operand: the line `host_a[3:0]` names, none for a reserved identifier (30_encoding.md R63, R69: 14 and 15 always, 13
without `HAS_STE`). -/
def signalOperand (c : Config) (p : Ports) : Option Signal :=
  (Signal.ofId (signalField p)).filter (lineExists c)

/-- `asOutput`, `host_b[0]` (30_encoding.md R63). -/
def asOutputOperand (p : Ports) : Bool := p.b.getLsbD 0

/-- A delay in milliseconds, `host_a[15:0]` (30_encoding.md R63, D29). -/
def millisOperand (p : Ports) : Nat := p.a.toNat

/-- The bit of a 14-bit pin register at position `i` set to `v`, every other bit as before (10_state.md R12, R13). -/
def setBit (x : BitVec 14) (i : Nat) (v : Bool) : BitVec 14 :=
  if v then x ||| (1#14 <<< i) else x &&& ~~~(1#14 <<< i)

/-- `DATA <- b`: the field `PIN_OUT[12:5]` replaced in one action, line `Di` carrying bit i (42_pins_delay.md R132, D7). -/
def setData (x : BitVec 14) (b : Byte) : BitVec 14 :=
  (x &&& 0x201F#14) ||| (b.setWidth 14 <<< 5)

/-- `OUT[sig]`, the output latch of a signal (10_state.md R12). -/
def State.out (s : State) (sig : Signal) : Level := s.pinOut.getLsbD sig.id

/-- `DIR[sig]`, the direction bit of a signal, `true` for output (10_state.md R13). -/
def State.dir (s : State) (sig : Signal) : Bool := s.pinDir.getLsbD sig.id

/-- `DATA`, the field `PIN_OUT[12:5]` (10_state.md R12). -/
def State.data (s : State) : Byte := s.pinOut.extractLsb' 5 8

/-- The level of a line as the outside sees it: the latch where the line is driven; `none` where it floats, which is any level, drawn
anew at every observation (10_state.md R14, U1; log 11). -/
def State.level (s : State) (sig : Signal) : Option Level :=
  if s.dir sig then some (s.out sig) else none

end Sys2Proof.Machine
end

