-- ==== Sys2Proof/Machine/Flags.lean ====
section
/-!
DEFINITION. Flags, codes and views: the numbers of `SEQ_STATE` and `RESULT` (10_state.md R15, R22), the `STATUS` view (R29), `host_ready`
(30_encoding.md R66), and the tests of the completion wait (43_serial_transport.md R152).
-/

namespace Sys2Proof.Machine

/-- The number of a sequencer state (10_state.md R15). -/
def SeqState.code : SeqState → BitVec 2
  | .notStarted => 0
  | .applyingRecord => 1
  | .awaitingSettle => 2
  | .done => 3

/-- The number of a result (10_state.md R22, 60_exceptions.md R180). -/
def Result.code : Result → BitVec 2
  | .ok => 0
  | .transportTimeout => 1
  | .tableFormat => 2

/-- A flag as a one-bit number. -/
def flagBit (b : Bool) : BitVec 1 := BitVec.ofBool b

/-- `STATUS`: bit 0 `st_busy`, bits 2:1 `st_state`, bits 4:3 `st_result`, bit 5 `st_xdone` (10_state.md R29). -/
def State.status (s : State) : BitVec 6 :=
  flagBit s.xdone ++ s.result.code ++ s.seqState.code ++ flagBit s.busy

/-- `host_ready = not BUSY` (30_encoding.md R66). -/
def State.hostReady (s : State) : Bool := !s.busy

/-- The states `SEQ_STATE` can hold while no operation runs (40_sequencer.md R85). -/
def SeqState.resting : SeqState → Bool
  | .notStarted => true
  | .applyingRecord => false
  | .awaitingSettle => false
  | .done => true

/-- The test of the completion wait that gives up: `TIMEOUT_POLLS = some N and POLLS >= N` (43_serial_transport.md R152). -/
def pollLimitReached (s : State) : Bool :=
  match s.cfg.timeoutPolls with
  | none => false
  | some n => decide (n ≤ s.polls)

end Sys2Proof.Machine
end

