-- ==== Sys2Proof/Machine/Ops.lean ====
section
/-!
DEFINITION. The named operations: memory, the trace, the moment of the other agents' moves, the primitives of 00_scope.md R8, the
effect of one micro-action, the fused run of micro-actions (R6), the acceptance and end of a host operation (30_encoding.md R66),
the error path (60_exceptions.md R184), block reset (70_reset_and_hazards.md R200), and the completion step (43_serial_transport.md R154).
-/

namespace Sys2Proof.Machine

/-- What an unlisted address of either memory reads as. DESIGN CHOICE (log 2, log 3), unsafe. -/
def unlistedByte : Byte := 0

/-- The byte at an address. Every address of the two 16-bit spaces can be read (20_memory.md R42, R44). -/
def Memory.read : Memory → Nat → Byte
  | [], _ => unlistedByte
  | (a, v) :: m, k => if a = k then v else Memory.read m k

/-- A byte written at an address; the canonical form is kept. -/
def Memory.write : Memory → Nat → Byte → Memory
  | [], k, v => if v = unlistedByte then [] else [(k, v)]
  | (a, x) :: m, k, v =>
    if k < a then (if v = unlistedByte then (a, x) :: m else (k, v) :: (a, x) :: m)
    else if k = a then (if v = unlistedByte then m else (k, v) :: m)
    else (a, x) :: Memory.write m k v

/-- The canonical form from an address on: addresses of the 16-bit space, strictly rising, none holding the unlisted byte. -/
def Memory.wfFrom : Nat → Memory → Bool
  | _, [] => true
  | lo, (a, v) :: m => decide (lo ≤ a) && decide (a < 65536) && decide (v ≠ unlistedByte) && Memory.wfFrom (a + 1) m

/-- A memory is in canonical form. -/
def Memory.wf (m : Memory) : Bool := Memory.wfFrom 0 m

/-- The byte of TROM at a 16-bit address (20_memory.md R42). -/
def State.romByte (s : State) (a : Word) : Byte := Memory.read s.rom a.toNat

/-- The byte of DMEM at a 16-bit address (20_memory.md R44). -/
def State.dmemByte (s : State) (a : Word) : Byte := Memory.read s.dmem a.toNat

/-- `emit(e)` (10_state.md R30). -/
def emit (e : Event) (s : State) : State := { s with trace := s.trace ++ [e] }

/-- A move of another agent is to be made before the next micro-action of CORE. -/
def due (s : State) : Bool :=
  match s.events with
  | ⟨0, _⟩ :: _ => true
  | _ => false

/-- The other agents' moves after one micro-action of CORE: the next one is one nearer. -/
def tickEvents : List Timed → List Timed
  | ⟨k + 1, m⟩ :: rest => ⟨k, m⟩ :: rest
  | events => events

/-- One micro-action has passed. -/
def tick (s : State) : State := { s with events := tickEvents s.events }

/-- `pin_write(sig, v)` (42_pins_delay.md R130): one latch, recorded also when nothing changes. A line that does not exist has no
latch and is never written (10_state.md R12). -/
def pinWrite (sig : Signal) (v : Level) (s : State) : State :=
  if lineExists s.cfg sig then emit (.pin sig v) { s with pinOut := setBit s.pinOut sig.id v } else s

/-- `dir_write(sig, d)` (42_pins_delay.md R131): one direction bit; the latch keeps its value. -/
def dirWrite (sig : Signal) (d : Bool) (s : State) : State :=
  if lineExists s.cfg sig then emit (.dir sig d) { s with pinDir := setBit s.pinDir sig.id d } else s

/-- `bus_write(b)` (42_pins_delay.md R132): the eight data latches in one action. -/
def busWrite (b : Byte) (s : State) : State :=
  emit (.bus b) { s with pinOut := setData s.pinOut b }

/-- The register (or temporary) that takes a byte read from the table (40_sequencer.md R83, R84). -/
def setRomDst (dst : RomDst) (v : Byte) (s : State) : State :=
  match dst with
  | .recs => { s with recs := v }
  | .args => { s with args := v }
  | .dly => { s with dly := v }
  | .opc => { s with opc := v }
  | .arg => s

/-- `dst <- RomRead(PTR); PTR <- PTR +_16 1` (20_memory.md R42, 10_state.md R16), `v` being the byte read. -/
def romRead (dst : RomDst) (v : Byte) (s : State) : State :=
  setRomDst dst v (emit (.romRd s.ptr v) { s with ptr := s.ptr + 1 })

/-- `XDONE <- 0` by CORE (43_serial_transport.md R152 step 1). -/
def flagClear (s : State) : State := emit .flagClr { s with xdone := false }

/-- `TXBUF <- b; PENDING <- 1` and the start of the wait, `POLLS <- 0` (43_serial_transport.md R152 step 2). -/
def serialSend (b : Byte) (s : State) : State :=
  emit (.serTx b) { s with txbuf := b, pending := true, polls := 0 }

/-- `r <- RXHOLD; emit SerRx(r)`; the read has no side effect (43_serial_transport.md R152 step 4, 20_memory.md R48). -/
def serialReceive (s : State) : State := emit (.serRx s.rxhold) s

/-- `MemWrite(a, 1, v)` (20_memory.md R44). -/
def memWrite (a : Word) (v : Byte) (s : State) : State :=
  emit (.memWr a v) { s with dmem := Memory.write s.dmem a.toNat v }

/-- The end step of a host operation: emit `OpEnd(op, RESULT)`, `BUSY <- 0` (30_encoding.md R66). There is no return from an
exception beside it (60_exceptions.md R188). -/
def endOperation (op : BitVec 4) (s : State) : State :=
  emit (.opEnd op s.result) { s with busy := false }

/-- The effect of one micro-action of CORE; the four stops have none of their own. No other agent's move falls inside one of these, also where one makes
several micro-actions of the spec (`storeRx` above all): DESIGN CHOICE (log 27). -/
def micro : Micro → State → State
  | .pin sig v, s => pinWrite sig v s
  | .dir sig d, s => dirWrite sig d s
  | .bus b, s => busWrite b s
  | .delayMs n, s => emit (.delayMs n) s
  | .delayUs n, s => emit (.delayUs n) s
  | .seq st, s => { s with seqState := st }
  | .ptrBase, s => { s with ptr := s.cfg.tblBase }
  | .romRd dst v, s => romRead dst v s
  | .argSent, s => { s with args := s.args - 1 }
  | .settle, s => emit (.delayMs s.dly.toNat) { s with seqState := .awaitingSettle }
  | .settled, s => { s with seqState := .applyingRecord, recs := s.recs - 1 }
  | .idxZero, s => { s with idx := 0 }
  | .memRd a b, s => emit (.memRd a b) s
  | .flagClr, s => flagClear s
  | .serTx b, s => serialSend b s
  | .serRx, s => serialReceive s
  | .storeRx a, s => let t := memWrite a s.rxhold (serialReceive s); { t with idx := t.idx + 1 }
  | .result r, s => { s with result := r }
  | .opEnd op, s => endOperation op s
  | .poll _, s => s
  | .tableHead, s => s
  | .records, s => s
  | .xferLoop _ _ _, s => s

/-- The points at which a fused run stops: the completion wait, across which R6 allows no fusing, and the three loop and fetch
points (log 5). -/
def Micro.stops : Micro → Bool
  | .poll _ => true
  | .tableHead => true
  | .records => true
  | .xferLoop _ _ _ => true
  | _ => false

/-- A fused run of micro-actions (00_scope.md R6): in order, up to the end of the program, to a stop, or to the moment of another
agent's move; what is left is recorded in `todo`. -/
def runMicros : List Micro → State → State
  | [], s => { s with todo := [] }
  | m :: rest, s =>
    if m.stops || due s then { s with todo := m :: rest } else runMicros rest (tick (micro m s))

/-- The acceptance step of a host operation: `BUSY <- 1`, `RESULT <- 0`, `OpStart(op, a, b, n)` (30_encoding.md R66). -/
def accept (op : BitVec 4) (p : Ports) (s : State) : State :=
  tick (emit (.opStart op p.a p.b p.n) { s with busy := true, result := .ok })

/-- The micro-actions of `raise X` (60_exceptions.md R184): the clean-up of the call path from the innermost out, `RESULT <- code(X)`, and
the end step. This is the one way a condition ends an operation; nothing is saved and no handler runs. -/
def errorPath (cleanup : List Micro) (x : Result) (op : BitVec 4) : List Micro :=
  cleanup ++ [.result x, .opEnd op]

/-- The step of `CPL`: enabled exactly when `PENDING = 1`; `RXHOLD <- r`, `XDONE <- 1`, `PENDING <- 0` in one atomic step
(43_serial_transport.md R154). When it is not enabled nothing happens: there is no spurious completion. -/
def completion (r : Byte) (s : State) : State :=
  if s.pending then emit (.cpl r) { s with rxhold := r, xdone := true, pending := false } else s

/-- Block reset (70_reset_and_hazards.md R200): every register to its reset value, a running operation abandoned without clean-up, the
trace emptied; the memories, the parameters and what the other agents are going to do are untouched. -/
def blockReset (s : State) : State := State.resetWith s.cfg s.rom s.dmem s.cmds s.events

/-- The host stores into DMEM. It does so only while no operation runs, because it is the single thread that waits for the operation
to end (20_memory.md R43); while BUSY = 1 it is no move of the host and has no effect (log 19). -/
def hostStore (a : Word) (v : Byte) (s : State) : State :=
  if s.busy then s else { s with dmem := Memory.write s.dmem a.toNat v }

end Sys2Proof.Machine
end

