-- ==== Sys2Proof/Machine/Run.lean ====
section
/-!
DEFINITION. Running CORE: the per-byte serial operation and its wait (43_serial_transport.md R152), the loop of a block transfer (R150), the
fused run up to the next completion wait, and the frame of every host operation (30_encoding.md R66).
-/

namespace Sys2Proof.Machine

/-- The operation code that ends an operation in which a wait lies (30_encoding.md R67). -/
def Waiter.op : Waiter → BitVec 4
  | .init => 0x0
  | .txcmd => 0x1
  | .txdat => 0x2
  | .xfer => 0x4

/-- The first two steps of `ser_byte(b)` and the wait (43_serial_transport.md R152): the clear comes before the write of the transmit
register. -/
def serByte (who : Waiter) (b : Byte) : List Micro := [.flagClr, .serTx b, .poll who]

/-- The last two steps of a serial framer, also its clean-up (41_framers.md R114, R115): DC to "data", CS deasserted. -/
def framerRelease : List Micro := [.pin .dc Polarity.dcData, .pin .cs (!Polarity.csAsserted)]

/-- The end of a block: mode-select deasserted, then the settle delay; also its clean-up (43_serial_transport.md R150, R157). -/
def modeRelease (c : Config) : List Micro := [.pin .msel (!Polarity.mselAsserted), .delayUs c.tMselUs]

/-- The clean-up of a timed-out wait, from the innermost procedure out (60_exceptions.md R184, 40_sequencer.md R88). -/
def waitCleanup (c : Config) : Waiter → List Micro
  | .txcmd => framerRelease
  | .txdat => framerRelease
  | .init => framerRelease ++ [.seq .notStarted]
  | .xfer => modeRelease c

/-- The body of the loop of `XFER` for the byte at `IDX` (43_serial_transport.md R150): read byte IDX of `txBytes`, exchange it, write the
answer as byte IDX of `outRxBytes`; addresses modulo 2^16 (20_memory.md R44). -/
def xferByte (txA rxA : Word) (s : State) : List Micro :=
  .memRd (txA + s.idx) (s.dmemByte (txA + s.idx)) :: serByte .xfer (s.dmemByte (txA + s.idx))
    ++ [.storeRx (rxA + s.idx)]

/-- Where a fused run has stopped at the test `IDX != len` of `XFER`, the loop is left or its body entered (43_serial_transport.md R150). -/
def passLoop (s : State) : State :=
  match s.todo with
  | .xferLoop txA rxA len :: rest =>
    if due s then s
    else if s.idx = len then runMicros rest s
    else runMicros (xferByte txA rxA s ++ .xferLoop txA rxA len :: rest) s
  | _ => s

/-- CORE runs a program of micro-actions as far as it can go in one step: to the end of the operation, to a completion wait, to the next
fetch from the table, or to the moment of another agent's move (00_scope.md R6, log 5). -/
def run (prog : List Micro) (s : State) : State := passLoop (runMicros prog s)

/-- One poll of the completion wait (43_serial_transport.md R152 step 3), `rest` being what follows the wait: the flag is set and CORE
goes on; or the limit is reached, `Timeout` is emitted and the error path runs; or the poll is counted and the wait goes on. -/
def pollWait (who : Waiter) (rest : List Micro) (s : State) : State :=
  if s.xdone then run rest (tick s)
  else if pollLimitReached s then
    run (errorPath (waitCleanup s.cfg who) .transportTimeout who.op) (tick (emit .timeout s))
  else tick { s with polls := s.polls + 1, todo := .poll who :: rest }

/-- A host operation: acceptance, its program, which ends with the end step (30_encoding.md R66). A command that meets BUSY = 1 is not
accepted and has no effect. -/
def hostOperation (op : BitVec 4) (p : Ports) (prog : List Micro) (s : State) : State :=
  if s.busy then s else run (prog ++ [.opEnd op]) (accept op p s)

/-- A reserved host command: accepted, and ended at once with no effect other than `OpStart`, `OpEnd` and `RESULT = 0`
(30_encoding.md R69). -/
def reservedOperation (c : HostCmd) (s : State) : State := hostOperation c.op c.ports [] s

end Sys2Proof.Machine
end

