-- ==== Sys2Proof/Machine/Pins.lean ====
section
/-!
DEFINITION. The Pin/Port Controller and the Delay Primitive (42_pins_delay.md): the host operations `SETLN`, `CLRLN`, `CFGDIR`, `DELAY`.
-/

namespace Sys2Proof.Machine

/-- The micro-action of a line operation on its signal operand; none for a reserved identifier (42_pins_delay.md R133, 30_encoding.md R69). -/
def lineAction (c : Config) (p : Ports) (act : Signal → Micro) : List Micro :=
  ((signalOperand c p).map act).toList

/-- `SETLN`: `pin_write(s, 1)` (42_pins_delay.md R133). -/
def execSetln (p : Ports) (s : State) : Host.Outcome State Fault Refusal :=
  .next (hostOperation 0x5 p (lineAction s.cfg p fun sig => .pin sig true) s)

/-- `CLRLN`: `pin_write(s, 0)` (42_pins_delay.md R134). -/
def execClrln (p : Ports) (s : State) : Host.Outcome State Fault Refusal :=
  .next (hostOperation 0x6 p (lineAction s.cfg p fun sig => .pin sig false) s)

/-- `CFGDIR`: `dir_write(s, asOutput)` (42_pins_delay.md R135). -/
def execCfgdir (p : Ports) (s : State) : Host.Outcome State Fault Refusal :=
  .next (hostOperation 0x7 p (lineAction s.cfg p fun sig => .dir sig (asOutputOperand p)) s)

/-- `DELAY`: `delay_ms(host_a)` (42_pins_delay.md R136). -/
def execDelay (p : Ports) (s : State) : Host.Outcome State Fault Refusal :=
  .next (hostOperation 0x3 p [.delayMs (millisOperand p)] s)

end Sys2Proof.Machine
end

