-- ==== Sys2Proof/Machine/Transmit.lean ====
section
/-!
DEFINITION. The Transmit Protocol (41_framers.md): the framers `tx_command` and `tx_data` on either substrate, and the host operations
`TXCMD` and `TXDAT`.
-/

namespace Sys2Proof.Machine

/-- A framer with its DC level (41_framers.md R110, R111, R114): chip-select, DC, then on the parallel bus the byte and the strobe pulse
or on the serial substrate one byte transfer with the answer discarded, then DC to "data" and chip-select released. -/
def framer (c : Config) (who : Waiter) (dc : Level) (b : Byte) : List Micro :=
  match c.busMode with
  | .parallel =>
    [.pin .cs Polarity.csAsserted, .pin .dc dc, .bus b, .pin .wr (!Polarity.wrIdle), .pin .wr Polarity.wrIdle,
      .pin .dc Polarity.dcData, .pin .cs (!Polarity.csAsserted)]
  | .serial =>
    .pin .cs Polarity.csAsserted :: .pin .dc dc :: serByte who b ++ .serRx :: framerRelease

/-- `tx_command(b)` (41_framers.md R110, R114). -/
def txCommand (c : Config) (who : Waiter) (b : Byte) : List Micro := framer c who Polarity.dcCommand b

/-- `tx_data(b)` (41_framers.md R111, R114): the same framing with DC in "data" throughout. -/
def txData (c : Config) (who : Waiter) (b : Byte) : List Micro := framer c who Polarity.dcData b

/-- `TXCMD` (41_framers.md R110). -/
def execTxcmd (p : Ports) (s : State) : Host.Outcome State Fault Refusal :=
  .next (hostOperation 0x1 p (txCommand s.cfg .txcmd (byteOperand p)) s)

/-- `TXDAT` (41_framers.md R111). -/
def execTxdat (p : Ports) (s : State) : Host.Outcome State Fault Refusal :=
  .next (hostOperation 0x2 p (txData s.cfg .txdat (byteOperand p)) s)

end Sys2Proof.Machine
end

