-- ==== Sys2Proof/Machine/Sequencer.lean ====
section
/-!
DEFINITION. The Command Sequencer (40_sequencer.md): the table walk and its format validator (30_encoding.md R62), the electrical reset (R82),
`INIT`, and the two instructions of the table program, `COUNT` and `REC`.
-/

namespace Sys2Proof.Machine

/-- The bytes of `n` records met by walking from an address, each 3 + argCount long (30_encoding.md R62, R64). -/
def recordsLen (rom : Memory) : Nat → Word → Nat
  | 0, _ => 0
  | n + 1, a =>
    let len := 3 + (Memory.read rom a.toNat).toNat
    len + recordsLen rom n (a + BitVec.ofNat 16 len)

/-- `table_len` as the walk computes it from the count byte at an address (30_encoding.md R62). -/
def tableLen (rom : Memory) (base : Word) : Nat :=
  1 + recordsLen rom (Memory.read rom base.toNat).toNat (base + 1)

/-- `TableWellFormed(rom, TBL_BASE, TBL_LEN)` (30_encoding.md R62). -/
def tableWellFormed (rom : Memory) (c : Config) : Bool :=
  decide (1 ≤ c.tblLen) && decide (tableLen rom c.tblBase = c.tblLen) && decide (c.tblBase.toNat + c.tblLen ≤ 65536)

/-- The lines that exist, in ascending order of their identifiers (40_sequencer.md R82). -/
def lines (c : Config) : List Signal :=
  [.reset, .cs, .dc, .wr, .rd, .d0, .d1, .d2, .d3, .d4, .d5, .d6, .d7] ++ (if c.hasSte then [.msel] else [])

/-- `electrical_reset()` (40_sequencer.md R82): every line an output; the idle levels; then RESET deasserted, asserted, deasserted, each
phase held for `T_RST_MS`. The data latches are not written. -/
def electricalReset (c : Config) : List Micro :=
  (lines c).map (fun sig => .dir sig true)
    ++ [.pin .reset (!Polarity.resetAsserted), .pin .cs (!Polarity.csAsserted), .pin .dc Polarity.dcData,
        .pin .wr Polarity.wrIdle, .pin .rd Polarity.rdIdle]
    ++ (if c.hasSte then [.pin .msel (!Polarity.mselAsserted)] else [])
    ++ [.delayMs c.tRstMs, .pin .reset Polarity.resetAsserted, .delayMs c.tRstMs,
        .pin .reset (!Polarity.resetAsserted), .delayMs c.tRstMs]

/-- The program of `INIT` before its end step (40_sequencer.md R80): the state back to `NotStarted`; the validator, which rejects a table before
any line moves (R81); else the electrical reset, the cursor to the table head, `COUNT`, the records, `Done`. -/
def initProgram (s : State) : List Micro :=
  .seq .notStarted ::
    (if s.cfg.validate && !tableWellFormed s.rom s.cfg then [.result .tableFormat]
     else electricalReset s.cfg ++ [.ptrBase, .tableHead, .records, .seq .done])

/-- `INIT` (40_sequencer.md R80). The step runs it up to the table head; `COUNT` and the records are the instructions of the next steps. -/
def execInit (p : Ports) (s : State) : Host.Outcome State Fault Refusal :=
  .next (hostOperation 0x0 p (initProgram s) s)

/-- The program of `COUNT` (40_sequencer.md R83). -/
def countProgram (count : Byte) : List Micro := [.romRd .recs count, .seq .applyingRecord]

/-- `COUNT` (40_sequencer.md R83), before what `INIT` has still to do. -/
def execCount (count : Byte) (s : State) : Host.Outcome State Fault Refusal :=
  .next (run (countProgram count ++ s.todo) s)

/-- One argument of a record: read, sent as data, counted (40_sequencer.md R84). -/
def argProgram (c : Config) (a : Byte) : List Micro := .romRd .arg a :: txData c .init a ++ [.argSent]

/-- The program of `REC` (40_sequencer.md R84): the three head bytes, the command, the arguments in the order stored, the delay. -/
def recordProgram (c : Config) (argCount delayMs opcode : Byte) (args : List Byte) : List Micro :=
  .romRd .args argCount :: .romRd .dly delayMs :: .romRd .opc opcode :: txCommand c .init opcode
    ++ args.flatMap (argProgram c) ++ [.settle, .settled]

/-- `REC` (40_sequencer.md R84), before what `INIT` has still to do. -/
def execRecord (argCount delayMs opcode : Byte) (args : List Byte) (s : State) : Host.Outcome State Fault Refusal :=
  .next (run (recordProgram s.cfg argCount delayMs opcode args ++ s.todo) s)

/-- The bytes of TROM from an address on; the cursor wraps (10_state.md R16, 20_memory.md R56). -/
def romBytes (s : State) (a : Word) : Nat → List Byte
  | 0 => []
  | n + 1 => s.romByte a :: romBytes s (a + 1) n

/-- The code at the table head: one byte at the cursor (30_encoding.md R60). -/
def headCode (s : State) : Code := .head (romBytes s s.ptr 1)

/-- The code at a record boundary: as many bytes as the record's own first byte says (30_encoding.md R64). -/
def recordCode (s : State) : Code := .boundary (romBytes s s.ptr (3 + (s.romByte s.ptr).toNat))

end Sys2Proof.Machine
end

