-- ==== Sys2Proof/Machine/Transport.lean ====
section
/-!
DEFINITION. The Byte-Oriented Transport (43_serial_transport.md): the host operation `XFER`. The per-byte operation and its wait stand in
Run.lean, the completion step in Ops.lean.
-/

namespace Sys2Proof.Machine

/-- The program of a block transfer (43_serial_transport.md R150): mode-select asserted once, settle, the bytes, mode-select deasserted
once, settle; the same frame for length 0 (R156). -/
def xferProgram (c : Config) (txA rxA len : Word) : List Micro :=
  .pin .msel Polarity.mselAsserted :: .delayUs c.tMselUs :: .idxZero :: .xferLoop txA rxA len :: modeRelease c

/-- `XFER` (43_serial_transport.md R150); without `HAS_STE` it is reserved and has no effect (30_encoding.md R69). -/
def execXfer (p : Ports) (s : State) : Host.Outcome State Fault Refusal :=
  .next (hostOperation 0x4 p (if s.cfg.hasSte then xferProgram s.cfg p.a p.b p.n else []) s)

end Sys2Proof.Machine
end

