-- ==== Sys2Proof/Machine/Dispatch.lean ====
section
/-! DEFINITION. Dispatch: one arm per constructor of `Instr`, each one direct call of that instruction's meaning. -/

namespace Sys2Proof.Machine

def exec (i : Instr) (s : State) : Host.Outcome State Fault Refusal :=
  match i with
  | .count count => Sys2Proof.Machine.execCount count s
  | .record argCount delayMs opcode args => Sys2Proof.Machine.execRecord argCount delayMs opcode args s
  | .init p => Sys2Proof.Machine.execInit p s
  | .txcmd p => Sys2Proof.Machine.execTxcmd p s
  | .txdat p => Sys2Proof.Machine.execTxdat p s
  | .delay p => Sys2Proof.Machine.execDelay p s
  | .xfer p => Sys2Proof.Machine.execXfer p s
  | .setln p => Sys2Proof.Machine.execSetln p s
  | .clrln p => Sys2Proof.Machine.execClrln p s
  | .cfgdir p => Sys2Proof.Machine.execCfgdir p s

end Sys2Proof.Machine
end

