-- ==== Sys2Proof/Machine/Agents.lean ====
section
/-!
DEFINITION. The agents and their moves (00_scope.md R4, 60_exceptions.md R193): the host issuing a command, CORE going on with the running
operation, and the moves that fall between micro-actions.
-/

namespace Sys2Proof.Machine

/-- An instruction that starts a serial operation: `XFER`, and with `BUS_MODE = SERIAL` also `TXCMD`, `TXDAT` and `INIT`
(93_implementation_defined.md U4). -/
def startsSerial (c : Config) : Instr → Bool
  | .count _ => false
  | .record _ _ _ _ => false
  | .init _ => decide (c.busMode = .serial)
  | .txcmd _ => decide (c.busMode = .serial)
  | .txdat _ => decide (c.busMode = .serial)
  | .delay _ => false
  | .xfer _ => true
  | .setln _ => false
  | .clrln _ => false
  | .cfgdir _ => false

/-- The signal identifier of a line operation is 13 in a build without `HAS_STE` (30_encoding.md R69). -/
def namesMissingLine (c : Config) (p : Ports) : Bool :=
  decide (signalField p = 13#4) && !c.hasSte

/-- What 00_scope.md R9 says a model should refuse by name, for a decoded host operation (U4, U7, U8). -/
def reservedUse (s : State) (i : Instr) : Option Refusal :=
  match i with
  | .setln p => if namesMissingLine s.cfg p then some .noModeSelect else none
  | .clrln p => if namesMissingLine s.cfg p then some .noModeSelect else none
  | .cfgdir p => if namesMissingLine s.cfg p then some .noModeSelect else none
  | .xfer _ => if !s.cfg.hasSte then some .noSerialEngine else if s.pending then some .transferPending else none
  | .count _ => none
  | .record _ _ _ _ => none
  | .delay _ => none
  | .init p => if startsSerial s.cfg (.init p) && s.pending then some .transferPending else none
  | .txcmd p => if startsSerial s.cfg (.txcmd p) && s.pending then some .transferPending else none
  | .txdat p => if startsSerial s.cfg (.txdat p) && s.pending then some .transferPending else none

/-- The refusal of a command, only with the option `refuse` on (log 6, log 7). -/
def admission (s : State) (i : Instr) : Option Refusal :=
  if s.cfg.refuse then reservedUse s i else none

/-- The host issues a command while `host_ready = 1`. A reserved command has the effect of 30_encoding.md R69, or is refused by name with the option
`refuse` on. -/
def issue (c : HostCmd) (s : State) : Host.Outcome State Fault Refusal :=
  match decode (.command c) with
  | .instr i _ =>
    match admission s i with
    | some r => .refused r
    | none => exec i s
  | .reject r => if s.cfg.refuse then .refused (.rejected r) else .next (reservedOperation c s)

/-- A command presented at a given moment: with BUSY = 1 it is not accepted, has no effect and is not queued (30_encoding.md R66). -/
def present (c : HostCmd) (s : State) : Host.Outcome State Fault Refusal :=
  if s.busy then .next s else issue c s

/-- A move of an agent other than CORE (log 4). -/
def agentMove (m : Move) (s : State) : Host.Outcome State Fault Refusal :=
  match m with
  | .cpl r => .next (completion r s)
  | .rst => .next (blockReset s)
  | .present c => present c s
  | .hostStore a v => .next (hostStore a v s)
  | .hostLook => .next s

/-- The instruction that stands at the cursor is executed (40_sequencer.md R83, R84). A ROM has a byte at every address, so the decoder never
rejects (30_encoding.md R64). -/
def execCode (code : Code) (s : State) : Host.Outcome State Fault Refusal :=
  match decode code with
  | .instr i _ => exec i s
  | .reject r => .refused (.rejected r)

/-- CORE's move, or the host's when CORE is idle: at a stop the poll, the fetch or the loop test; elsewhere CORE goes on with what an agent's
move had interrupted; idle, the host issues its next command, or nothing happens. -/
def coreMove (s : State) : Host.Outcome State Fault Refusal :=
  match s.todo with
  | .poll who :: rest => .next (pollWait who rest s)
  | .tableHead :: rest => execCode (headCode s) { s with todo := rest }
  | .records :: rest => if s.recs = 0 then .next (run rest s) else execCode (recordCode s) s
  | m :: rest => .next (run (m :: rest) s)
  | [] =>
    if s.busy then .next (tick s)
    else
      match s.cmds with
      | c :: cs => issue c { s with cmds := cs }
      | [] => .next (tick s)

/-- One step of the whole: a move of another agent whose moment has come, else CORE's or the host's move (log 4). -/
def agentsStep (s : State) : Host.Outcome State Fault Refusal :=
  match s.events with
  | ⟨0, m⟩ :: rest => agentMove m { s with events := rest }
  | _ => coreMove s

/-- Bytes of `TROM` replaced from an address on; used only to place an instruction (log 13). -/
def placeBytes : List Byte → Word → Memory → Memory
  | [], _, m => m
  | b :: rest, a, m => placeBytes rest (a + 1) (Memory.write m a.toNat b)

/-- A state with code placed so that the very next step executes it (log 13): a host command is put first in the host's hands with the block idle;
table code is put at the cursor with `INIT` at that point of its walk. No move of another agent comes before it. -/
def placeCode (code : Code) (s : State) : State :=
  match code with
  | .command c => { s with busy := false, todo := [], cmds := c :: s.cmds, events := [] }
  | .head bytes =>
    { s with
      rom := placeBytes bytes s.ptr s.rom, busy := true, seqState := .notStarted, events := [],
      todo := [.tableHead, .records, .seq .done, .opEnd 0x0] }
  | .boundary bytes =>
    { s with
      rom := placeBytes bytes s.ptr s.rom, busy := true, seqState := .applyingRecord, events := [],
      recs := if s.recs = 0 then 1 else s.recs,
      todo := [.records, .seq .done, .opEnd 0x0] }

end Sys2Proof.Machine
end

