-- ==== Sys2Proof/Machine/Step.lean ====
section
/-! DEFINITION. The step function, and the placing of an opcode-table word where the next step executes it (log 13, log 14). -/

namespace Sys2Proof.Machine

/-- One step of the machine (Agents.lean). -/
def step (s : State) : Host.Outcome State Fault Refusal := agentsStep s

/-- `s` with an opcode-table word placed so that `step` fetches and runs exactly it (log 13, log 14). -/
def State.withFetchWord (s : State) (nbits w : Nat) : State := placeCode (codeOfTableWord nbits w) s

end Sys2Proof.Machine
end

