-- ==== Sys2Proof/Machine/Assembler.lean ====
section
/-!
DEFINITION. The text form of a table (30_encoding.md R70) after its characters are read: `rec` lines, or literal bytes. The block knows nothing of it;
it is the spec's own way to write tables.
-/

namespace Sys2Proof.Machine

/-- A line `rec OP, A0, A1, … delay=D`; `delay=` omitted is 0 (30_encoding.md R70). -/
structure RecLine where
  op : Byte
  args : List Byte
  delay : Nat
  deriving DecidableEq, Repr

/-- A table as written: `rec` lines, or the escape `bytes`, literal and unchecked, whose first byte is then the count (30_encoding.md R70). -/
inductive TableText where
  | lines (recs : List RecLine)
  | literal (bytes : List Byte)
  deriving DecidableEq, Repr

/-- `rec OP, A0, … delay=D` assembles to `[n, D, OP, A0, …]`; a delay above 255 is an error and is not expanded (30_encoding.md R70). -/
def assembleLine (l : RecLine) : Option (List Byte) :=
  if l.args.length ≤ 255 ∧ l.delay ≤ 255 then
    some (BitVec.ofNat 8 l.args.length :: BitVec.ofNat 8 l.delay :: l.op :: l.args)
  else none

/-- The lines one after another, with no gap (30_encoding.md R62). -/
def assembleLines : List RecLine → Option (List Byte)
  | [] => some []
  | l :: rest =>
    match assembleLine l, assembleLines rest with
    | some a, some b => some (a ++ b)
    | _, _ => none

/-- The table image: the count byte, at most 255, then the records (30_encoding.md R70). -/
def assemble : TableText → Option (List Byte)
  | .lines recs =>
    if recs.length ≤ 255 then (assembleLines recs).map (BitVec.ofNat 8 recs.length :: ·) else none
  | .literal bytes => some bytes

end Sys2Proof.Machine
end

