-- ==== Sys2Proof/Machine/Panel.lean ====
section
/-!
DEFINITION. The panel's view of the trace and the totals read off it (10_state.md R31, R35). Definitions for stating claims; the block
computes none of them.
-/

namespace Sys2Proof.Machine

/-- An item of the panel's view (10_state.md R31). -/
inductive PanelItem where
  /-- A byte latched, with the level of DC: 0 command, 1 data. -/
  | lat (dc : Level) (b : Byte)
  /-- `Lat(any, any)`: a needed line floats; any number of bytes of any value is a consistent outcome (41_framers.md R116, U1). -/
  | latAny
  /-- The hardware reset line has fallen. -/
  | hwReset
  /-- A delay of nominally `ms` milliseconds, more than 0. -/
  | wait (ms : Nat)
  deriving DecidableEq, Repr

/-- The latches and directions the scan of the trace keeps (10_state.md R31). -/
structure PinView where
  out : BitVec 14
  dir : BitVec 14
  deriving DecidableEq, Repr

/-- The latch of a signal in the scan. -/
def PinView.outBit (v : PinView) (sig : Signal) : Level := v.out.getLsbD sig.id

/-- The direction of a signal in the scan. -/
def PinView.dirBit (v : PinView) (sig : Signal) : Bool := v.dir.getLsbD sig.id

/-- Every line the parallel bus needs is an output: CS, DC, WR and D0 to D7 (10_state.md R31). -/
def PinView.busDriven (v : PinView) : Bool :=
  [Signal.cs, .dc, .wr, .d0, .d1, .d2, .d3, .d4, .d5, .d6, .d7].all v.dirBit

/-- Every line the serial substrate needs of the controller is an output: CS and DC (10_state.md R31). -/
def PinView.selectDriven (v : PinView) : Bool := v.dirBit .cs && v.dirBit .dc

/-- How an event updates the latches and directions (10_state.md R31, last line). -/
def PinView.after (v : PinView) : Event → PinView
  | .pin sig l => { v with out := setBit v.out sig.id l }
  | .dir sig d => { v with dir := setBit v.dir sig.id d }
  | .bus b => { v with out := setData v.out b }
  | _ => v

/-- What a byte offered with the bus or the select lines in a given condition gives the panel (10_state.md R31). -/
def PinView.latched (v : PinView) (driven : Bool) (b : Byte) : List PanelItem :=
  if driven then
    if v.outBit .cs = Polarity.csAsserted then [.lat (v.outBit .dc) b] else []
  else [.latAny]

/-- The items an event adds to the panel's view, seen from the latches and directions before it (10_state.md R31). -/
def panelItems (c : Config) (v : PinView) : Event → List PanelItem
  | .pin .wr l =>
    match c.busMode with
    | .parallel => if l && !v.outBit .wr then v.latched v.busDriven (v.out.extractLsb' 5 8) else []
    | .serial => []
  | .pin .reset l =>
    if l = Polarity.resetAsserted ∧ v.outBit .reset ≠ Polarity.resetAsserted ∧ v.dirBit .reset = true then [.hwReset] else []
  | .serTx b =>
    match c.busMode with
    | .parallel => []
    | .serial => v.latched v.selectDriven b
  | .delayMs n => if 0 < n then [.wait n] else []
  | _ => []

/-- The panel's view of a run of events from given latches and directions. -/
def panelFrom (c : Config) : PinView → List Event → List PanelItem
  | _, [] => []
  | v, e :: rest => panelItems c v e ++ panelFrom c (v.after e) rest

/-- `panel(TRACE)`: the scan starts from the reset values (10_state.md R31). -/
def panel (c : Config) (trace : List Event) : List PanelItem := panelFrom c ⟨resetPinOut c, 0⟩ trace

/-- The latches and directions of a state, as a starting point of the scan. -/
def State.pinView (s : State) : PinView := ⟨s.pinOut, s.pinDir⟩

/-- An item is a `Wait`. -/
def PanelItem.isWait : PanelItem → Bool
  | .wait _ => true
  | _ => false

/-- `latches(TRACE)`: the panel's view without its `Wait` items (10_state.md R35). -/
def latches (items : List PanelItem) : List PanelItem := items.filter fun i => !i.isWait

/-- The milliseconds of a delay event, 0 for any other event. -/
def Event.millis : Event → Nat
  | .delayMs n => n
  | _ => 0

/-- `total_delay_ms(TRACE)` (10_state.md R35). -/
def totalDelayMs (trace : List Event) : Nat := (trace.map Event.millis).sum

end Sys2Proof.Machine
end

