-- ==== Sys2Proof/Safety.lean ====
section
/-!
DEFINITION. What claims speak of: conditions on a state, the invariants of the machine, and the event lists of the spec's own rules, written from
those rules and not from the programs of micro-actions.
-/

namespace Sys2Proof.Machine

/-- The host can issue and nothing runs (30_encoding.md R66, 60_exceptions.md R193). -/
abbrev Idle (s : State) : Prop := s.busy = false ∧ s.todo = []

/-- No other agent is going to move, so a step of CORE goes as far as it can (log 4, log 5). -/
abbrev Quiet (s : State) : Prop := s.events = []

/-- Both memories are in canonical form. -/
def State.memoriesOk (s : State) : Bool := Memory.wf s.rom && Memory.wf s.dmem

/-- The program of a running operation has exactly one end step, its last micro-action (30_encoding.md R66). -/
def endsOnce : List Micro → Bool
  | [] => false
  | [.opEnd _] => true
  | .opEnd _ :: _ => false
  | _ :: rest => endsOnce rest

/-- The transitions of `SEQ_STATE` that a plain write can make (40_sequencer.md R85). -/
def seqTransition : SeqState → SeqState → Bool
  | _, .notStarted => true
  | st, .applyingRecord => decide (st = .notStarted)
  | _, .awaitingSettle => false
  | st, .done => decide (st = .applyingRecord)

/-- `SEQ_STATE` goes through a program by the transitions of 40_sequencer.md R85 alone and rests in `NotStarted` or `Done` at its end; a wait that can
raise and does not restore `NotStarted` itself begins in a resting state. -/
def seqLegal : SeqState → List Micro → Bool
  | st, [] => st.resting
  | st, .seq x :: rest => seqTransition st x && seqLegal x rest
  | st, .settle :: rest => decide (st = .applyingRecord) && seqLegal .awaitingSettle rest
  | st, .settled :: rest => decide (st = .awaitingSettle) && seqLegal .applyingRecord rest
  | st, .poll who :: rest => (decide (who = .init) || st.resting) && seqLegal st rest
  | st, .tableHead :: rest => decide (st = .notStarted) && seqLegal .applyingRecord rest
  | st, .records :: rest => decide (st = .applyingRecord) && seqLegal st rest
  | st, .xferLoop _ _ _ :: rest => st.resting && seqLegal st rest
  | st, _ :: rest => seqLegal st rest

/-- No decrement of `RECS` or `ARGS` in a program meets a zero (40_sequencer.md R94); the two numbers are the registers' values. -/
def countersLegal : Nat → Nat → List Micro → Bool
  | _, _, [] => true
  | _, a, .romRd .recs v :: rest => countersLegal v.toNat a rest
  | n, _, .romRd .args v :: rest => countersLegal n v.toNat rest
  | n, a, .argSent :: rest => decide (a ≠ 0) && countersLegal n (a - 1) rest
  | n, a, .settled :: rest => decide (n ≠ 0) && countersLegal (n - 1) a rest
  | _, _, .tableHead :: rest => countersLegal 0 0 rest
  | _, _, .records :: rest => countersLegal 0 0 rest
  | n, a, _ :: rest => countersLegal n a rest

/-- The control invariant: BUSY is 1 exactly while an operation has something left to do (10_state.md R21), and what is left obeys the
transitions of R85 and the counters of R94. -/
def State.controlOk (s : State) : Bool :=
  (if s.busy then endsOnce s.todo else decide (s.todo = []))
    && seqLegal s.seqState s.todo && countersLegal s.recs.toNat s.args.toNat s.todo

/-- `RESULT` shows only a condition that exists in the configuration (60_exceptions.md R180). -/
def resultFits (c : Config) (rom : Memory) : Result → Bool
  | .ok => true
  | .transportTimeout => c.hasSte && c.timeoutPolls.isSome
  | .tableFormat => c.validate && !tableWellFormed rom c

/-- A micro-action that a build can contain: those of the serial engine only with `HAS_STE` (00_scope.md D33), a framer's wait only in serial mode,
a condition only in the configuration in which it exists (60_exceptions.md R180). -/
def microFits (c : Config) (rom : Memory) : Micro → Bool
  | .pin _ _ => true
  | .dir _ _ => true
  | .bus _ => true
  | .delayMs _ => true
  | .delayUs _ => true
  | .seq _ => true
  | .ptrBase => true
  | .romRd _ _ => true
  | .argSent => true
  | .settle => true
  | .settled => true
  | .idxZero => c.hasSte
  | .memRd _ _ => c.hasSte
  | .flagClr => c.hasSte
  | .serTx _ => c.hasSte
  | .serRx => c.hasSte
  | .storeRx _ => c.hasSte
  | .result r => resultFits c rom r
  | .opEnd _ => true
  | .poll who => if who = .xfer then c.hasSte else decide (c.busMode = .serial)
  | .tableHead => true
  | .records => true
  | .xferLoop _ _ _ => c.hasSte

/-- What does not exist without `HAS_STE` is as reset left it: bit 13 of both pin registers 0 (10_state.md R12), the serial registers untouched. -/
def State.engineAbsent (s : State) : Bool :=
  !s.out .msel && !s.dir .msel && !s.xdone && !s.pending && decide (s.txbuf = 0) && decide (s.rxhold = 0)
    && decide (s.idx = 0) && decide (s.polls = 0)

/-- The build invariant. -/
def State.buildOk (s : State) : Bool :=
  s.todo.all (microFits s.cfg s.rom) && resultFits s.cfg s.rom s.result && (s.cfg.hasSte || s.engineAbsent)

/-- Every line the parallel framers need is an output (70_reset_and_hazards.md R210). -/
def State.busDriven (s : State) : Bool := s.pinView.busDriven

/-- The events of one framer call on the parallel bus (41_framers.md R110, R111): signal ids 1 CS, 2 DC, 3 WR. -/
def framerEvents (dc : Level) (b : Byte) : List Event :=
  [.pin .cs false, .pin .dc dc, .bus b, .pin .wr false, .pin .wr true, .pin .dc true, .pin .cs true]

/-- The events of the electrical reset (40_sequencer.md R82). -/
def resetEvents (c : Config) : List Event :=
  [.dir .reset true, .dir .cs true, .dir .dc true, .dir .wr true, .dir .rd true, .dir .d0 true, .dir .d1 true,
    .dir .d2 true, .dir .d3 true, .dir .d4 true, .dir .d5 true, .dir .d6 true, .dir .d7 true]
  ++ (if c.hasSte then [.dir .msel true] else [])
  ++ [.pin .reset true, .pin .cs true, .pin .dc true, .pin .wr true, .pin .rd true]
  ++ (if c.hasSte then [.pin .msel true] else [])
  ++ [.delayMs c.tRstMs, .pin .reset false, .delayMs c.tRstMs, .pin .reset true, .delayMs c.tRstMs]

/-- A record of a table (30_encoding.md R61). -/
structure TableRecord where
  argCount : Byte
  delayMs : Byte
  opcode : Byte
  args : List Byte
  deriving DecidableEq, Repr

/-- The record that stands at an address of TROM (30_encoding.md R61). -/
def recordAt (s : State) (a : Word) : TableRecord where
  argCount := s.romByte a
  delayMs := s.romByte (a + 1)
  opcode := s.romByte (a + 2)
  args := romBytes s (a + 3) (s.romByte a).toNat

/-- The address after the record at an address (30_encoding.md R62). -/
def afterRecord (s : State) (a : Word) : Word := a + 3 + BitVec.ofNat 16 (s.romByte a).toNat

/-- The `n` records met by walking from an address, each with its address (30_encoding.md R62). -/
def recordsFrom (s : State) : Nat → Word → List (Word × TableRecord)
  | 0, _ => []
  | n + 1, a => (a, recordAt s a) :: recordsFrom s n (afterRecord s a)

/-- The records of the table at `TBL_BASE`. -/
def tableRecords (s : State) : List (Word × TableRecord) :=
  recordsFrom s (s.romByte s.cfg.tblBase).toNat (s.cfg.tblBase + 1)

/-- The events of the arguments of a record from an address on, on the parallel bus (40_sequencer.md R97). -/
def argEvents : Word → List Byte → List Event
  | _, [] => []
  | a, x :: rest => .romRd a x :: framerEvents true x ++ argEvents (a + 1) rest

/-- The events of one record on the parallel bus (40_sequencer.md R97). -/
def recordEvents (a : Word) (r : TableRecord) : List Event :=
  [.romRd a r.argCount, .romRd (a + 1) r.delayMs, .romRd (a + 2) r.opcode] ++ framerEvents false r.opcode
    ++ argEvents (a + 3) r.args ++ [.delayMs r.delayMs.toNat]

/-- The events of one framer call in serial mode answered with `r` (41_framers.md R114). -/
def serialFramerEvents (dc : Level) (b r : Byte) : List Event :=
  [.pin .cs false, .pin .dc dc, .flagClr, .serTx b, .cpl r, .serRx r, .pin .dc true, .pin .cs true]

/-- The events of the arguments of a record in serial mode, each with its answer. -/
def serialArgEvents : Word → List (Byte × Byte) → List Event
  | _, [] => []
  | a, (x, r) :: rest => .romRd a x :: serialFramerEvents true x r ++ serialArgEvents (a + 1) rest

/-- The events of one record in serial mode, with the answers to its bytes (40_sequencer.md R84, 41_framers.md R114). -/
def serialRecordEvents (a : Word) (x : TableRecord) (r : Byte) (answers : List Byte) : List Event :=
  [.romRd a x.argCount, .romRd (a + 1) x.delayMs, .romRd (a + 2) x.opcode] ++ serialFramerEvents false x.opcode r
    ++ serialArgEvents (a + 3) (x.args.zip answers) ++ [.delayMs x.delayMs.toNat]

/-- The exact event list of one `INIT` on the parallel bus (40_sequencer.md R97). -/
def initEvents (s : State) (p : Ports) : List Event :=
  .opStart 0 p.a p.b p.n :: resetEvents s.cfg
    ++ .romRd s.cfg.tblBase (s.romByte s.cfg.tblBase) :: (tableRecords s).flatMap (fun x => recordEvents x.1 x.2)
    ++ [.opEnd 0 .ok]

/-- The bytes a record offers the panel: its opcode as a command, its arguments as data (40_sequencer.md R91). -/
def recordLatches (r : TableRecord) : List PanelItem := .lat false r.opcode :: r.args.map (.lat true)

/-- The last byte a table's records transmit, or `b` when there is none (40_sequencer.md R87). -/
def lastByte (b : Byte) (recs : List TableRecord) : Byte :=
  (recs.flatMap fun r => r.opcode :: r.args).getLast?.getD b

/-- The value of `PIN_DIR` with every line an output (40_sequencer.md R87). -/
def allOutputs (c : Config) : BitVec 14 := if c.hasSte then 0x3FFF else 0x1FFF

/-- The number of steps in which an undisturbed `INIT` on the parallel bus ends: acceptance, the table head, one per record, the end (log 5). -/
def initSteps (s : State) : Nat := 3 + (s.romByte s.cfg.tblBase).toNat

/-- The answer of the far end to one byte: after how many polls that find the flag 0, and with which byte (log 4). -/
abbrev Answer := Nat × Byte

/-- Every answer comes before the wait gives up: at most `TIMEOUT_POLLS` polls find the flag 0 (43_serial_transport.md R152). -/
def inTime (c : Config) (answers : List Answer) : Prop := ∀ n, c.timeoutPolls = some n → ∀ x ∈ answers, x.1 ≤ n

/-- The moves of a far end that answers the bytes of an `XFER`: the completion of the first lies 7 micro-actions after the acceptance, those of the others
5 after the wait before has been left, and each as many polls later as its answer says (log 4). -/
def xferAnswers : List Answer → List Timed
  | [] => []
  | (d, r) :: rest => ⟨d + 7, .cpl r⟩ :: rest.map fun x => ⟨x.1 + 5, .cpl x.2⟩

/-- The moves of a far end that answers the bytes of a record in serial mode, the opcode first (log 4). -/
def recordAnswers : Answer → List Answer → List Timed
  | (d, r), [] => [⟨d + 7, .cpl r⟩]
  | (d, r), x :: rest => ⟨d + 7, .cpl r⟩ :: ⟨x.1 + 9, .cpl x.2⟩ :: rest.map fun y => ⟨y.1 + 10, .cpl y.2⟩

/-- The steps that the waits for some answers take: the polls that find the flag 0, the completion, the poll that finds it 1. -/
def waitSteps (answers : List Answer) : Nat := (answers.map fun x => x.1 + 2).sum

/-- The events of the bytes of an `XFER` whose buffers do not meet (43_serial_transport.md R158): byte sent, its answer, stored. -/
def xferEvents : Word → Word → List (Byte × Byte) → List Event
  | _, _, [] => []
  | tx, rx, (t, r) :: rest =>
    [.memRd tx t, .flagClr, .serTx t, .cpl r, .serRx r, .memWr rx r] ++ xferEvents (tx + 1) (rx + 1) rest

end Sys2Proof.Machine
end

