-- ==== Sys2Proof/Certificates/Slice0/Obligations.lean ====
section
/-!
DEFINITION. The statements. Each is about every state (or every operand) of the model unless it says otherwise; `Idle` and `Quiet` are conditions on the
state alone (Safety.lean): the host can issue, and no other agent is about to move.
-/

open Sys2Proof Sys2Proof.Machine

/-! ### Reset -/

/-- From 10_state.md section 8 and 70_reset_and_hazards.md section 1: `rst`, whatever runs, leaves every register at its reset value, every line floating, the trace empty and the
block ready, and touches neither memory nor the parameters. That a pulse is one event, and that it keeps the lists `cmds` and `events`, is the model's choice (log 10). -/
def Obligations.BlockResetLoadsEveryRegister : Prop :=
  ∀ (s : State) (rest : List Timed), s.events = ⟨0, .rst⟩ :: rest →
    ∃ t, step s = .next t
      ∧ t.pinDir = 0x0000 ∧ t.pinOut = (if s.cfg.hasSte then 0x201F else 0x001F)
      ∧ t.seqState = .notStarted ∧ t.ptr = 0 ∧ t.recs = 0 ∧ t.args = 0 ∧ t.dly = 0 ∧ t.opc = 0
      ∧ t.busy = false ∧ t.result = .ok ∧ t.xdone = false ∧ t.txbuf = 0 ∧ t.rxhold = 0 ∧ t.idx = 0
      ∧ t.pending = false ∧ t.polls = 0 ∧ t.trace = []
      ∧ (∀ sig, t.level sig = none) ∧ t.hostReady = true ∧ t.todo = []
      ∧ t.cfg = s.cfg ∧ t.rom = s.rom ∧ t.dmem = s.dmem ∧ t.cmds = s.cmds ∧ t.events = rest

/-- `State.reset` holds the reset values of 10_state.md R33 for its configuration and meets the three invariants. -/
def Obligations.ResetStateMeetsInvariants : Prop :=
  State.reset.memoriesOk = true ∧ State.reset.controlOk = true ∧ State.reset.buildOk = true
    ∧ State.reset = State.resetWith State.reset.cfg State.reset.rom State.reset.dmem [] []

/-! ### Decoding and fetching -/

/-- 30_encoding.md R60, R61, R66, R67: every well-formed instruction, encoded and followed by any bytes, decodes to itself and leaves those bytes. -/
def Obligations.DecodeOfEncodeIsIdentity : Prop :=
  ∀ (i : Instr) (rest : List Byte), i.WellFormed → decode (encodeThen rest i) = .instr i (i.trailing rest)

/-- The other direction: whatever the decoder accepts is well formed and is the encoding of what it answers, so each code has one meaning. -/
def Obligations.DecodedCodeIsItsEncoding : Prop :=
  ∀ (code : Code) (i : Instr) (rest : List Byte), decode code = .instr i rest → i.WellFormed ∧ code = encodeThen rest i

/-- 30_encoding.md R69: on the host ports the codes 0x8 to 0xF and the signal ids 14 and 15 of a line operation are rejected by name; every other command
decodes. -/
def Obligations.ReservedCommandsAreRejected : Prop :=
  ∀ c : HostCmd,
    (8 ≤ c.op.toNat → decode (.command c) = .reject (.reservedOp c.op))
      ∧ (5 ≤ c.op.toNat → c.op.toNat ≤ 7 → 14 ≤ c.ports.a.toNat % 16 →
          decode (.command c) = .reject (.reservedSignal c.op (c.ports.a.setWidth 4)))
      ∧ (c.op.toNat ≤ 4 ∨ (c.op.toNat ≤ 7 ∧ c.ports.a.toNat % 16 < 14) →
          ∃ i, decode (.command c) = .instr i [] ∧ i.hostOp = some c.op)

/-- 30_encoding.md R71 (a) to (e): the text assembles to the bytes given, they decode to the instruction they stand for, and the literal table of (e) needs 5 bytes and is not well
formed for `TBL_LEN = 4`, wherever it stands and whatever follows it; and two host commands of R70 (`TXCMD 0x2C`, and `CFGDIR` of signal 13 as an output) decode by R67. -/
def Obligations.WorkedEncodingsDecode : Prop :=
  assembleLine ⟨0x11, [], 150⟩ = some [0x00, 0x96, 0x11]
    ∧ assemble (.lines [⟨0x11, [], 150⟩]) = some [0x01, 0x00, 0x96, 0x11]
    ∧ decode (.boundary [0x00, 0x96, 0x11]) = .instr (.record 0x00 0x96 0x11 []) []
    ∧ assembleLine ⟨0x3A, [0x55], 0⟩ = some [0x01, 0x00, 0x3A, 0x55]
    ∧ decode (.boundary [0x01, 0x00, 0x3A, 0x55]) = .instr (.record 0x01 0x00 0x3A [0x55]) []
    ∧ assembleLine ⟨0x2A, [0x00, 0x00, 0x00, 0xEF], 0⟩ = some [0x04, 0x00, 0x2A, 0x00, 0x00, 0x00, 0xEF]
    ∧ decode (.boundary [0x04, 0x00, 0x2A, 0x00, 0x00, 0x00, 0xEF]) = .instr (.record 0x04 0x00 0x2A [0x00, 0x00, 0x00, 0xEF]) []
    ∧ assemble (.lines []) = some [0x00]
    ∧ decode (.head [0x00]) = .instr (.count 0x00) []
    ∧ assemble (.literal [0x01, 0x01, 0x96, 0x11]) = some [0x01, 0x01, 0x96, 0x11]
    ∧ (∀ (c : Config) (rom : Memory), Memory.wf rom = true →
        tableLen (placeBytes [0x01, 0x01, 0x96, 0x11] c.tblBase rom) c.tblBase = 5
          ∧ (c.tblLen = 4 → tableWellFormed (placeBytes [0x01, 0x01, 0x96, 0x11] c.tblBase rom) c = false))
    ∧ decode (.command ⟨0x1, ⟨0x002C, 0, 0⟩⟩) = .instr (.txcmd ⟨0x002C, 0, 0⟩) []
    ∧ decode (.command ⟨0x7, ⟨0x000D, 0x0001, 0⟩⟩) = .instr (.cfgdir ⟨0x000D, 0x0001, 0⟩) []

/-- 30_encoding.md R64, 20_memory.md R56: at a record boundary the fetch always yields a well-formed record of 3 + argCount bytes, field by field the bytes of
TROM from the cursor on, modulo 2^16. -/
def Obligations.FetchYieldsTheRecordAtTheCursor : Prop :=
  ∀ s : State, ∃ args,
    decode (recordCode s) = .instr (.record (s.romByte s.ptr) (s.romByte (s.ptr + 1)) (s.romByte (s.ptr + 2)) args) []
      ∧ args.length = (s.romByte s.ptr).toNat
      ∧ ∀ k, k < (s.romByte s.ptr).toNat → args[k]? = some (s.romByte (s.ptr + 3 + BitVec.ofNat 16 k))

/-- 30_encoding.md R70: a table written with `rec` lines, placed at `TBL_BASE` without a wrap, is well formed with `TBL_LEN` its length. -/
def Obligations.AssembledTableIsWellFormed : Prop :=
  ∀ (recs : List RecLine) (image : List Byte) (rom : Memory) (c : Config),
    assemble (.lines recs) = some image → Memory.wf rom = true →
    c.tblBase.toNat + image.length ≤ 65536 → c.tblLen = image.length →
    tableWellFormed (placeBytes image c.tblBase rom) c = true

/-! ### The step -/

/-- A step of an idle, undisturbed block executes the command the host issues next: `step` is `exec` of the decoded instruction, with the command taken from
the host's hands, unless the model's option `refuse` turns it away. -/
def Obligations.StepExecutesTheHostCommand : Prop :=
  ∀ (s : State) (c : HostCmd) (cs : List HostCmd) (i : Instr) (rest : List Byte),
    Idle s → due s = false → s.cmds = c :: cs → decode (.command c) = .instr i rest →
    admission s i = none → step s = exec i { s with cmds := cs }

/-- At the table head and at a record boundary with `RECS` not 0 a step executes the instruction that stands in TROM at the cursor (40_sequencer.md R80). -/
def Obligations.StepExecutesTheTableInstruction : Prop :=
  ∀ (s : State) (rest : List Micro), due s = false →
    (s.todo = .tableHead :: rest → step s = exec (.count (s.romByte s.ptr)) { s with todo := rest })
      ∧ (s.todo = .records :: rest → s.recs ≠ 0 →
          step s = exec (.record (s.romByte s.ptr) (s.romByte (s.ptr + 1)) (s.romByte (s.ptr + 2))
            (romBytes s (s.ptr + 3) (s.romByte s.ptr).toNat)) s)

/-- 30_encoding.md R69: every byte value is legal in every field of the formats T and R; a reserved host command (a code 0x8 to 0xF, a line operation on signal 14 or 15, on 13 without
`HAS_STE`, an `XFER` without `HAS_STE`) is accepted and ends at once with no effect other than the `OpStart` and `OpEnd` events and `RESULT = 0`. With the model's option `refuse` off, as
it is at `State.reset` (log 6). -/
def Obligations.ReservedCommandHasNoEffect : Prop :=
  (∀ (c : Byte) (rest : List Byte), decode (.head (c :: rest)) = .instr (.count c) rest)
    ∧ (∀ (n d o : Byte) (args rest : List Byte), args.length = n.toNat →
        decode (.boundary (n :: d :: o :: (args ++ rest))) = .instr (.record n d o args) rest)
    ∧ ∀ (s : State) (c : HostCmd) (cs : List HostCmd), Idle s → Quiet s → s.cmds = c :: cs → s.cfg.refuse = false →
        8 ≤ c.op.toNat
          ∨ (5 ≤ c.op.toNat ∧ c.op.toNat ≤ 7 ∧ (14 ≤ c.ports.a.toNat % 16 ∨ (c.ports.a.toNat % 16 = 13 ∧ s.cfg.hasSte = false)))
          ∨ (c.op.toNat = 4 ∧ s.cfg.hasSte = false) →
        step s = .next { s with
          cmds := cs, result := .ok,
          trace := s.trace ++ [.opStart c.op c.ports.a c.ports.b c.ports.n, .opEnd c.op .ok] }

/-- Without the model's option `refuse` every step of every state answers a next state: no fault, no refusal (60_exceptions.md R180; log 6, log 25). -/
def Obligations.EveryStepGoesOn : Prop :=
  ∀ s : State, (s.cfg.refuse = false → ∃ t, step s = .next t) ∧ (∀ f, step s ≠ .fault f)

/-- 00_scope.md R9: with the model's option `refuse` on (log 6, log 7), what R9 lists is refused by name when it is issued. -/
def Obligations.RefuseOptionRefusesByName : Prop :=
  ∀ (s : State) (c : HostCmd) (cs : List HostCmd), Idle s → Quiet s → s.cmds = c :: cs → s.cfg.refuse = true →
    (8 ≤ c.op.toNat → step s = .refused (.rejected (.reservedOp c.op)))
      ∧ (5 ≤ c.op.toNat → c.op.toNat ≤ 7 → 14 ≤ c.ports.a.toNat % 16 →
          step s = .refused (.rejected (.reservedSignal c.op (c.ports.a.setWidth 4))))
      ∧ (5 ≤ c.op.toNat → c.op.toNat ≤ 7 → c.ports.a.toNat % 16 = 13 → s.cfg.hasSte = false → step s = .refused .noModeSelect)
      ∧ (c.op.toNat = 4 → s.cfg.hasSte = false → step s = .refused .noSerialEngine)
      ∧ (c.op.toNat = 4 → s.cfg.hasSte = true → s.pending = true → step s = .refused .transferPending)
      ∧ (c.op.toNat ≤ 2 → s.cfg.busMode = .serial → s.pending = true → step s = .refused .transferPending)

/-- 30_encoding.md R66: a command presented while BUSY = 1 is not accepted, has no effect and is not queued; no host operation has an effect then. -/
def Obligations.CommandWhileBusyIsIgnored : Prop :=
  ∀ (s : State) (c : HostCmd) (rest : List Timed) (i : Instr), s.busy = true →
    (s.events = ⟨0, .present c⟩ :: rest → step s = .next { s with events := rest })
      ∧ (i.hostOp ≠ none → exec i s = .next s)

/-! ### The Transmit Protocol -/

/-- 41_framers.md R110: `TXCMD` on the parallel bus. The seven events between `OpStart` and `OpEnd`; CS, DC and WR end at 1 and `DATA` is the byte
`host_a[7:0]`; no other line, register, direction or byte of memory changes. -/
def Obligations.TxcmdSendsCommandByte : Prop :=
  ∀ (s : State) (p : Ports), Idle s → Quiet s → s.cfg.busMode = .parallel →
    ∃ t, exec (.txcmd p) s = .next t
      ∧ t = { s with
          result := .ok, pinOut := t.pinOut,
          trace := s.trace ++ .opStart 0x1 p.a p.b p.n :: framerEvents false (p.a.setWidth 8) ++ [.opEnd 0x1 .ok] }
      ∧ t.out .cs = true ∧ t.out .dc = true ∧ t.out .wr = true ∧ t.data = p.a.setWidth 8
      ∧ t.out .reset = s.out .reset ∧ t.out .rd = s.out .rd ∧ t.out .msel = s.out .msel

/-- 41_framers.md R111: `TXDAT` on the parallel bus, the same framing with DC at 1 in both of its writes. -/
def Obligations.TxdatSendsDataByte : Prop :=
  ∀ (s : State) (p : Ports), Idle s → Quiet s → s.cfg.busMode = .parallel →
    ∃ t, exec (.txdat p) s = .next t
      ∧ t = { s with
          result := .ok, pinOut := t.pinOut,
          trace := s.trace ++ .opStart 0x2 p.a p.b p.n :: framerEvents true (p.a.setWidth 8) ++ [.opEnd 0x2 .ok] }
      ∧ t.out .cs = true ∧ t.out .dc = true ∧ t.out .wr = true ∧ t.data = p.a.setWidth 8
      ∧ t.out .reset = s.out .reset ∧ t.out .rd = s.out .rd ∧ t.out .msel = s.out .msel

/-- 41_framers.md R114, 43_serial_transport.md R152: in serial mode a framer selects the panel, sets DC, clears the flag, hands the byte to the wire, and
waits with BUSY = 1; `DATA`, WR and every other line are not touched. -/
def Obligations.SerialFramersSendAndWait : Prop :=
  ∀ (s : State) (p : Ports), Idle s → Quiet s → s.cfg.busMode = .serial →
    (∃ t, exec (.txcmd p) s = .next t
      ∧ t = { s with
          busy := true, result := .ok, pinOut := t.pinOut, xdone := false, txbuf := p.a.setWidth 8, pending := true, polls := 0,
          todo := t.todo,
          trace := s.trace ++ [.opStart 0x1 p.a p.b p.n, .pin .cs false, .pin .dc false, .flagClr, .serTx (p.a.setWidth 8)] }
      ∧ t.out .cs = false ∧ t.out .dc = false ∧ (∀ sig, sig ≠ .cs → sig ≠ .dc → t.out sig = s.out sig)
      ∧ t.todo = [.poll .txcmd, .serRx, .pin .dc true, .pin .cs true, .opEnd 0x1])
    ∧ (∃ t, exec (.txdat p) s = .next t
      ∧ t = { s with
          busy := true, result := .ok, pinOut := t.pinOut, xdone := false, txbuf := p.a.setWidth 8, pending := true, polls := 0,
          todo := t.todo,
          trace := s.trace ++ [.opStart 0x2 p.a p.b p.n, .pin .cs false, .pin .dc true, .flagClr, .serTx (p.a.setWidth 8)] }
      ∧ t.out .cs = false ∧ t.out .dc = true ∧ (∀ sig, sig ≠ .cs → sig ≠ .dc → t.out sig = s.out sig)
      ∧ t.todo = [.poll .txdat, .serRx, .pin .dc true, .pin .cs true, .opEnd 0x2])

/-- 41_framers.md R114, whole host operations: in serial mode, with a far end that answers `r` after `d` polls have found the flag 0, and in time, `TXCMD` and `TXDAT` end
after `d + 3` steps with the events of R114 and the lines idle. -/
def Obligations.SerialFramersCompleteWhenAnswered : Prop :=
  ∀ (s : State) (c : HostCmd) (cs : List HostCmd) (d : Nat) (r : Byte), Idle s → s.events = [⟨d + 5, .cpl r⟩] → s.cmds = c :: cs →
    s.cfg.busMode = .serial → s.cfg.refuse = false → inTime s.cfg [(d, r)] → c.op = 0x1 ∨ c.op = 0x2 →
    ∃ t, Host.Core.run core (d + 3) s = .next t
      ∧ t = { s with
          cmds := cs, events := [], result := .ok, pinOut := t.pinOut, xdone := true, txbuf := c.ports.a.setWidth 8,
          rxhold := r, pending := false, polls := d,
          trace := s.trace ++ [.opStart c.op c.ports.a c.ports.b c.ports.n, .pin .cs false, .pin .dc (decide (c.op = 0x2)), .flagClr,
            .serTx (c.ports.a.setWidth 8), .cpl r, .serRx r, .pin .dc true, .pin .cs true, .opEnd c.op .ok] }
      ∧ t.out .cs = true ∧ t.out .dc = true ∧ (∀ sig, sig ≠ .cs → sig ≠ .dc → t.out sig = s.out sig)

/-- 41_framers.md R115: when the wait of a host framer gives up, DC and CS return to idle, `RESULT` becomes 1, and the operation ends; the transfer stays
pending and nothing else changes. -/
def Obligations.SerialFramerTimeout : Prop :=
  ∀ (s : State) (rest : List Micro) (n : Nat), Quiet s → s.xdone = false → s.cfg.timeoutPolls = some n → n ≤ s.polls →
    (s.todo = .poll .txcmd :: rest → ∃ t, step s = .next t
      ∧ t = { s with
          busy := false, result := .transportTimeout, pinOut := t.pinOut, todo := [],
          trace := s.trace ++ [.timeout, .pin .dc true, .pin .cs true, .opEnd 0x1 .transportTimeout] }
      ∧ t.out .cs = true ∧ t.out .dc = true ∧ (∀ sig, sig ≠ .cs → sig ≠ .dc → t.out sig = s.out sig))
    ∧ (s.todo = .poll .txdat :: rest → ∃ t, step s = .next t
      ∧ t = { s with
          busy := false, result := .transportTimeout, pinOut := t.pinOut, todo := [],
          trace := s.trace ++ [.timeout, .pin .dc true, .pin .cs true, .opEnd 0x2 .transportTimeout] }
      ∧ t.out .cs = true ∧ t.out .dc = true ∧ (∀ sig, sig ≠ .cs → sig ≠ .dc → t.out sig = s.out sig))

/-- 41_framers.md R117, R116: with CS, DC, WR and D0 to D7 outputs the panel receives exactly one item of a framer call, a command or a data byte, whatever the
latches were (also with WR left low); with one of those lines floating the call ends all the same and the panel's view is undetermined. -/
def Obligations.PanelReceivesExactlyOneByte : Prop :=
  ∀ (s : State) (p : Ports), Idle s → Quiet s → s.cfg.busMode = .parallel →
    (∃ t es, exec (.txcmd p) s = .next t ∧ t.trace = s.trace ++ es
      ∧ panelFrom s.cfg s.pinView es = (if s.busDriven then [.lat false (p.a.setWidth 8)] else [.latAny]))
    ∧ (∃ t es, exec (.txdat p) s = .next t ∧ t.trace = s.trace ++ es
      ∧ panelFrom s.cfg s.pinView es = (if s.busDriven then [.lat true (p.a.setWidth 8)] else [.latAny]))

/-- Frame of `TXCMD` and `TXDAT` in every state, also busy, disturbed or serial: no direction, no latch but CS, DC, WR and the data lines, no register of the
sequencer, no answer register, no index, no byte of either memory. -/
def Obligations.FramersLeaveTheRestAlone : Prop :=
  ∀ (s t : State) (p : Ports), exec (.txcmd p) s = .next t ∨ exec (.txdat p) s = .next t →
    t.pinDir = s.pinDir ∧ t.out .reset = s.out .reset ∧ t.out .rd = s.out .rd ∧ t.out .msel = s.out .msel
      ∧ t.seqState = s.seqState ∧ t.ptr = s.ptr ∧ t.recs = s.recs ∧ t.args = s.args ∧ t.dly = s.dly ∧ t.opc = s.opc
      ∧ t.rxhold = s.rxhold ∧ t.idx = s.idx ∧ t.cmds = s.cmds ∧ t.cfg = s.cfg
      ∧ (∀ a, t.dmemByte a = s.dmemByte a) ∧ (∀ a, t.romByte a = s.romByte a)
      ∧ (s.cfg.busMode = .parallel → t.xdone = s.xdone ∧ t.txbuf = s.txbuf ∧ t.pending = s.pending ∧ t.polls = s.polls)
      ∧ (s.cfg.busMode = .serial → t.data = s.data ∧ t.out .wr = s.out .wr)

/-! ### Pins and delay -/

/-- 42_pins_delay.md R133: `SETLN`, `host_op = 0x5`, sets the one latch `host_a[3:0]` names, recorded also when it was set already, whatever its direction; a reserved identifier (14, 15, or 13
without `HAS_STE`) has no effect beyond `OpStart` and `OpEnd`. -/
def Obligations.SetlnRaisesOneLatch : Prop :=
  ∀ (s : State) (p : Ports), Idle s → Quiet s →
    (∀ sig : Signal, p.a.toNat % 16 = sig.id → lineExists s.cfg sig = true →
      ∃ t, exec (.setln p) s = .next t
        ∧ t = { s with
            result := .ok, pinOut := t.pinOut, trace := s.trace ++ [.opStart 0x5 p.a p.b p.n, .pin sig true, .opEnd 0x5 .ok] }
        ∧ t.out sig = true ∧ ∀ other, other ≠ sig → t.out other = s.out other)
    ∧ (14 ≤ p.a.toNat % 16 ∨ (p.a.toNat % 16 = 13 ∧ s.cfg.hasSte = false) →
      exec (.setln p) s = .next { s with result := .ok, trace := s.trace ++ [.opStart 0x5 p.a p.b p.n, .opEnd 0x5 .ok] })
    ∧ (p.a.toNat % 16 < 14 → decode (.command ⟨0x5, p⟩) = .instr (.setln p) [])

/-- 42_pins_delay.md R134: `CLRLN`, `host_op = 0x6`, clears the one latch `host_a[3:0]` names (the panel sees `HwReset` if that is RESET, was high and is an output), recorded also when it was clear already, whatever its direction; a reserved identifier has no effect beyond
`OpStart` and `OpEnd`. -/
def Obligations.ClrlnLowersOneLatch : Prop :=
  ∀ (s : State) (p : Ports), Idle s → Quiet s →
    (∀ sig : Signal, p.a.toNat % 16 = sig.id → lineExists s.cfg sig = true →
      ∃ t, exec (.clrln p) s = .next t
        ∧ t = { s with
            result := .ok, pinOut := t.pinOut, trace := s.trace ++ [.opStart 0x6 p.a p.b p.n, .pin sig false, .opEnd 0x6 .ok] }
        ∧ t.out sig = false ∧ (∀ other, other ≠ sig → t.out other = s.out other)
        ∧ (sig = .reset → panelFrom s.cfg s.pinView [.opStart 0x6 p.a p.b p.n, .pin sig false, .opEnd 0x6 .ok]
            = if s.out .reset = true ∧ s.dir .reset = true then [.hwReset] else []))
    ∧ (14 ≤ p.a.toNat % 16 ∨ (p.a.toNat % 16 = 13 ∧ s.cfg.hasSte = false) →
      exec (.clrln p) s = .next { s with result := .ok, trace := s.trace ++ [.opStart 0x6 p.a p.b p.n, .opEnd 0x6 .ok] })
    ∧ (p.a.toNat % 16 < 14 → decode (.command ⟨0x6, p⟩) = .instr (.clrln p) [])

/-- 42_pins_delay.md R135: `CFGDIR`, `host_op = 0x7`, writes the one direction bit with `host_b[0]`; a line made an output shows its latch at once, one made an input floats; a reserved identifier has no
effect beyond `OpStart` and `OpEnd`. -/
def Obligations.CfgdirSetsOneDirection : Prop :=
  ∀ (s : State) (p : Ports), Idle s → Quiet s →
    (∀ sig : Signal, p.a.toNat % 16 = sig.id → lineExists s.cfg sig = true →
      ∃ t, exec (.cfgdir p) s = .next t
        ∧ t = { s with
            result := .ok, pinDir := t.pinDir,
            trace := s.trace ++ [.opStart 0x7 p.a p.b p.n, .dir sig (decide (p.b.toNat % 2 = 1)), .opEnd 0x7 .ok] }
        ∧ t.dir sig = decide (p.b.toNat % 2 = 1)
        ∧ t.level sig = (if p.b.toNat % 2 = 1 then some (s.out sig) else none)
        ∧ ∀ other, other ≠ sig → t.dir other = s.dir other)
    ∧ (14 ≤ p.a.toNat % 16 ∨ (p.a.toNat % 16 = 13 ∧ s.cfg.hasSte = false) →
      exec (.cfgdir p) s = .next { s with result := .ok, trace := s.trace ++ [.opStart 0x7 p.a p.b p.n, .opEnd 0x7 .ok] })
    ∧ (p.a.toNat % 16 < 14 → decode (.command ⟨0x7, p⟩) = .instr (.cfgdir p) [])

/-- 30_encoding.md R69, 93_implementation_defined.md U8: without `HAS_STE` an `XFER` has no effect beyond its `OpStart` and `OpEnd`, whatever its operands. -/
def Obligations.XferWithoutEngineHasNoEffect : Prop :=
  ∀ (s : State) (p : Ports), Idle s → Quiet s → s.cfg.hasSte = false →
    exec (.xfer p) s = .next { s with result := .ok, trace := s.trace ++ [.opStart 0x4 p.a p.b p.n, .opEnd 0x4 .ok] }

/-- 42_pins_delay.md R136: `DELAY` is one delay of `host_a` milliseconds, 0 to 65535, and nothing else. -/
def Obligations.DelayRecordsItsMilliseconds : Prop :=
  ∀ (s : State) (p : Ports), Idle s → Quiet s →
    exec (.delay p) s = .next { s with
      result := .ok, trace := s.trace ++ [.opStart 0x3 p.a p.b p.n, .delayMs p.a.toNat, .opEnd 0x3 .ok] }

/-- Frame of the line operations and `DELAY` in every state, also busy or disturbed: only the named latch (SETLN, CLRLN) or direction (CFGDIR), `BUSY`, `RESULT`,
the trace and the model's own `todo` and `events` may change. -/
def Obligations.LineOperationsLeaveTheRestAlone : Prop :=
  ∀ (s t : State) (p : Ports),
    ((exec (.setln p) s = .next t ∨ exec (.clrln p) s = .next t) →
      t = { s with busy := t.busy, result := t.result, pinOut := t.pinOut, trace := t.trace, todo := t.todo, events := t.events }
        ∧ ∀ sig, p.a.toNat % 16 ≠ sig.id → t.out sig = s.out sig)
    ∧ (exec (.cfgdir p) s = .next t →
      t = { s with busy := t.busy, result := t.result, pinDir := t.pinDir, trace := t.trace, todo := t.todo, events := t.events }
        ∧ ∀ sig, p.a.toNat % 16 ≠ sig.id → t.dir sig = s.dir sig)
    ∧ (exec (.delay p) s = .next t →
      t = { s with busy := t.busy, result := t.result, trace := t.trace, todo := t.todo, events := t.events })

/-- 10_state.md R13: a direction bit that is 1 becomes 0 only by a `CFGDIR` with `asOutput = 0` (issued now, or interrupted before its one write) or by
`rst`. -/
def Obligations.OnlyCfgdirClearsADirection : Prop :=
  ∀ (s t : State) (sig : Signal), step s = .next t → s.dir sig = true → t.dir sig = false →
    (∃ rest, s.events = ⟨0, .rst⟩ :: rest)
      ∨ Micro.dir sig false ∈ s.todo
      ∨ ∃ p : Ports, p.a.toNat % 16 = sig.id ∧ p.b.toNat % 2 = 0
          ∧ ((∃ cs, s.cmds = ⟨0x7, p⟩ :: cs) ∨ ∃ rest, s.events = ⟨0, .present ⟨0x7, p⟩⟩ :: rest)

/-! ### The Command Sequencer -/

/-- 40_sequencer.md R80, R82: `INIT` on a table it does not reject drives the panel's electrical reset: every line an output, every control line idle, RESET
deasserted, asserted, deasserted with a hold each, the data latches untouched; it then stands at the table head in `NotStarted`. -/
def Obligations.InitResetsThePanel : Prop :=
  ∀ (s : State) (p : Ports), Idle s → Quiet s → (s.cfg.validate = true → tableWellFormed s.rom s.cfg = true) →
    ∃ t, exec (.init p) s = .next t
      ∧ t = { s with
          busy := true, result := .ok, seqState := .notStarted, ptr := s.cfg.tblBase, pinDir := t.pinDir, pinOut := t.pinOut,
          todo := t.todo, trace := s.trace ++ .opStart 0x0 p.a p.b p.n :: resetEvents s.cfg }
      ∧ (∀ sig, lineExists s.cfg sig = true → t.dir sig = true) ∧ t.data = s.data
      ∧ t.out .reset = true ∧ t.out .cs = true ∧ t.out .dc = true ∧ t.out .wr = true ∧ t.out .rd = true
      ∧ (s.cfg.hasSte = true → t.out .msel = true)
      ∧ t.todo = [.tableHead, .records, .seq .done, .opEnd 0x0]

/-- 40_sequencer.md R81: with `VALIDATE` an `INIT` on a table that is not well formed ends with `RESULT = 2` in `NotStarted`, with no event between its `OpStart`
and its `OpEnd`: no line moves and nothing is read. -/
def Obligations.InitRejectsIllFormedTable : Prop :=
  ∀ (s : State) (p : Ports), Idle s → Quiet s → s.cfg.validate = true → tableWellFormed s.rom s.cfg = false →
    exec (.init p) s = .next { s with
      result := .tableFormat, seqState := .notStarted,
      trace := s.trace ++ [.opStart 0x0 p.a p.b p.n, .opEnd 0x0 .tableFormat] }

/-- 40_sequencer.md R83: `COUNT` loads `RECS`, advances the cursor by one modulo 2^16, and enters `ApplyingRecord`, for every count; at the table head a step does so with the byte that
TROM holds at the cursor. -/
def Obligations.CountLoadsRecs : Prop :=
  ∀ (s : State) (c : Byte) (rest : List Micro), Quiet s →
    (s.todo = .records :: rest →
      exec (.count c) s = .next { s with
        recs := c, ptr := s.ptr + 1, seqState := .applyingRecord, trace := s.trace ++ [.romRd s.ptr c] })
    ∧ (s.todo = .tableHead :: .records :: rest →
      step s = .next { s with
        recs := s.romByte s.ptr, ptr := s.ptr + 1, seqState := .applyingRecord,
        trace := s.trace ++ [.romRd s.ptr (s.romByte s.ptr)], todo := .records :: rest })

/-- 40_sequencer.md R84 on the parallel bus: `REC` reads its head, sends its opcode as a command, reads and sends each argument in the order stored, makes its
delay, and counts the record; the cursor moves over its 3 + argCount bytes, `ARGS` ends at 0. -/
def Obligations.RecordIsApplied : Prop :=
  ∀ (s : State) (n d o : Byte) (args : List Byte) (rest : List Micro), Quiet s → s.cfg.busMode = .parallel →
    args.length = n.toNat → s.todo = .records :: rest →
    ∃ t, exec (.record n d o args) s = .next t
      ∧ t = { s with
          ptr := s.ptr + 3 + BitVec.ofNat 16 args.length, args := 0, dly := d, opc := o, recs := s.recs - 1,
          seqState := .applyingRecord, pinOut := t.pinOut, trace := s.trace ++ recordEvents s.ptr ⟨n, d, o, args⟩ }
      ∧ t.out .cs = true ∧ t.out .dc = true ∧ t.out .wr = true ∧ t.data = (o :: args).getLast (by simp)
      ∧ t.out .reset = s.out .reset ∧ t.out .rd = s.out .rd ∧ t.out .msel = s.out .msel

/-- 40_sequencer.md R84 and 41_framers.md R114 in serial mode: `REC` reads its head, hands its opcode to the wire as a command and waits; nothing of its arguments
is read yet. -/
def Obligations.SerialRecordSendsItsOpcode : Prop :=
  ∀ (s : State) (n d o : Byte) (args : List Byte), Quiet s → s.cfg.busMode = .serial →
    ∃ t, exec (.record n d o args) s = .next t
      ∧ t = { s with
          ptr := s.ptr + 3, args := n, dly := d, opc := o, pinOut := t.pinOut, xdone := false, txbuf := o, pending := true, polls := 0,
          todo := t.todo,
          trace := s.trace ++ [.romRd s.ptr n, .romRd (s.ptr + 1) d, .romRd (s.ptr + 2) o, .pin .cs false, .pin .dc false,
            .flagClr, .serTx o] }
      ∧ t.out .cs = false ∧ t.out .dc = false ∧ (∀ sig, sig ≠ .cs → sig ≠ .dc → t.out sig = s.out sig)
      ∧ t.todo.head? = some (.poll .init)

/-- 40_sequencer.md R84, R91 and 41_framers.md R114 in serial mode, a whole record: with a far end that answers every byte, each after any number of polls and in time, the record at the
cursor is applied: opcode as a command, each argument read and sent as data in the order stored, each answer discarded, then the delay. -/
def Obligations.SerialRecordCompletesWhenAnswered : Prop :=
  ∀ (s : State) (rest : List Micro) (first : Answer) (others : List Answer), s.cfg.busMode = .serial → s.pending = false →
    s.todo = .records :: rest → s.recs ≠ 0 → others.length = (s.romByte s.ptr).toNat → inTime s.cfg (first :: others) →
    s.events = recordAnswers first others →
    ∃ t, Host.Core.run core (waitSteps (first :: others) + 1) s = .next t
      ∧ t = { s with
          ptr := afterRecord s s.ptr, args := 0, dly := (recordAt s s.ptr).delayMs, opc := (recordAt s s.ptr).opcode,
          recs := s.recs - 1, seqState := .applyingRecord, pinOut := t.pinOut, xdone := true,
          txbuf := lastByte 0 [recordAt s s.ptr], rxhold := (others.getLast?.getD first).2, pending := false,
          polls := (others.getLast?.getD first).1, events := [],
          trace := s.trace ++ serialRecordEvents s.ptr (recordAt s s.ptr) first.2 (others.map Prod.snd) }
      ∧ t.out .cs = true ∧ t.out .dc = true ∧ (∀ sig, sig ≠ .cs → sig ≠ .dc → t.out sig = s.out sig)

/-- 40_sequencer.md R80: when `RECS` is 0 the loop ends: `Done`, `OpEnd`, `BUSY` 0. -/
def Obligations.LoopEndsInDone : Prop :=
  ∀ s : State, Quiet s → s.todo = [.records, .seq .done, .opEnd 0x0] → s.recs = 0 →
    step s = .next { s with seqState := .done, busy := false, todo := [], trace := s.trace ++ [.opEnd 0x0 s.result] }

/-- 10_state.md R15, R29: while the delay of a record runs, `SEQ_STATE` is `AwaitingSettle` and a look at STATUS shows it; no line and no other register has changed. -/
def Obligations.AwaitingSettleShowsDuringTheDelay : Prop :=
  ∀ (s : State) (rest : List Micro) (es : List Timed), s.todo = .settle :: .settled :: rest →
    s.events = ⟨1, .hostLook⟩ :: es →
    step s = .next { s with
        seqState := .awaitingSettle, trace := s.trace ++ [.delayMs s.dly.toNat], todo := .settled :: rest,
        events := ⟨0, .hostLook⟩ :: es }

/-- 40_sequencer.md R97, R80, R86, R87: an undisturbed `INIT` on the parallel bus ends after `initSteps` steps (the model's cutting of the run, log 5), for every ROM, with exactly the event list of R97 and
the registers R87 names. -/
def Obligations.InitAppliesTheWholeTable : Prop :=
  ∀ (s : State) (p : Ports) (cs : List HostCmd), Idle s → Quiet s → s.cmds = ⟨0x0, p⟩ :: cs → s.cfg.busMode = .parallel →
    (s.cfg.validate = true → tableWellFormed s.rom s.cfg = true) →
    ∃ t, Host.Core.run core (initSteps s) s = .next t
      ∧ t.trace = s.trace ++ initEvents s p
      ∧ t.seqState = .done ∧ t.ptr = s.cfg.tblBase + BitVec.ofNat 16 (tableLen s.rom s.cfg.tblBase)
      ∧ t.recs = 0 ∧ t.args = (if tableRecords s = [] then s.args else 0) ∧ t.busy = false ∧ t.result = .ok
      ∧ t.dly = ((tableRecords s).getLast?.map fun x => x.2.delayMs).getD s.dly
      ∧ t.opc = ((tableRecords s).getLast?.map fun x => x.2.opcode).getD s.opc
      ∧ (∀ sig, lineExists s.cfg sig = true → t.dir sig = true)
      ∧ t.out .reset = true ∧ t.out .cs = true ∧ t.out .dc = true ∧ t.out .wr = true ∧ t.out .rd = true
      ∧ (s.cfg.hasSte = true → t.out .msel = true)
      ∧ t.data = lastByte s.data ((tableRecords s).map Prod.snd)
      ∧ t.todo = [] ∧ t.cmds = cs
      ∧ (t.dmem, t.xdone, t.txbuf, t.rxhold, t.idx, t.pending, t.polls)
          = (s.dmem, s.xdone, s.txbuf, s.rxhold, s.idx, s.pending, s.polls)

/-- 40_sequencer.md R95: in such an `INIT` there are exactly 3 + `count` delays, the first three of `T_RST_MS`, the others the records' in table order; so the
total is 3 `T_RST_MS` plus the sum of the records' `delayMs`. -/
def Obligations.InitDelaysAddUp : Prop :=
  ∀ (s : State) (p : Ports) (cs : List HostCmd), Idle s → Quiet s → s.cmds = ⟨0x0, p⟩ :: cs → s.cfg.busMode = .parallel →
    (s.cfg.validate = true → tableWellFormed s.rom s.cfg = true) →
    ∃ t es, Host.Core.run core (initSteps s) s = .next t ∧ t.trace = s.trace ++ es
      ∧ (es.filterMap fun e => match e with | .delayMs n => some n | _ => none)
          = List.replicate 3 s.cfg.tRstMs ++ (tableRecords s).map (fun x => x.2.delayMs.toNat)
      ∧ (tableRecords s).length = (s.romByte s.cfg.tblBase).toNat
      ∧ totalDelayMs es = 3 * s.cfg.tRstMs + ((tableRecords s).map fun x => x.2.delayMs.toNat).sum

/-- 40_sequencer.md R91: what the panel sees of such an `INIT`, waits apart: one hardware reset, then for each record in table order its opcode as a command and each
argument as data, in the order stored; nothing undetermined. -/
def Obligations.PanelSeesTheTableInOrder : Prop :=
  ∀ (s : State) (p : Ports) (cs : List HostCmd), Idle s → Quiet s → s.cmds = ⟨0x0, p⟩ :: cs → s.cfg.busMode = .parallel →
    (s.cfg.validate = true → tableWellFormed s.rom s.cfg = true) →
    ∃ t es, Host.Core.run core (initSteps s) s = .next t ∧ t.trace = s.trace ++ es
      ∧ latches (panelFrom s.cfg s.pinView es) = .hwReset :: (tableRecords s).flatMap (fun x => recordLatches x.2)

/-- 40_sequencer.md R87: on the parallel bus a second `INIT` in succession leaves every register and every latch and direction as the first left them. -/
def Obligations.InitIsIdempotent : Prop :=
  ∀ (s : State) (p q : Ports) (cs : List HostCmd), Idle s → Quiet s → s.cmds = ⟨0x0, p⟩ :: ⟨0x0, q⟩ :: cs →
    s.cfg.busMode = .parallel → (s.cfg.validate = true → tableWellFormed s.rom s.cfg = true) →
    ∃ t u, Host.Core.run core (initSteps s) s = .next t ∧ Host.Core.run core (initSteps s) t = .next u
      ∧ u = { t with trace := u.trace, cmds := cs }

/-- 40_sequencer.md R88: a timeout inside `INIT` returns DC and CS to idle and the state to `NotStarted`, sets `RESULT` to 1 and ends the operation; the cursor, the
counters and the pending transfer keep their values. -/
def Obligations.InitTimeout : Prop :=
  ∀ (s : State) (rest : List Micro) (n : Nat), Quiet s → s.xdone = false → s.cfg.timeoutPolls = some n → n ≤ s.polls →
    s.todo = .poll .init :: rest →
    ∃ t, step s = .next t
      ∧ t = { s with
          busy := false, result := .transportTimeout, seqState := .notStarted, pinOut := t.pinOut, todo := [],
          trace := s.trace ++ [.timeout, .pin .dc true, .pin .cs true, .opEnd 0x0 .transportTimeout] }
      ∧ t.out .cs = true ∧ t.out .dc = true ∧ (∀ sig, sig ≠ .cs → sig ≠ .dc → t.out sig = s.out sig)

/-- Frame of `INIT`, `COUNT` and `REC` in every state, also disturbed or serial: no byte of either memory, no answer register, no index; `COUNT` and `REC` change no
direction and neither RESET, RD nor MSEL; in parallel mode the serial registers are untouched. -/
def Obligations.SequencerLeavesTheRestAlone : Prop :=
  ∀ (s t : State) (i : Instr), s.todo = [] ∨ (∃ rest, s.todo = .records :: rest) →
    (∃ p, i = .init p) ∨ (∃ c, i = .count c) ∨ (∃ n d o args, i = .record n d o args) → exec i s = .next t →
    (∀ a, t.dmemByte a = s.dmemByte a) ∧ (∀ a, t.romByte a = s.romByte a) ∧ t.cfg = s.cfg ∧ t.cmds = s.cmds
      ∧ t.rxhold = s.rxhold ∧ t.idx = s.idx
      ∧ (s.cfg.busMode = .parallel → t.xdone = s.xdone ∧ t.txbuf = s.txbuf ∧ t.pending = s.pending ∧ t.polls = s.polls)
      ∧ ((∀ p, i ≠ .init p) →
          t.pinDir = s.pinDir ∧ t.out .reset = s.out .reset ∧ t.out .rd = s.out .rd ∧ t.out .msel = s.out .msel
            ∧ t.busy = s.busy ∧ t.result = s.result)

/-! ### The Byte-Oriented Transport -/

/-- 43_serial_transport.md R150: `XFER` of at least one byte asserts mode-select, settles, reads byte 0, clears the flag, hands the byte to the wire and waits; no other
line and no byte of memory changes. -/
def Obligations.XferSendsItsFirstByte : Prop :=
  ∀ (s : State) (p : Ports), Idle s → Quiet s → s.cfg.hasSte = true → p.n ≠ 0 →
    ∃ t, exec (.xfer p) s = .next t
      ∧ t = { s with
          busy := true, result := .ok, pinOut := t.pinOut, idx := 0, xdone := false, txbuf := s.dmemByte p.a, pending := true,
          polls := 0, todo := t.todo,
          trace := s.trace ++ [.opStart 0x4 p.a p.b p.n, .pin .msel false, .delayUs s.cfg.tMselUs, .memRd p.a (s.dmemByte p.a),
            .flagClr, .serTx (s.dmemByte p.a)] }
      ∧ t.out .msel = false ∧ (∀ sig, sig ≠ .msel → t.out sig = s.out sig) ∧ t.todo.head? = some (.poll .xfer)

/-- 43_serial_transport.md R156: `XFER` of length 0 makes the mode-select pulse with its two settle delays and nothing else. -/
def Obligations.XferOfNoBytes : Prop :=
  ∀ (s : State) (p : Ports), Idle s → Quiet s → s.cfg.hasSte = true → p.n = 0 →
    ∃ t, exec (.xfer p) s = .next t
      ∧ t = { s with
          result := .ok, pinOut := t.pinOut, idx := 0,
          trace := s.trace ++ [.opStart 0x4 p.a p.b p.n, .pin .msel false, .delayUs s.cfg.tMselUs, .pin .msel true,
            .delayUs s.cfg.tMselUs, .opEnd 0x4 .ok] }
      ∧ t.out .msel = true ∧ ∀ sig, sig ≠ .msel → t.out sig = s.out sig

/-- 43_serial_transport.md R158: an `XFER` that starts with `PENDING = 0`, whose buffers do not meet, with a far end that answers every byte, each after any number of polls and in time,
ends with `RESULT = 0`: the event list of R158, and afterwards byte i of the receive buffer is the answer to byte i, every other byte of `DMEM` as before. -/
def Obligations.XferExchangesTheBlockInOrder : Prop :=
  ∀ (s : State) (p : Ports) (cs : List HostCmd) (answers : List Answer), Idle s → s.cmds = ⟨0x4, p⟩ :: cs →
    s.cfg.hasSte = true → s.pending = false → Memory.wf s.dmem = true →
    answers.length = p.n.toNat → inTime s.cfg answers → s.events = xferAnswers answers →
    (∀ i j, i < p.n.toNat → j < p.n.toNat → p.a + BitVec.ofNat 16 i ≠ p.b + BitVec.ofNat 16 j) →
    ∃ t, Host.Core.run core (waitSteps answers + 1) s = .next t
      ∧ t.trace = s.trace ++ [.opStart 0x4 p.a p.b p.n, .pin .msel false, .delayUs s.cfg.tMselUs]
          ++ xferEvents p.a p.b
              (((List.range p.n.toNat).map fun i => s.dmemByte (p.a + BitVec.ofNat 16 i)).zip (answers.map Prod.snd))
          ++ [.pin .msel true, .delayUs s.cfg.tMselUs, .opEnd 0x4 .ok]
      ∧ (∀ i x, answers[i]? = some x → t.dmemByte (p.b + BitVec.ofNat 16 i) = x.2)
      ∧ (∀ a, (∀ i, i < p.n.toNat → a ≠ p.b + BitVec.ofNat 16 i) → t.dmemByte a = s.dmemByte a)
      ∧ t.busy = false ∧ t.result = .ok ∧ t.idx = p.n ∧ t.pending = false ∧ t.out .msel = true
      ∧ (∀ sig, sig ≠ .msel → t.out sig = s.out sig) ∧ t.pinDir = s.pinDir ∧ t.seqState = s.seqState ∧ t.cmds = cs

/-- 43_serial_transport.md R150, one byte in any circumstances (overlap, wrap, a transfer left pending): when the wait of `XFER` sees the flag, the holder's byte is
stored at the receive address and no other byte of `DMEM` changes; then the block ends, or the next byte, read after that store, is sent. -/
def Obligations.XferStoresTheAnswer : Prop :=
  ∀ (s : State) (tx rx len : Word), Quiet s → s.cfg.hasSte = true → s.xdone = true →
    s.todo = .poll .xfer :: .storeRx (rx + s.idx) :: .xferLoop tx rx len
      :: [.pin .msel true, .delayUs s.cfg.tMselUs, .opEnd 0x4] →
    Memory.wf s.dmem = true →
    ∃ t, step s = .next t ∧ t.dmemByte (rx + s.idx) = s.rxhold
      ∧ (∀ a, a ≠ rx + s.idx → t.dmemByte a = s.dmemByte a) ∧ t.idx = s.idx + 1
      ∧ (s.idx + 1 = len → t.busy = false ∧ t.todo = [] ∧ t.out .msel = true
          ∧ t.trace = s.trace ++ [.serRx s.rxhold, .memWr (rx + s.idx) s.rxhold, .pin .msel true, .delayUs s.cfg.tMselUs,
              .opEnd 0x4 s.result])
      ∧ (s.idx + 1 ≠ len → t.busy = s.busy ∧ t.pending = true ∧ t.xdone = false
          ∧ t.txbuf = t.dmemByte (tx + t.idx) ∧ t.todo.head? = some (.poll .xfer) ∧ t.pinOut = s.pinOut
          ∧ t.trace = s.trace ++ [.serRx s.rxhold, .memWr (rx + s.idx) s.rxhold, .memRd (tx + t.idx) t.txbuf, .flagClr,
              .serTx t.txbuf])

/-- 43_serial_transport.md R157: a timeout inside `XFER` deasserts mode-select, settles, sets `RESULT` to 1 and ends the operation; the index, the bytes already
stored and the pending transfer keep their values. -/
def Obligations.XferTimeout : Prop :=
  ∀ (s : State) (rest : List Micro) (n : Nat), Quiet s → s.cfg.hasSte = true → s.xdone = false →
    s.cfg.timeoutPolls = some n → n ≤ s.polls → s.todo = .poll .xfer :: rest →
    ∃ t, step s = .next t
      ∧ t = { s with
          busy := false, result := .transportTimeout, pinOut := t.pinOut, todo := [],
          trace := s.trace ++ [.timeout, .pin .msel true, .delayUs s.cfg.tMselUs, .opEnd 0x4 .transportTimeout] }
      ∧ t.out .msel = true ∧ ∀ sig, sig ≠ .msel → t.out sig = s.out sig

/-- 43_serial_transport.md R152: a poll that finds the flag 0 below the limit increments `POLLS` and nothing else happens. -/
def Obligations.UnsuccessfulPollCounts : Prop :=
  ∀ (s : State) (who : Waiter) (rest : List Micro), Quiet s → s.todo = .poll who :: rest → s.xdone = false →
    (∀ n, s.cfg.timeoutPolls = some n → s.polls < n) → step s = .next { s with polls := s.polls + 1 }

/-- 43_serial_transport.md R160, 60_exceptions.md R183: with `TIMEOUT_POLLS = none` and a completion that never comes the wait never ends: after any number of steps every
register is as it was but the count of polls (which with `none` has no effect, 10_state.md R28; log 8). -/
def Obligations.MissingCompletionHangs : Prop :=
  ∀ (s : State) (who : Waiter) (rest : List Micro) (k : Nat), Quiet s → s.todo = .poll who :: rest → s.xdone = false →
    s.cfg.timeoutPolls = none → Host.Core.run core k s = .next { s with polls := s.polls + k }

/-- From 43_serial_transport.md section 4: the step of `CPL`, enabled exactly when `PENDING = 1` (that its moment is an entry of `events`, used up also where the step is not enabled,
is the model's choice, log 4); one atomic step that writes `RXHOLD`, sets `XDONE`, clears `PENDING`; also while
no operation runs (R159). -/
def Obligations.CompletionFillsTheCell : Prop :=
  ∀ (s : State) (r : Byte) (rest : List Timed), s.events = ⟨0, .cpl r⟩ :: rest →
    (s.pending = true → step s = .next { s with
      rxhold := r, xdone := true, pending := false, trace := s.trace ++ [.cpl r], events := rest })
    ∧ (s.pending = false → step s = .next { s with events := rest })

/-- 10_state.md R23, R25, R27, 43_serial_transport.md R154: CORE only clears `XDONE` and CPL only sets it; `RXHOLD` is written by CPL alone; `PENDING` is cleared by CPL and
by reset alone. -/
def Obligations.OnlyCompletionFillsTheCell : Prop :=
  ∀ s t : State, step s = .next t →
    (s.xdone = false → t.xdone = true → s.pending = true ∧ ∃ r rest, s.events = ⟨0, .cpl r⟩ :: rest)
      ∧ (t.rxhold ≠ s.rxhold → ∃ rest, s.events = ⟨0, .cpl t.rxhold⟩ :: rest ∨ s.events = ⟨0, .rst⟩ :: rest)
      ∧ (s.pending = true → t.pending = false →
          ∃ rest, (∃ r, s.events = ⟨0, .cpl r⟩ :: rest) ∨ s.events = ⟨0, .rst⟩ :: rest)

/-- Frame of `XFER` in every state, also busy or disturbed: no latch but MSEL, no direction, no register of the sequencer, no answer register, and, up to its first wait, no
byte of either memory. -/
def Obligations.XferLeavesTheRestAlone : Prop :=
  ∀ (s t : State) (p : Ports), exec (.xfer p) s = .next t →
    t.pinDir = s.pinDir ∧ (∀ sig, sig ≠ .msel → t.out sig = s.out sig) ∧ t.seqState = s.seqState ∧ t.ptr = s.ptr ∧ t.recs = s.recs
      ∧ t.args = s.args ∧ t.dly = s.dly ∧ t.opc = s.opc ∧ t.rxhold = s.rxhold ∧ t.cmds = s.cmds ∧ t.cfg = s.cfg
      ∧ (∀ a, t.dmemByte a = s.dmemByte a) ∧ (∀ a, t.romByte a = s.romByte a)

/-! ### The whole machine -/

/-- 20_memory.md R41, R43: every step of every state keeps both memories in canonical form (log 2, log 3). -/
def Obligations.MemoriesStayCanonical : Prop :=
  ∀ s t : State, s.memoriesOk = true → step s = .next t → t.memoriesOk = true

/-- 10_state.md R21, 40_sequencer.md R85, R94: every step of every state keeps the control invariant: BUSY is 1 exactly while an operation has something left to do, which
ends once; `SEQ_STATE` moves by the transitions of R85 alone and rests in `NotStarted` or `Done` whenever BUSY = 0; no decrement of `RECS` or `ARGS` meets a zero. -/
def Obligations.ControlStaysLegal : Prop :=
  ∀ s t : State, s.controlOk = true → step s = .next t →
    t.controlOk = true ∧ (t.busy = false → t.seqState = .notStarted ∨ t.seqState = .done)

/-- 00_scope.md D33, 10_state.md R12, 60_exceptions.md R180: every step keeps the build invariant: without `HAS_STE` bit 13 of the pin registers reads 0 and the serial
registers stay as reset left them (log 12); `RESULT` shows a condition only in a configuration in which it exists. -/
def Obligations.BuildStaysConsistent : Prop :=
  ∀ s t : State, s.buildOk = true → step s = .next t → t.buildOk = true

/-- No step changes TROM (20_memory.md R41, R54; 70_reset_and_hazards.md R200) or a parameter (00_scope.md R5, 40_sequencer.md R81, 70_reset_and_hazards.md R200). That the parameters are a
field of State is the model's choice (log 1). -/
def Obligations.RomAndParametersNeverChange : Prop :=
  ∀ s t : State, step s = .next t → t.rom = s.rom ∧ t.cfg = s.cfg

/-- 10_state.md R30: a step only appends to the trace, but for `rst`, which empties it. -/
def Obligations.TraceOnlyGrows : Prop :=
  ∀ s t : State, step s = .next t → (∃ rest, s.events = ⟨0, .rst⟩ :: rest ∧ t.trace = []) ∨ ∃ es, t.trace = s.trace ++ es

/-- 20_memory.md R40, R43: a byte of `DMEM` changes only by the host's store to its address while nothing runs, or by the store of a running `XFER` to its address
(log 19). -/
def Obligations.DmemChangesOnlyByStores : Prop :=
  ∀ (s t : State) (a : Word), step s = .next t → t.dmemByte a ≠ s.dmemByte a →
    (s.busy = false ∧ ∃ v rest, s.events = ⟨0, .hostStore a v⟩ :: rest) ∨ Micro.storeRx a ∈ s.todo

/-- 20_memory.md R44: after `MemWrite(a, 1, v)` a read gives `v` at `a` and at every other address what it gave before. -/
def Obligations.MemoryReadsBack : Prop :=
  ∀ (s : State) (a b : Word) (v : Byte), Memory.wf s.dmem = true →
    (memWrite a v s).dmemByte b = if b = a then v else s.dmemByte b

/-- 10_state.md R29: `STATUS` as a number: bit 0 BUSY, bits 2:1 the state, bits 4:3 the result, bit 5 XDONE. -/
def Obligations.StatusShowsItsFields : Prop :=
  ∀ s : State,
    s.status.toNat = (if s.busy then 1 else 0)
      + 2 * (match s.seqState with | .notStarted => 0 | .applyingRecord => 1 | .awaitingSettle => 2 | .done => 3)
      + 8 * (match s.result with | .ok => 0 | .transportTimeout => 1 | .tableFormat => 2)
      + 32 * (if s.xdone then 1 else 0)
end

