-- ==== Sys2Proof/Laws/PerInstr.lean ====
section
/-! SUPPORT. The family of statements made once per instruction (LAWS.json): where an instruction's code stands and which operation code it carries. -/

namespace Sys2Proof.Laws.HostCode

/-- 30_encoding.md R67: an instruction is encoded as a host command exactly when it has a host operation code, which is then the command's and below 8; it is at most 258 bytes of the
table otherwise (R60, R64). -/
def Statement (i : Instr) : Prop :=
  i.WellFormed →
    match encode i with
    | .head bytes => i.hostOp = none ∧ bytes.length = 1
    | .boundary bytes => i.hostOp = none ∧ 3 ≤ bytes.length ∧ bytes.length ≤ 258
    | .command c => i.hostOp = some c.op ∧ c.op.toNat < 8

theorem count (c : Byte) : Statement (.count c) := fun _ => ⟨rfl, rfl⟩

theorem record (n d o : Byte) (args : List Byte) : Statement (.record n d o args) := fun h => by
  have hl : args.length = n.toNat := by simpa [Instr.WellFormed, Instr.wellFormed] using h
  have hn : n.toNat < 256 := n.isLt
  exact ⟨rfl, by simp, by simp [hl]; omega⟩

theorem init (p : Ports) : Statement (.init p) := fun _ => ⟨rfl, show (0x0#4).toNat < 8 by decide⟩

theorem txcmd (p : Ports) : Statement (.txcmd p) := fun _ => ⟨rfl, show (0x1#4).toNat < 8 by decide⟩

theorem txdat (p : Ports) : Statement (.txdat p) := fun _ => ⟨rfl, show (0x2#4).toNat < 8 by decide⟩

theorem delay (p : Ports) : Statement (.delay p) := fun _ => ⟨rfl, show (0x3#4).toNat < 8 by decide⟩

theorem xfer (p : Ports) : Statement (.xfer p) := fun _ => ⟨rfl, show (0x4#4).toNat < 8 by decide⟩

theorem setln (p : Ports) : Statement (.setln p) := fun _ => ⟨rfl, show (0x5#4).toNat < 8 by decide⟩

theorem clrln (p : Ports) : Statement (.clrln p) := fun _ => ⟨rfl, show (0x6#4).toNat < 8 by decide⟩

theorem cfgdir (p : Ports) : Statement (.cfgdir p) := fun _ => ⟨rfl, show (0x7#4).toNat < 8 by decide⟩

end Sys2Proof.Laws.HostCode
end

