-- ==== Sys2Proof/Laws/Pins.lean ====
section
/-! SUPPORT. The laws of the pin registers: what a bit write and a data write leave in every bit (10_state.md R12, R13). -/

namespace Sys2Proof.Machine

theorem Signal.id_lt (sig : Signal) : sig.id < 14 := by cases sig <;> decide

theorem Signal.id_inj {a b : Signal} : a.id = b.id ↔ a = b := by
  constructor
  · cases a <;> cases b <;> simp [Signal.id]
  · rintro rfl; rfl

/-- A bit write sets its bit and leaves the others. -/
theorem getLsbD_setBit (x : BitVec 14) {i j : Nat} (hi : i < 14) (v : Bool) :
    (setBit x i v).getLsbD j = if j = i then v else x.getLsbD j := by
  unfold setBit
  by_cases hj : j < 14
  · cases v <;> by_cases h : j = i <;> simp [h, hi, hj] <;> omega
  · have : x.getLsbD j = false := BitVec.getLsbD_of_ge x j (by omega)
    have h : j ≠ i := by omega
    cases v <;> simp [h, this]; intros; omega

/-- Bits of the mask that keeps everything but `DATA`. -/
theorem getLsbD_keepMask (j : Nat) : (0x201F#14).getLsbD j = (decide (j < 5) || decide (j = 13)) := by
  by_cases hj : j < 14
  · revert j; decide
  · rw [BitVec.getLsbD_of_ge _ _ (by omega)]
    simp only [Bool.false_eq, Bool.or_eq_false_iff, decide_eq_false_iff_not]; omega

/-- A data write puts bit i of the byte on line Di and leaves the control latches. -/
theorem getLsbD_setData (x : BitVec 14) (b : Byte) (j : Nat) :
    (setData x b).getLsbD j = if 5 ≤ j ∧ j ≤ 12 then b.getLsbD (j - 5) else x.getLsbD j := by
  unfold setData
  simp only [BitVec.getLsbD_or, BitVec.getLsbD_and, getLsbD_keepMask, BitVec.getLsbD_shiftLeft, BitVec.getLsbD_setWidth]
  by_cases hj : j < 14
  · by_cases h : 5 ≤ j ∧ j ≤ 12
    · have h1 : ¬ j < 5 := by omega
      have h2 : j ≠ 13 := by omega
      have h3 : j - 5 < 14 := by omega
      simp [h, h1, h2, h3, hj]
    · rw [if_neg h]
      by_cases h5 : j < 5
      · simp [h5]
      · have : j = 13 := by omega
        subst this; simp
  · have hx : x.getLsbD j = false := BitVec.getLsbD_of_ge _ _ (by omega)
    have : ¬ (5 ≤ j ∧ j ≤ 12) := by omega
    simp [hx, hj, this]

/-- The field `DATA` after a data write. -/
@[simp] theorem extract_setData (x : BitVec 14) (b : Byte) : (setData x b).extractLsb' 5 8 = b := by
  ext i hi
  simp only [BitVec.getElem_extractLsb', getLsbD_setData]
  have : 5 ≤ 5 + i ∧ 5 + i ≤ 12 := by omega
  simp [this, BitVec.getLsbD_eq_getElem, hi]

/-- The field `DATA` is not disturbed by a write of a control line. -/
theorem extract_setBit (x : BitVec 14) {i : Nat} (h : i < 5 ∨ i = 13) (v : Bool) :
    (setBit x i v).extractLsb' 5 8 = x.extractLsb' 5 8 := by
  ext k hk
  simp only [BitVec.getElem_extractLsb']
  rw [getLsbD_setBit _ (by omega), if_neg (by omega)]

/-- Two pin registers with the same latch on every line are equal. -/
theorem pinReg_ext {x y : BitVec 14} (h : ∀ sig : Signal, x.getLsbD sig.id = y.getLsbD sig.id) : x = y := by
  apply BitVec.eq_of_getLsbD_eq
  intro i hi
  have := h .reset; have := h .cs; have := h .dc; have := h .wr; have := h .rd; have := h .d0; have := h .d1
  have := h .d2; have := h .d3; have := h .d4; have := h .d5; have := h .d6; have := h .d7; have := h .msel
  simp only [Signal.id] at *
  interval_cases i <;> assumption

/-! The same, line by line. -/

/-- A bit write of one line, seen on any line. -/
@[simp] theorem line_setBit (x : BitVec 14) (a b : Signal) (v : Bool) :
    (setBit x a.id v).getLsbD b.id = if b = a then v else x.getLsbD b.id := by
  rw [getLsbD_setBit x a.id_lt]; simp only [Signal.id_inj]

@[simp] theorem line_setData_reset (x : BitVec 14) (b : Byte) :
    (setData x b).getLsbD Signal.reset.id = x.getLsbD Signal.reset.id := by rw [getLsbD_setData, if_neg (by decide)]
@[simp] theorem line_setData_cs (x : BitVec 14) (b : Byte) :
    (setData x b).getLsbD Signal.cs.id = x.getLsbD Signal.cs.id := by rw [getLsbD_setData, if_neg (by decide)]
@[simp] theorem line_setData_dc (x : BitVec 14) (b : Byte) :
    (setData x b).getLsbD Signal.dc.id = x.getLsbD Signal.dc.id := by rw [getLsbD_setData, if_neg (by decide)]
@[simp] theorem line_setData_wr (x : BitVec 14) (b : Byte) :
    (setData x b).getLsbD Signal.wr.id = x.getLsbD Signal.wr.id := by rw [getLsbD_setData, if_neg (by decide)]
@[simp] theorem line_setData_rd (x : BitVec 14) (b : Byte) :
    (setData x b).getLsbD Signal.rd.id = x.getLsbD Signal.rd.id := by rw [getLsbD_setData, if_neg (by decide)]
@[simp] theorem line_setData_msel (x : BitVec 14) (b : Byte) :
    (setData x b).getLsbD Signal.msel.id = x.getLsbD Signal.msel.id := by rw [getLsbD_setData, if_neg (by decide)]

@[simp] theorem data_setBit_reset (x : BitVec 14) (v : Bool) :
    (setBit x Signal.reset.id v).extractLsb' 5 8 = x.extractLsb' 5 8 := extract_setBit x (by decide) v
@[simp] theorem data_setBit_cs (x : BitVec 14) (v : Bool) :
    (setBit x Signal.cs.id v).extractLsb' 5 8 = x.extractLsb' 5 8 := extract_setBit x (by decide) v
@[simp] theorem data_setBit_dc (x : BitVec 14) (v : Bool) :
    (setBit x Signal.dc.id v).extractLsb' 5 8 = x.extractLsb' 5 8 := extract_setBit x (by decide) v
@[simp] theorem data_setBit_wr (x : BitVec 14) (v : Bool) :
    (setBit x Signal.wr.id v).extractLsb' 5 8 = x.extractLsb' 5 8 := extract_setBit x (by decide) v
@[simp] theorem data_setBit_rd (x : BitVec 14) (v : Bool) :
    (setBit x Signal.rd.id v).extractLsb' 5 8 = x.extractLsb' 5 8 := extract_setBit x (by decide) v
@[simp] theorem data_setBit_msel (x : BitVec 14) (v : Bool) :
    (setBit x Signal.msel.id v).extractLsb' 5 8 = x.extractLsb' 5 8 := extract_setBit x (by decide) v

/-- The identifier of a line with a number below 14 is that line's. -/
theorem Signal.ofId_id (sig : Signal) : Signal.ofId (BitVec.ofNat 4 sig.id) = some sig := by cases sig <;> rfl

end Sys2Proof.Machine
end

