-- ==== Sys2Proof/Laws/State.lean ====
section
/-! SUPPORT. One lemma per field per update: what each primitive leaves of each field of the state. -/

namespace Sys2Proof.Machine

variable (s : State)


/-! `emit` -/

@[simp] theorem emit_cfg (e : Event) : (emit e s).cfg = s.cfg := rfl
@[simp] theorem emit_rom (e : Event) : (emit e s).rom = s.rom := rfl
@[simp] theorem emit_dmem (e : Event) : (emit e s).dmem = s.dmem := rfl
@[simp] theorem emit_pinOut (e : Event) : (emit e s).pinOut = s.pinOut := rfl
@[simp] theorem emit_pinDir (e : Event) : (emit e s).pinDir = s.pinDir := rfl
@[simp] theorem emit_seqState (e : Event) : (emit e s).seqState = s.seqState := rfl
@[simp] theorem emit_ptr (e : Event) : (emit e s).ptr = s.ptr := rfl
@[simp] theorem emit_recs (e : Event) : (emit e s).recs = s.recs := rfl
@[simp] theorem emit_args (e : Event) : (emit e s).args = s.args := rfl
@[simp] theorem emit_dly (e : Event) : (emit e s).dly = s.dly := rfl
@[simp] theorem emit_opc (e : Event) : (emit e s).opc = s.opc := rfl
@[simp] theorem emit_busy (e : Event) : (emit e s).busy = s.busy := rfl
@[simp] theorem emit_result (e : Event) : (emit e s).result = s.result := rfl
@[simp] theorem emit_xdone (e : Event) : (emit e s).xdone = s.xdone := rfl
@[simp] theorem emit_txbuf (e : Event) : (emit e s).txbuf = s.txbuf := rfl
@[simp] theorem emit_rxhold (e : Event) : (emit e s).rxhold = s.rxhold := rfl
@[simp] theorem emit_idx (e : Event) : (emit e s).idx = s.idx := rfl
@[simp] theorem emit_pending (e : Event) : (emit e s).pending = s.pending := rfl
@[simp] theorem emit_polls (e : Event) : (emit e s).polls = s.polls := rfl
@[simp] theorem emit_trace (e : Event) : (emit e s).trace = s.trace ++ [e] := rfl
@[simp] theorem emit_todo (e : Event) : (emit e s).todo = s.todo := rfl
@[simp] theorem emit_cmds (e : Event) : (emit e s).cmds = s.cmds := rfl
@[simp] theorem emit_events (e : Event) : (emit e s).events = s.events := rfl

/-! `tick` -/

@[simp] theorem tick_cfg : (tick s).cfg = s.cfg := rfl
@[simp] theorem tick_rom : (tick s).rom = s.rom := rfl
@[simp] theorem tick_dmem : (tick s).dmem = s.dmem := rfl
@[simp] theorem tick_pinOut : (tick s).pinOut = s.pinOut := rfl
@[simp] theorem tick_pinDir : (tick s).pinDir = s.pinDir := rfl
@[simp] theorem tick_seqState : (tick s).seqState = s.seqState := rfl
@[simp] theorem tick_ptr : (tick s).ptr = s.ptr := rfl
@[simp] theorem tick_recs : (tick s).recs = s.recs := rfl
@[simp] theorem tick_args : (tick s).args = s.args := rfl
@[simp] theorem tick_dly : (tick s).dly = s.dly := rfl
@[simp] theorem tick_opc : (tick s).opc = s.opc := rfl
@[simp] theorem tick_busy : (tick s).busy = s.busy := rfl
@[simp] theorem tick_result : (tick s).result = s.result := rfl
@[simp] theorem tick_xdone : (tick s).xdone = s.xdone := rfl
@[simp] theorem tick_txbuf : (tick s).txbuf = s.txbuf := rfl
@[simp] theorem tick_rxhold : (tick s).rxhold = s.rxhold := rfl
@[simp] theorem tick_idx : (tick s).idx = s.idx := rfl
@[simp] theorem tick_pending : (tick s).pending = s.pending := rfl
@[simp] theorem tick_polls : (tick s).polls = s.polls := rfl
@[simp] theorem tick_trace : (tick s).trace = s.trace := rfl
@[simp] theorem tick_todo : (tick s).todo = s.todo := rfl
@[simp] theorem tick_cmds : (tick s).cmds = s.cmds := rfl
@[simp] theorem tick_events : (tick s).events = tickEvents s.events := rfl

/-! `pinWrite` -/

@[simp] theorem pinWrite_cfg (sig : Signal) (v : Level) : (pinWrite sig v s).cfg = s.cfg := by unfold pinWrite; split <;> rfl
@[simp] theorem pinWrite_rom (sig : Signal) (v : Level) : (pinWrite sig v s).rom = s.rom := by unfold pinWrite; split <;> rfl
@[simp] theorem pinWrite_dmem (sig : Signal) (v : Level) : (pinWrite sig v s).dmem = s.dmem := by unfold pinWrite; split <;> rfl
@[simp] theorem pinWrite_pinDir (sig : Signal) (v : Level) : (pinWrite sig v s).pinDir = s.pinDir := by unfold pinWrite; split <;> rfl
@[simp] theorem pinWrite_seqState (sig : Signal) (v : Level) : (pinWrite sig v s).seqState = s.seqState := by unfold pinWrite; split <;> rfl
@[simp] theorem pinWrite_ptr (sig : Signal) (v : Level) : (pinWrite sig v s).ptr = s.ptr := by unfold pinWrite; split <;> rfl
@[simp] theorem pinWrite_recs (sig : Signal) (v : Level) : (pinWrite sig v s).recs = s.recs := by unfold pinWrite; split <;> rfl
@[simp] theorem pinWrite_args (sig : Signal) (v : Level) : (pinWrite sig v s).args = s.args := by unfold pinWrite; split <;> rfl
@[simp] theorem pinWrite_dly (sig : Signal) (v : Level) : (pinWrite sig v s).dly = s.dly := by unfold pinWrite; split <;> rfl
@[simp] theorem pinWrite_opc (sig : Signal) (v : Level) : (pinWrite sig v s).opc = s.opc := by unfold pinWrite; split <;> rfl
@[simp] theorem pinWrite_busy (sig : Signal) (v : Level) : (pinWrite sig v s).busy = s.busy := by unfold pinWrite; split <;> rfl
@[simp] theorem pinWrite_result (sig : Signal) (v : Level) : (pinWrite sig v s).result = s.result := by unfold pinWrite; split <;> rfl
@[simp] theorem pinWrite_xdone (sig : Signal) (v : Level) : (pinWrite sig v s).xdone = s.xdone := by unfold pinWrite; split <;> rfl
@[simp] theorem pinWrite_txbuf (sig : Signal) (v : Level) : (pinWrite sig v s).txbuf = s.txbuf := by unfold pinWrite; split <;> rfl
@[simp] theorem pinWrite_rxhold (sig : Signal) (v : Level) : (pinWrite sig v s).rxhold = s.rxhold := by unfold pinWrite; split <;> rfl
@[simp] theorem pinWrite_idx (sig : Signal) (v : Level) : (pinWrite sig v s).idx = s.idx := by unfold pinWrite; split <;> rfl
@[simp] theorem pinWrite_pending (sig : Signal) (v : Level) : (pinWrite sig v s).pending = s.pending := by unfold pinWrite; split <;> rfl
@[simp] theorem pinWrite_polls (sig : Signal) (v : Level) : (pinWrite sig v s).polls = s.polls := by unfold pinWrite; split <;> rfl
@[simp] theorem pinWrite_todo (sig : Signal) (v : Level) : (pinWrite sig v s).todo = s.todo := by unfold pinWrite; split <;> rfl
@[simp] theorem pinWrite_cmds (sig : Signal) (v : Level) : (pinWrite sig v s).cmds = s.cmds := by unfold pinWrite; split <;> rfl
@[simp] theorem pinWrite_events (sig : Signal) (v : Level) : (pinWrite sig v s).events = s.events := by unfold pinWrite; split <;> rfl

/-! `dirWrite` -/

@[simp] theorem dirWrite_cfg (sig : Signal) (d : Bool) : (dirWrite sig d s).cfg = s.cfg := by unfold dirWrite; split <;> rfl
@[simp] theorem dirWrite_rom (sig : Signal) (d : Bool) : (dirWrite sig d s).rom = s.rom := by unfold dirWrite; split <;> rfl
@[simp] theorem dirWrite_dmem (sig : Signal) (d : Bool) : (dirWrite sig d s).dmem = s.dmem := by unfold dirWrite; split <;> rfl
@[simp] theorem dirWrite_pinOut (sig : Signal) (d : Bool) : (dirWrite sig d s).pinOut = s.pinOut := by unfold dirWrite; split <;> rfl
@[simp] theorem dirWrite_seqState (sig : Signal) (d : Bool) : (dirWrite sig d s).seqState = s.seqState := by unfold dirWrite; split <;> rfl
@[simp] theorem dirWrite_ptr (sig : Signal) (d : Bool) : (dirWrite sig d s).ptr = s.ptr := by unfold dirWrite; split <;> rfl
@[simp] theorem dirWrite_recs (sig : Signal) (d : Bool) : (dirWrite sig d s).recs = s.recs := by unfold dirWrite; split <;> rfl
@[simp] theorem dirWrite_args (sig : Signal) (d : Bool) : (dirWrite sig d s).args = s.args := by unfold dirWrite; split <;> rfl
@[simp] theorem dirWrite_dly (sig : Signal) (d : Bool) : (dirWrite sig d s).dly = s.dly := by unfold dirWrite; split <;> rfl
@[simp] theorem dirWrite_opc (sig : Signal) (d : Bool) : (dirWrite sig d s).opc = s.opc := by unfold dirWrite; split <;> rfl
@[simp] theorem dirWrite_busy (sig : Signal) (d : Bool) : (dirWrite sig d s).busy = s.busy := by unfold dirWrite; split <;> rfl
@[simp] theorem dirWrite_result (sig : Signal) (d : Bool) : (dirWrite sig d s).result = s.result := by unfold dirWrite; split <;> rfl
@[simp] theorem dirWrite_xdone (sig : Signal) (d : Bool) : (dirWrite sig d s).xdone = s.xdone := by unfold dirWrite; split <;> rfl
@[simp] theorem dirWrite_txbuf (sig : Signal) (d : Bool) : (dirWrite sig d s).txbuf = s.txbuf := by unfold dirWrite; split <;> rfl
@[simp] theorem dirWrite_rxhold (sig : Signal) (d : Bool) : (dirWrite sig d s).rxhold = s.rxhold := by unfold dirWrite; split <;> rfl
@[simp] theorem dirWrite_idx (sig : Signal) (d : Bool) : (dirWrite sig d s).idx = s.idx := by unfold dirWrite; split <;> rfl
@[simp] theorem dirWrite_pending (sig : Signal) (d : Bool) : (dirWrite sig d s).pending = s.pending := by unfold dirWrite; split <;> rfl
@[simp] theorem dirWrite_polls (sig : Signal) (d : Bool) : (dirWrite sig d s).polls = s.polls := by unfold dirWrite; split <;> rfl
@[simp] theorem dirWrite_todo (sig : Signal) (d : Bool) : (dirWrite sig d s).todo = s.todo := by unfold dirWrite; split <;> rfl
@[simp] theorem dirWrite_cmds (sig : Signal) (d : Bool) : (dirWrite sig d s).cmds = s.cmds := by unfold dirWrite; split <;> rfl
@[simp] theorem dirWrite_events (sig : Signal) (d : Bool) : (dirWrite sig d s).events = s.events := by unfold dirWrite; split <;> rfl

/-! `busWrite` -/

@[simp] theorem busWrite_cfg (b : Byte) : (busWrite b s).cfg = s.cfg := rfl
@[simp] theorem busWrite_rom (b : Byte) : (busWrite b s).rom = s.rom := rfl
@[simp] theorem busWrite_dmem (b : Byte) : (busWrite b s).dmem = s.dmem := rfl
@[simp] theorem busWrite_pinOut (b : Byte) : (busWrite b s).pinOut = setData s.pinOut b := rfl
@[simp] theorem busWrite_pinDir (b : Byte) : (busWrite b s).pinDir = s.pinDir := rfl
@[simp] theorem busWrite_seqState (b : Byte) : (busWrite b s).seqState = s.seqState := rfl
@[simp] theorem busWrite_ptr (b : Byte) : (busWrite b s).ptr = s.ptr := rfl
@[simp] theorem busWrite_recs (b : Byte) : (busWrite b s).recs = s.recs := rfl
@[simp] theorem busWrite_args (b : Byte) : (busWrite b s).args = s.args := rfl
@[simp] theorem busWrite_dly (b : Byte) : (busWrite b s).dly = s.dly := rfl
@[simp] theorem busWrite_opc (b : Byte) : (busWrite b s).opc = s.opc := rfl
@[simp] theorem busWrite_busy (b : Byte) : (busWrite b s).busy = s.busy := rfl
@[simp] theorem busWrite_result (b : Byte) : (busWrite b s).result = s.result := rfl
@[simp] theorem busWrite_xdone (b : Byte) : (busWrite b s).xdone = s.xdone := rfl
@[simp] theorem busWrite_txbuf (b : Byte) : (busWrite b s).txbuf = s.txbuf := rfl
@[simp] theorem busWrite_rxhold (b : Byte) : (busWrite b s).rxhold = s.rxhold := rfl
@[simp] theorem busWrite_idx (b : Byte) : (busWrite b s).idx = s.idx := rfl
@[simp] theorem busWrite_pending (b : Byte) : (busWrite b s).pending = s.pending := rfl
@[simp] theorem busWrite_polls (b : Byte) : (busWrite b s).polls = s.polls := rfl
@[simp] theorem busWrite_trace (b : Byte) : (busWrite b s).trace = s.trace ++ [.bus b] := rfl
@[simp] theorem busWrite_todo (b : Byte) : (busWrite b s).todo = s.todo := rfl
@[simp] theorem busWrite_cmds (b : Byte) : (busWrite b s).cmds = s.cmds := rfl
@[simp] theorem busWrite_events (b : Byte) : (busWrite b s).events = s.events := rfl

/-! `romRead` -/

@[simp] theorem romRead_cfg (dst : RomDst) (v : Byte) : (romRead dst v s).cfg = s.cfg := by cases dst <;> rfl
@[simp] theorem romRead_rom (dst : RomDst) (v : Byte) : (romRead dst v s).rom = s.rom := by cases dst <;> rfl
@[simp] theorem romRead_dmem (dst : RomDst) (v : Byte) : (romRead dst v s).dmem = s.dmem := by cases dst <;> rfl
@[simp] theorem romRead_pinOut (dst : RomDst) (v : Byte) : (romRead dst v s).pinOut = s.pinOut := by cases dst <;> rfl
@[simp] theorem romRead_pinDir (dst : RomDst) (v : Byte) : (romRead dst v s).pinDir = s.pinDir := by cases dst <;> rfl
@[simp] theorem romRead_seqState (dst : RomDst) (v : Byte) : (romRead dst v s).seqState = s.seqState := by cases dst <;> rfl
@[simp] theorem romRead_ptr (dst : RomDst) (v : Byte) : (romRead dst v s).ptr = s.ptr + 1 := by cases dst <;> rfl
@[simp] theorem romRead_busy (dst : RomDst) (v : Byte) : (romRead dst v s).busy = s.busy := by cases dst <;> rfl
@[simp] theorem romRead_result (dst : RomDst) (v : Byte) : (romRead dst v s).result = s.result := by cases dst <;> rfl
@[simp] theorem romRead_xdone (dst : RomDst) (v : Byte) : (romRead dst v s).xdone = s.xdone := by cases dst <;> rfl
@[simp] theorem romRead_txbuf (dst : RomDst) (v : Byte) : (romRead dst v s).txbuf = s.txbuf := by cases dst <;> rfl
@[simp] theorem romRead_rxhold (dst : RomDst) (v : Byte) : (romRead dst v s).rxhold = s.rxhold := by cases dst <;> rfl
@[simp] theorem romRead_idx (dst : RomDst) (v : Byte) : (romRead dst v s).idx = s.idx := by cases dst <;> rfl
@[simp] theorem romRead_pending (dst : RomDst) (v : Byte) : (romRead dst v s).pending = s.pending := by cases dst <;> rfl
@[simp] theorem romRead_polls (dst : RomDst) (v : Byte) : (romRead dst v s).polls = s.polls := by cases dst <;> rfl
@[simp] theorem romRead_trace (dst : RomDst) (v : Byte) : (romRead dst v s).trace = s.trace ++ [.romRd s.ptr v] := by cases dst <;> rfl
@[simp] theorem romRead_todo (dst : RomDst) (v : Byte) : (romRead dst v s).todo = s.todo := by cases dst <;> rfl
@[simp] theorem romRead_cmds (dst : RomDst) (v : Byte) : (romRead dst v s).cmds = s.cmds := by cases dst <;> rfl
@[simp] theorem romRead_events (dst : RomDst) (v : Byte) : (romRead dst v s).events = s.events := by cases dst <;> rfl

/-! `flagClear` -/

@[simp] theorem flagClear_cfg : (flagClear s).cfg = s.cfg := rfl
@[simp] theorem flagClear_rom : (flagClear s).rom = s.rom := rfl
@[simp] theorem flagClear_dmem : (flagClear s).dmem = s.dmem := rfl
@[simp] theorem flagClear_pinOut : (flagClear s).pinOut = s.pinOut := rfl
@[simp] theorem flagClear_pinDir : (flagClear s).pinDir = s.pinDir := rfl
@[simp] theorem flagClear_seqState : (flagClear s).seqState = s.seqState := rfl
@[simp] theorem flagClear_ptr : (flagClear s).ptr = s.ptr := rfl
@[simp] theorem flagClear_recs : (flagClear s).recs = s.recs := rfl
@[simp] theorem flagClear_args : (flagClear s).args = s.args := rfl
@[simp] theorem flagClear_dly : (flagClear s).dly = s.dly := rfl
@[simp] theorem flagClear_opc : (flagClear s).opc = s.opc := rfl
@[simp] theorem flagClear_busy : (flagClear s).busy = s.busy := rfl
@[simp] theorem flagClear_result : (flagClear s).result = s.result := rfl
@[simp] theorem flagClear_xdone : (flagClear s).xdone = false := rfl
@[simp] theorem flagClear_txbuf : (flagClear s).txbuf = s.txbuf := rfl
@[simp] theorem flagClear_rxhold : (flagClear s).rxhold = s.rxhold := rfl
@[simp] theorem flagClear_idx : (flagClear s).idx = s.idx := rfl
@[simp] theorem flagClear_pending : (flagClear s).pending = s.pending := rfl
@[simp] theorem flagClear_polls : (flagClear s).polls = s.polls := rfl
@[simp] theorem flagClear_trace : (flagClear s).trace = s.trace ++ [.flagClr] := rfl
@[simp] theorem flagClear_todo : (flagClear s).todo = s.todo := rfl
@[simp] theorem flagClear_cmds : (flagClear s).cmds = s.cmds := rfl
@[simp] theorem flagClear_events : (flagClear s).events = s.events := rfl

/-! `serialSend` -/

@[simp] theorem serialSend_cfg (b : Byte) : (serialSend b s).cfg = s.cfg := rfl
@[simp] theorem serialSend_rom (b : Byte) : (serialSend b s).rom = s.rom := rfl
@[simp] theorem serialSend_dmem (b : Byte) : (serialSend b s).dmem = s.dmem := rfl
@[simp] theorem serialSend_pinOut (b : Byte) : (serialSend b s).pinOut = s.pinOut := rfl
@[simp] theorem serialSend_pinDir (b : Byte) : (serialSend b s).pinDir = s.pinDir := rfl
@[simp] theorem serialSend_seqState (b : Byte) : (serialSend b s).seqState = s.seqState := rfl
@[simp] theorem serialSend_ptr (b : Byte) : (serialSend b s).ptr = s.ptr := rfl
@[simp] theorem serialSend_recs (b : Byte) : (serialSend b s).recs = s.recs := rfl
@[simp] theorem serialSend_args (b : Byte) : (serialSend b s).args = s.args := rfl
@[simp] theorem serialSend_dly (b : Byte) : (serialSend b s).dly = s.dly := rfl
@[simp] theorem serialSend_opc (b : Byte) : (serialSend b s).opc = s.opc := rfl
@[simp] theorem serialSend_busy (b : Byte) : (serialSend b s).busy = s.busy := rfl
@[simp] theorem serialSend_result (b : Byte) : (serialSend b s).result = s.result := rfl
@[simp] theorem serialSend_xdone (b : Byte) : (serialSend b s).xdone = s.xdone := rfl
@[simp] theorem serialSend_txbuf (b : Byte) : (serialSend b s).txbuf = b := rfl
@[simp] theorem serialSend_rxhold (b : Byte) : (serialSend b s).rxhold = s.rxhold := rfl
@[simp] theorem serialSend_idx (b : Byte) : (serialSend b s).idx = s.idx := rfl
@[simp] theorem serialSend_pending (b : Byte) : (serialSend b s).pending = true := rfl
@[simp] theorem serialSend_polls (b : Byte) : (serialSend b s).polls = 0 := rfl
@[simp] theorem serialSend_trace (b : Byte) : (serialSend b s).trace = s.trace ++ [.serTx b] := rfl
@[simp] theorem serialSend_todo (b : Byte) : (serialSend b s).todo = s.todo := rfl
@[simp] theorem serialSend_cmds (b : Byte) : (serialSend b s).cmds = s.cmds := rfl
@[simp] theorem serialSend_events (b : Byte) : (serialSend b s).events = s.events := rfl

/-! `serialReceive` -/

@[simp] theorem serialReceive_cfg : (serialReceive s).cfg = s.cfg := rfl
@[simp] theorem serialReceive_rom : (serialReceive s).rom = s.rom := rfl
@[simp] theorem serialReceive_dmem : (serialReceive s).dmem = s.dmem := rfl
@[simp] theorem serialReceive_pinOut : (serialReceive s).pinOut = s.pinOut := rfl
@[simp] theorem serialReceive_pinDir : (serialReceive s).pinDir = s.pinDir := rfl
@[simp] theorem serialReceive_seqState : (serialReceive s).seqState = s.seqState := rfl
@[simp] theorem serialReceive_ptr : (serialReceive s).ptr = s.ptr := rfl
@[simp] theorem serialReceive_recs : (serialReceive s).recs = s.recs := rfl
@[simp] theorem serialReceive_args : (serialReceive s).args = s.args := rfl
@[simp] theorem serialReceive_dly : (serialReceive s).dly = s.dly := rfl
@[simp] theorem serialReceive_opc : (serialReceive s).opc = s.opc := rfl
@[simp] theorem serialReceive_busy : (serialReceive s).busy = s.busy := rfl
@[simp] theorem serialReceive_result : (serialReceive s).result = s.result := rfl
@[simp] theorem serialReceive_xdone : (serialReceive s).xdone = s.xdone := rfl
@[simp] theorem serialReceive_txbuf : (serialReceive s).txbuf = s.txbuf := rfl
@[simp] theorem serialReceive_rxhold : (serialReceive s).rxhold = s.rxhold := rfl
@[simp] theorem serialReceive_idx : (serialReceive s).idx = s.idx := rfl
@[simp] theorem serialReceive_pending : (serialReceive s).pending = s.pending := rfl
@[simp] theorem serialReceive_polls : (serialReceive s).polls = s.polls := rfl
@[simp] theorem serialReceive_trace : (serialReceive s).trace = s.trace ++ [.serRx s.rxhold] := rfl
@[simp] theorem serialReceive_todo : (serialReceive s).todo = s.todo := rfl
@[simp] theorem serialReceive_cmds : (serialReceive s).cmds = s.cmds := rfl
@[simp] theorem serialReceive_events : (serialReceive s).events = s.events := rfl

/-! `memWrite` -/

@[simp] theorem memWrite_cfg (a : Word) (v : Byte) : (memWrite a v s).cfg = s.cfg := rfl
@[simp] theorem memWrite_rom (a : Word) (v : Byte) : (memWrite a v s).rom = s.rom := rfl
@[simp] theorem memWrite_dmem (a : Word) (v : Byte) : (memWrite a v s).dmem = Memory.write s.dmem a.toNat v := rfl
@[simp] theorem memWrite_pinOut (a : Word) (v : Byte) : (memWrite a v s).pinOut = s.pinOut := rfl
@[simp] theorem memWrite_pinDir (a : Word) (v : Byte) : (memWrite a v s).pinDir = s.pinDir := rfl
@[simp] theorem memWrite_seqState (a : Word) (v : Byte) : (memWrite a v s).seqState = s.seqState := rfl
@[simp] theorem memWrite_ptr (a : Word) (v : Byte) : (memWrite a v s).ptr = s.ptr := rfl
@[simp] theorem memWrite_recs (a : Word) (v : Byte) : (memWrite a v s).recs = s.recs := rfl
@[simp] theorem memWrite_args (a : Word) (v : Byte) : (memWrite a v s).args = s.args := rfl
@[simp] theorem memWrite_dly (a : Word) (v : Byte) : (memWrite a v s).dly = s.dly := rfl
@[simp] theorem memWrite_opc (a : Word) (v : Byte) : (memWrite a v s).opc = s.opc := rfl
@[simp] theorem memWrite_busy (a : Word) (v : Byte) : (memWrite a v s).busy = s.busy := rfl
@[simp] theorem memWrite_result (a : Word) (v : Byte) : (memWrite a v s).result = s.result := rfl
@[simp] theorem memWrite_xdone (a : Word) (v : Byte) : (memWrite a v s).xdone = s.xdone := rfl
@[simp] theorem memWrite_txbuf (a : Word) (v : Byte) : (memWrite a v s).txbuf = s.txbuf := rfl
@[simp] theorem memWrite_rxhold (a : Word) (v : Byte) : (memWrite a v s).rxhold = s.rxhold := rfl
@[simp] theorem memWrite_idx (a : Word) (v : Byte) : (memWrite a v s).idx = s.idx := rfl
@[simp] theorem memWrite_pending (a : Word) (v : Byte) : (memWrite a v s).pending = s.pending := rfl
@[simp] theorem memWrite_polls (a : Word) (v : Byte) : (memWrite a v s).polls = s.polls := rfl
@[simp] theorem memWrite_trace (a : Word) (v : Byte) : (memWrite a v s).trace = s.trace ++ [.memWr a v] := rfl
@[simp] theorem memWrite_todo (a : Word) (v : Byte) : (memWrite a v s).todo = s.todo := rfl
@[simp] theorem memWrite_cmds (a : Word) (v : Byte) : (memWrite a v s).cmds = s.cmds := rfl
@[simp] theorem memWrite_events (a : Word) (v : Byte) : (memWrite a v s).events = s.events := rfl

/-! `endOperation` -/

@[simp] theorem endOperation_cfg (op : BitVec 4) : (endOperation op s).cfg = s.cfg := rfl
@[simp] theorem endOperation_rom (op : BitVec 4) : (endOperation op s).rom = s.rom := rfl
@[simp] theorem endOperation_dmem (op : BitVec 4) : (endOperation op s).dmem = s.dmem := rfl
@[simp] theorem endOperation_pinOut (op : BitVec 4) : (endOperation op s).pinOut = s.pinOut := rfl
@[simp] theorem endOperation_pinDir (op : BitVec 4) : (endOperation op s).pinDir = s.pinDir := rfl
@[simp] theorem endOperation_seqState (op : BitVec 4) : (endOperation op s).seqState = s.seqState := rfl
@[simp] theorem endOperation_ptr (op : BitVec 4) : (endOperation op s).ptr = s.ptr := rfl
@[simp] theorem endOperation_recs (op : BitVec 4) : (endOperation op s).recs = s.recs := rfl
@[simp] theorem endOperation_args (op : BitVec 4) : (endOperation op s).args = s.args := rfl
@[simp] theorem endOperation_dly (op : BitVec 4) : (endOperation op s).dly = s.dly := rfl
@[simp] theorem endOperation_opc (op : BitVec 4) : (endOperation op s).opc = s.opc := rfl
@[simp] theorem endOperation_busy (op : BitVec 4) : (endOperation op s).busy = false := rfl
@[simp] theorem endOperation_result (op : BitVec 4) : (endOperation op s).result = s.result := rfl
@[simp] theorem endOperation_xdone (op : BitVec 4) : (endOperation op s).xdone = s.xdone := rfl
@[simp] theorem endOperation_txbuf (op : BitVec 4) : (endOperation op s).txbuf = s.txbuf := rfl
@[simp] theorem endOperation_rxhold (op : BitVec 4) : (endOperation op s).rxhold = s.rxhold := rfl
@[simp] theorem endOperation_idx (op : BitVec 4) : (endOperation op s).idx = s.idx := rfl
@[simp] theorem endOperation_pending (op : BitVec 4) : (endOperation op s).pending = s.pending := rfl
@[simp] theorem endOperation_polls (op : BitVec 4) : (endOperation op s).polls = s.polls := rfl
@[simp] theorem endOperation_trace (op : BitVec 4) : (endOperation op s).trace = s.trace ++ [.opEnd op s.result] := rfl
@[simp] theorem endOperation_todo (op : BitVec 4) : (endOperation op s).todo = s.todo := rfl
@[simp] theorem endOperation_cmds (op : BitVec 4) : (endOperation op s).cmds = s.cmds := rfl
@[simp] theorem endOperation_events (op : BitVec 4) : (endOperation op s).events = s.events := rfl

/-! `accept` -/

@[simp] theorem accept_cfg (op : BitVec 4) (p : Ports) : (accept op p s).cfg = s.cfg := rfl
@[simp] theorem accept_rom (op : BitVec 4) (p : Ports) : (accept op p s).rom = s.rom := rfl
@[simp] theorem accept_dmem (op : BitVec 4) (p : Ports) : (accept op p s).dmem = s.dmem := rfl
@[simp] theorem accept_pinOut (op : BitVec 4) (p : Ports) : (accept op p s).pinOut = s.pinOut := rfl
@[simp] theorem accept_pinDir (op : BitVec 4) (p : Ports) : (accept op p s).pinDir = s.pinDir := rfl
@[simp] theorem accept_seqState (op : BitVec 4) (p : Ports) : (accept op p s).seqState = s.seqState := rfl
@[simp] theorem accept_ptr (op : BitVec 4) (p : Ports) : (accept op p s).ptr = s.ptr := rfl
@[simp] theorem accept_recs (op : BitVec 4) (p : Ports) : (accept op p s).recs = s.recs := rfl
@[simp] theorem accept_args (op : BitVec 4) (p : Ports) : (accept op p s).args = s.args := rfl
@[simp] theorem accept_dly (op : BitVec 4) (p : Ports) : (accept op p s).dly = s.dly := rfl
@[simp] theorem accept_opc (op : BitVec 4) (p : Ports) : (accept op p s).opc = s.opc := rfl
@[simp] theorem accept_busy (op : BitVec 4) (p : Ports) : (accept op p s).busy = true := rfl
@[simp] theorem accept_result (op : BitVec 4) (p : Ports) : (accept op p s).result = .ok := rfl
@[simp] theorem accept_xdone (op : BitVec 4) (p : Ports) : (accept op p s).xdone = s.xdone := rfl
@[simp] theorem accept_txbuf (op : BitVec 4) (p : Ports) : (accept op p s).txbuf = s.txbuf := rfl
@[simp] theorem accept_rxhold (op : BitVec 4) (p : Ports) : (accept op p s).rxhold = s.rxhold := rfl
@[simp] theorem accept_idx (op : BitVec 4) (p : Ports) : (accept op p s).idx = s.idx := rfl
@[simp] theorem accept_pending (op : BitVec 4) (p : Ports) : (accept op p s).pending = s.pending := rfl
@[simp] theorem accept_polls (op : BitVec 4) (p : Ports) : (accept op p s).polls = s.polls := rfl
@[simp] theorem accept_trace (op : BitVec 4) (p : Ports) : (accept op p s).trace = s.trace ++ [.opStart op p.a p.b p.n] := rfl
@[simp] theorem accept_todo (op : BitVec 4) (p : Ports) : (accept op p s).todo = s.todo := rfl
@[simp] theorem accept_cmds (op : BitVec 4) (p : Ports) : (accept op p s).cmds = s.cmds := rfl
@[simp] theorem accept_events (op : BitVec 4) (p : Ports) : (accept op p s).events = tickEvents s.events := rfl

/-! `completion` -/

@[simp] theorem completion_cfg (r : Byte) : (completion r s).cfg = s.cfg := by unfold completion; split <;> rfl
@[simp] theorem completion_rom (r : Byte) : (completion r s).rom = s.rom := by unfold completion; split <;> rfl
@[simp] theorem completion_dmem (r : Byte) : (completion r s).dmem = s.dmem := by unfold completion; split <;> rfl
@[simp] theorem completion_pinOut (r : Byte) : (completion r s).pinOut = s.pinOut := by unfold completion; split <;> rfl
@[simp] theorem completion_pinDir (r : Byte) : (completion r s).pinDir = s.pinDir := by unfold completion; split <;> rfl
@[simp] theorem completion_seqState (r : Byte) : (completion r s).seqState = s.seqState := by unfold completion; split <;> rfl
@[simp] theorem completion_ptr (r : Byte) : (completion r s).ptr = s.ptr := by unfold completion; split <;> rfl
@[simp] theorem completion_recs (r : Byte) : (completion r s).recs = s.recs := by unfold completion; split <;> rfl
@[simp] theorem completion_args (r : Byte) : (completion r s).args = s.args := by unfold completion; split <;> rfl
@[simp] theorem completion_dly (r : Byte) : (completion r s).dly = s.dly := by unfold completion; split <;> rfl
@[simp] theorem completion_opc (r : Byte) : (completion r s).opc = s.opc := by unfold completion; split <;> rfl
@[simp] theorem completion_busy (r : Byte) : (completion r s).busy = s.busy := by unfold completion; split <;> rfl
@[simp] theorem completion_result (r : Byte) : (completion r s).result = s.result := by unfold completion; split <;> rfl
@[simp] theorem completion_txbuf (r : Byte) : (completion r s).txbuf = s.txbuf := by unfold completion; split <;> rfl
@[simp] theorem completion_idx (r : Byte) : (completion r s).idx = s.idx := by unfold completion; split <;> rfl
@[simp] theorem completion_polls (r : Byte) : (completion r s).polls = s.polls := by unfold completion; split <;> rfl
@[simp] theorem completion_todo (r : Byte) : (completion r s).todo = s.todo := by unfold completion; split <;> rfl
@[simp] theorem completion_cmds (r : Byte) : (completion r s).cmds = s.cmds := by unfold completion; split <;> rfl
@[simp] theorem completion_events (r : Byte) : (completion r s).events = s.events := by unfold completion; split <;> rfl

@[simp] theorem hostStore_todo (a : Word) (v : Byte) : (hostStore a v s).todo = s.todo := by unfold hostStore; split <;> rfl
@[simp] theorem hostStore_cfg (a : Word) (v : Byte) : (hostStore a v s).cfg = s.cfg := by unfold hostStore; split <;> rfl
@[simp] theorem hostStore_rom (a : Word) (v : Byte) : (hostStore a v s).rom = s.rom := by unfold hostStore; split <;> rfl

/-! What no micro-action changes. -/

@[simp] theorem micro_cfg (m : Micro) : (micro m s).cfg = s.cfg := by cases m <;> simp [micro]
@[simp] theorem micro_rom (m : Micro) : (micro m s).rom = s.rom := by cases m <;> simp [micro]
@[simp] theorem micro_cmds (m : Micro) : (micro m s).cmds = s.cmds := by cases m <;> simp [micro]
@[simp] theorem micro_rxhold (m : Micro) : (micro m s).rxhold = s.rxhold := by cases m <;> simp [micro]
@[simp] theorem micro_todo (m : Micro) : (micro m s).todo = s.todo := by cases m <;> simp [micro]
@[simp] theorem micro_events (m : Micro) : (micro m s).events = s.events := by cases m <;> simp [micro]

/-! A line that exists: every line but `MSEL`, and `MSEL` with `HAS_STE` (10_state.md R11). -/

/-- A latch write of an existing line. -/
theorem pinWrite_eq {sig : Signal} (v : Level) (h : lineExists s.cfg sig = true) :
    pinWrite sig v s = emit (.pin sig v) { s with pinOut := setBit s.pinOut sig.id v } := by simp [pinWrite, h]

/-- A direction write of an existing line. -/
theorem dirWrite_eq {sig : Signal} (d : Bool) (h : lineExists s.cfg sig = true) :
    dirWrite sig d s = emit (.dir sig d) { s with pinDir := setBit s.pinDir sig.id d } := by simp [dirWrite, h]

@[simp] theorem lineExists_msel (c : Config) : lineExists c .msel = c.hasSte := rfl

@[simp] theorem lineExists_of_ne (c : Config) {sig : Signal} (h : sig ≠ .msel) : lineExists c sig = true := by
  cases sig <;> first | rfl | exact absurd rfl h

end Sys2Proof.Machine
end

