-- ==== Sys2Proof/Laws/Run.lean ====
section
/-! SUPPORT. What a fused run can do: it makes an initial part of its program, micro-action by micro-action, and records the rest; where no other
agent is about to move it makes all of it up to the first stop. -/

namespace Sys2Proof.Machine

/-- With no move of another agent to come, time passes without a trace. -/
theorem tick_quiet {s : State} (h : s.events = []) : tick s = s := by
  unfold tick; rw [h]; simp only [tickEvents]; rw [← h]

theorem due_quiet {s : State} (h : s.events = []) : due s = false := by simp [due, h]

theorem runMicros_nil (s : State) : runMicros [] s = { s with todo := [] } := rfl

/-- A stop ends the run before it. -/
theorem runMicros_stop {m : Micro} (rest : List Micro) (s : State) (h : m.stops = true) :
    runMicros (m :: rest) s = { s with todo := m :: rest } := by simp [runMicros, h]

/-- One micro-action of an undisturbed run. -/
theorem runMicros_quiet {m : Micro} (rest : List Micro) {s : State} (hm : m.stops = false) (hs : s.events = []) :
    runMicros (m :: rest) s = runMicros rest (micro m s) := by
  rw [runMicros, if_neg (by simp [hm, due_quiet hs]), tick_quiet (by simp [hs])]

/-- The effect of a program without stops. -/
def straight (prog : List Micro) (s : State) : State := prog.foldl (fun t m => micro m t) s

@[simp] theorem straight_nil (s : State) : straight [] s = s := rfl
@[simp] theorem straight_cons (m : Micro) (l : List Micro) (s : State) : straight (m :: l) s = straight l (micro m s) := rfl
theorem straight_append (l l' : List Micro) (s : State) : straight (l ++ l') s = straight l' (straight l s) :=
  List.foldl_append

@[simp] theorem straight_events (l : List Micro) (s : State) : (straight l s).events = s.events := by
  induction l generalizing s with
  | nil => rfl
  | cons m l ih => simp [ih]

@[simp] theorem straight_cfg (l : List Micro) (s : State) : (straight l s).cfg = s.cfg := by
  induction l generalizing s with
  | nil => rfl
  | cons m l ih => simp [ih]

@[simp] theorem straight_rom (l : List Micro) (s : State) : (straight l s).rom = s.rom := by
  induction l generalizing s with
  | nil => rfl
  | cons m l ih => simp [ih]

/-- An undisturbed run goes through a program without stops. -/
theorem runMicros_straight {prog : List Micro} (rest : List Micro) {s : State} (hp : ∀ m ∈ prog, m.stops = false)
    (hs : s.events = []) : runMicros (prog ++ rest) s = runMicros rest (straight prog s) := by
  induction prog generalizing s with
  | nil => rfl
  | cons m l ih =>
    rw [List.cons_append, runMicros_quiet _ (hp m (by simp)) hs, ih (fun x hx => hp x (by simp [hx])) (by simp [hs])]
    rfl

/-- Where a run has not stopped at the loop of `XFER`, `run` adds nothing to `runMicros`. -/
theorem passLoop_other {s : State} (h : ∀ a b n rest, s.todo ≠ .xferLoop a b n :: rest) : passLoop s = s := by
  unfold passLoop
  split
  · exact absurd ‹_› (h _ _ _ _)
  · rfl

/-- The loop of `XFER` is left, undisturbed, when `IDX` has reached the length (43_serial_transport.md R150). -/
theorem passLoop_end {a b n : Word} {rest : List Micro} {s : State} (h : s.todo = .xferLoop a b n :: rest)
    (hs : s.events = []) (hi : s.idx = n) : passLoop s = runMicros rest s := by
  unfold passLoop; rw [h]; simp [due_quiet hs, hi]

/-- The body of the loop of `XFER`, undisturbed, up to its wait: the byte at `IDX` is read and sent (43_serial_transport.md R150, R152). -/
theorem passLoop_body {a b n : Word} {rest : List Micro} {s : State} (h : s.todo = .xferLoop a b n :: rest)
    (hs : s.events = []) (hi : s.idx ≠ n) :
    passLoop s =
      { serialSend (s.dmemByte (a + s.idx)) (flagClear (emit (.memRd (a + s.idx) (s.dmemByte (a + s.idx))) s)) with
        todo := .poll .xfer :: .storeRx (b + s.idx) :: .xferLoop a b n :: rest } := by
  have hx : xferByte a b s ++ .xferLoop a b n :: rest =
      [.memRd (a + s.idx) (s.dmemByte (a + s.idx)), .flagClr, .serTx (s.dmemByte (a + s.idx))]
        ++ .poll .xfer :: .storeRx (b + s.idx) :: .xferLoop a b n :: rest := by simp [xferByte, serByte]
  unfold passLoop
  rw [h]
  dsimp only
  rw [if_neg (by simp [due_quiet hs]), if_neg hi, hx, runMicros_straight _ (by simp [Micro.stops]) hs, runMicros_stop _ _ rfl]
  rfl

/-- An undisturbed operation without stops runs to its end. -/
theorem run_straight_end {prog : List Micro} {s : State} (hp : ∀ m ∈ prog, m.stops = false) (hs : s.events = []) :
    run prog s = { straight prog s with todo := [] } := by
  have h := runMicros_straight [] hp hs
  rw [List.append_nil] at h
  unfold run
  rw [h, runMicros_nil, passLoop_other (by simp)]

/-- An undisturbed run up to a stop other than the loop of `XFER`. -/
theorem run_straight_stop {prog : List Micro} {m : Micro} (rest : List Micro) {s : State}
    (hp : ∀ x ∈ prog, x.stops = false) (hm : m.stops = true) (hx : ∀ a b n, m ≠ .xferLoop a b n) (hs : s.events = []) :
    run (prog ++ m :: rest) s = { straight prog s with todo := m :: rest } := by
  unfold run
  rw [runMicros_straight _ hp hs, runMicros_stop _ _ hm, passLoop_other]
  intro a b n r h
  simp only [List.cons.injEq] at h
  exact hx _ _ _ h.1

/-! A host operation that the block accepts. -/

/-- An operation without stops, accepted and undisturbed: its program's effect between its `OpStart` and its end step. -/
theorem hostOperation_straight {op : BitVec 4} {p : Ports} {prog : List Micro} {s : State} (hb : s.busy = false)
    (hs : s.events = []) (hp : ∀ m ∈ prog, m.stops = false) :
    hostOperation op p prog s =
      { endOperation op (straight prog (emit (.opStart op p.a p.b p.n) { s with busy := true, result := .ok })) with
        todo := [] } := by
  unfold hostOperation
  rw [if_neg (by simp [hb]), run_straight_end]
  · rw [straight_append]; unfold accept; rw [tick_quiet (by simp [hs])]; rfl
  · intro m hm
    simp only [List.mem_append, List.mem_singleton] at hm
    rcases hm with h | rfl
    · exact hp m h
    · rfl
  · simp [accept, hs, tick, tickEvents]

/-- An operation whose program has a stop other than the loop of `XFER`, accepted and undisturbed. -/
theorem hostOperation_stop {op : BitVec 4} {p : Ports} {prog rest : List Micro} {m : Micro} {s : State}
    (hb : s.busy = false) (hs : s.events = []) (hp : ∀ m ∈ prog, m.stops = false) (hm : m.stops = true)
    (hx : ∀ a b n, m ≠ .xferLoop a b n) :
    hostOperation op p (prog ++ m :: rest) s =
      { straight prog (emit (.opStart op p.a p.b p.n) { s with busy := true, result := .ok }) with
        todo := m :: rest ++ [.opEnd op] } := by
  unfold hostOperation
  rw [if_neg (by simp [hb]), List.append_assoc, List.cons_append, run_straight_stop _ hp hm hx]
  · unfold accept; rw [tick_quiet (by simp [hs])]
  · simp [accept, hs, tick, tickEvents]

/-- The end of a wait that gives up: the clean-up, the result, the end step (43_serial_transport.md R152, 60_exceptions.md R184). -/
theorem pollWait_timeout {s : State} {who : Waiter} {n : Nat} (rest : List Micro) (hs : s.events = [])
    (hx : s.xdone = false) (hn : s.cfg.timeoutPolls = some n) (hp : n ≤ s.polls)
    (hc : ∀ m ∈ waitCleanup s.cfg who, m.stops = false) :
    pollWait who rest s =
      { endOperation who.op { straight (waitCleanup s.cfg who) (emit .timeout s) with result := .transportTimeout } with
        todo := [] } := by
  unfold pollWait
  rw [if_neg (by simp [hx]), if_pos (by simp [pollLimitReached, hn, hp]), tick_quiet (by simp [hs]), run_straight_end]
  · unfold errorPath; rw [straight_append]; rfl
  · intro m hm
    simp only [errorPath, List.mem_append, List.mem_cons, List.not_mem_nil, or_false] at hm
    rcases hm with h | rfl | rfl
    · exact hc m h
    · rfl
    · rfl
  · simp [hs]

/-! What a run keeps. -/

/-- A property of the state and of the program still to be made that every micro-action carries on. -/
structure RunInvariant (I : List Micro → State → Prop) : Prop where
  /-- It does not speak of `todo` except through the program. -/
  todo : ∀ l l' s, I l s → I l { s with todo := l' }
  micro : ∀ m rest s, m.stops = false → I (m :: rest) s → I rest (tick (micro m s))
  loopEnd : ∀ a b n rest s, s.idx = n → I (.xferLoop a b n :: rest) s → I rest s
  loopBody : ∀ a b n rest s, s.idx ≠ n → I (.xferLoop a b n :: rest) s → I (xferByte a b s ++ .xferLoop a b n :: rest) s

theorem RunInvariant.runMicros {I : List Micro → State → Prop} (h : RunInvariant I) {l : List Micro} {s : State}
    (hs : I l s) : I (runMicros l s).todo (runMicros l s) := by
  induction l generalizing s with
  | nil => exact h.todo _ _ _ hs
  | cons m rest ih =>
    unfold Machine.runMicros
    split
    · exact h.todo _ _ _ hs
    · rename_i hm
      exact ih (h.micro _ _ _ (by simp_all) hs)

theorem RunInvariant.run {I : List Micro → State → Prop} (h : RunInvariant I) {l : List Micro} {s : State}
    (hs : I l s) : I (run l s).todo (run l s) := by
  have h1 := h.runMicros hs
  unfold Machine.run passLoop
  split
  · rename_i he
    split
    · exact h1
    · rw [he] at h1
      split
      · exact h.runMicros (h.loopEnd _ _ _ _ _ ‹_› h1)
      · exact h.runMicros (h.loopBody _ _ _ _ _ ‹_› h1)
  · exact h1

end Sys2Proof.Machine
end

