-- ==== Sys2Proof/Laws/Step.lean ====
section
/-! SUPPORT. What one step can do, said once: `Moved` lists the moves and `step_moved` says a step is one of them; `StepInvariant.step` packages the
induction over a step. -/

namespace Sys2Proof.Machine

/-- The program of a host operation before its end step, as each meaning gives it to `hostOperation`. -/
def hostProgram (s : State) : Instr → List Micro
  | .count _ => []
  | .record _ _ _ _ => []
  | .init _ => initProgram s
  | .txcmd p => txCommand s.cfg .txcmd (byteOperand p)
  | .txdat p => txData s.cfg .txdat (byteOperand p)
  | .delay p => [.delayMs (millisOperand p)]
  | .xfer p => if s.cfg.hasSte then xferProgram s.cfg p.a p.b p.n else []
  | .setln p => lineAction s.cfg p fun sig => .pin sig true
  | .clrln p => lineAction s.cfg p fun sig => .pin sig false
  | .cfgdir p => lineAction s.cfg p fun sig => .dir sig (asOutputOperand p)

/-- The meaning of every instruction in one form: a host operation, or the table's two in front of what `INIT` has still to do. -/
theorem exec_cases (i : Instr) (s : State) :
    (∃ op p, exec i s = .next (hostOperation op p (hostProgram s i) s))
      ∨ (∃ c, i = .count c ∧ exec i s = .next (run (countProgram c ++ s.todo) s))
      ∨ (∃ n d o args, i = .record n d o args ∧ exec i s = .next (run (recordProgram s.cfg n d o args ++ s.todo) s)) := by
  cases i with
  | count c => exact .inr (.inl ⟨c, rfl, rfl⟩)
  | record n d o args => exact .inr (.inr ⟨n, d, o, args, rfl, rfl⟩)
  | init p => exact .inl ⟨0x0, p, rfl⟩
  | txcmd p => exact .inl ⟨0x1, p, rfl⟩
  | txdat p => exact .inl ⟨0x2, p, rfl⟩
  | delay p => exact .inl ⟨0x3, p, rfl⟩
  | xfer p => exact .inl ⟨0x4, p, rfl⟩
  | setln p => exact .inl ⟨0x5, p, rfl⟩
  | clrln p => exact .inl ⟨0x6, p, rfl⟩
  | cfgdir p => exact .inl ⟨0x7, p, rfl⟩

/-- The bytes fetched at an address are as many as asked for. -/
@[simp] theorem romBytes_length (s : State) (a : Word) (n : Nat) : (romBytes s a n).length = n := by
  induction n generalizing a with
  | zero => rfl
  | succ n ih => simp [romBytes, ih]

/-- The table head decodes to the count byte at the cursor (30_encoding.md R60). -/
theorem decode_headCode (s : State) : decode (headCode s) = .instr (.count (s.romByte s.ptr)) [] := rfl

/-- A record boundary decodes to the record at the cursor, with as many arguments as its first byte says (30_encoding.md R61, R64). -/
theorem decode_recordCode (s : State) :
    decode (recordCode s) =
      .instr (.record (s.romByte s.ptr) (s.romByte (s.ptr + 1)) (s.romByte (s.ptr + 1 + 1))
        (romBytes s (s.ptr + 1 + 1 + 1) (s.romByte s.ptr).toNat)) [] := by
  have h : 3 + (s.romByte s.ptr).toNat = (s.romByte s.ptr).toNat + 1 + 1 + 1 := by omega
  have hl := romBytes_length s (s.ptr + 1 + 1 + 1) (s.romByte s.ptr).toNat
  simp only [recordCode, h, romBytes, decode, decodeRecord]
  rw [if_pos (by omega), List.take_of_length_le (by omega), List.drop_of_length_le (by omega)]

/-- Where no other agent's move has come, a step is CORE's (or the host's). -/
theorem step_not_due {s : State} (h : due s = false) : step s = coreMove s := by
  unfold step agentsStep
  split
  · rename_i he; simp [due, he] at h
  · rfl

theorem step_quiet {s : State} (h : s.events = []) : step s = coreMove s := step_not_due (due_quiet h)

/-- An idle block takes the command the host issues next. -/
theorem coreMove_issue {s : State} {c : HostCmd} {cs : List HostCmd} (hb : s.busy = false) (ht : s.todo = [])
    (hc : s.cmds = c :: cs) : coreMove s = issue c { s with cmds := cs } := by
  simp [coreMove, hb, ht, hc]

/-- The program the host's command starts in a state: that of its instruction, or none for a reserved command (30_encoding.md R69). -/
def commandProgram (c : HostCmd) (s : State) : List Micro :=
  match decode (.command c) with
  | .instr i _ => hostProgram s i
  | .reject _ => []

/-- The command of a decoded instruction and the instruction have the same operands, and the command's code is the instruction's. -/
theorem decode_command {c : HostCmd} {i : Instr} {rest : List Byte} (h : decode (.command c) = .instr i rest) (s : State) :
    exec i s = .next (hostOperation c.op c.ports (hostProgram s i) s) := by
  obtain ⟨op, p⟩ := c
  have codes : ∀ op : BitVec 4, op = 0 ∨ op = 1 ∨ op = 2 ∨ op = 3 ∨ op = 4 ∨ op = 5 ∨ op = 6 ∨ op = 7 ∨ 8 ≤ op.toNat := by
    decide
  rcases codes op with rfl | rfl | rfl | rfl | rfl | rfl | rfl | rfl | h8
  all_goals simp [decode, decodeCommand, decodeLine] at h
  iterate 5 (obtain ⟨rfl, rfl⟩ := h; rfl)
  iterate 3 (split at h <;> cases h; rfl)
  split at h <;> first | omega | cases h

/-- What a command does when it is issued, unless it is refused: the one host operation it stands for. -/
theorem issue_next {c : HostCmd} {s t : State} (h : issue c s = .next t) :
    t = hostOperation c.op c.ports (commandProgram c s) s := by
  revert h
  unfold issue commandProgram
  cases hd : decode (.command c) with
  | instr i rest =>
    intro h
    dsimp only at h ⊢
    split at h
    · cases h
    · rw [decode_command hd] at h; cases h; rfl
  | reject r =>
    intro h
    dsimp only at h ⊢
    split at h
    · cases h
    · cases h; rfl

/-- The moves a step can be, each with the state it leaves. -/
inductive Moved (s : State) : State → Prop where
  | completion (r : Byte) (rest : List Timed) : s.events = ⟨0, .cpl r⟩ :: rest → Moved s (completion r { s with events := rest })
  | reset (rest : List Timed) : s.events = ⟨0, .rst⟩ :: rest → Moved s (blockReset { s with events := rest })
  | store (a : Word) (v : Byte) (rest : List Timed) : s.events = ⟨0, .hostStore a v⟩ :: rest →
      Moved s (hostStore a v { s with events := rest })
  | look (rest : List Timed) : s.events = ⟨0, .hostLook⟩ :: rest → Moved s { s with events := rest }
  | ignored (c : HostCmd) (rest : List Timed) : s.events = ⟨0, .present c⟩ :: rest → s.busy = true →
      Moved s { s with events := rest }
  | presented (c : HostCmd) (rest : List Timed) : s.events = ⟨0, .present c⟩ :: rest → s.busy = false →
      Moved s (hostOperation c.op c.ports (commandProgram c { s with events := rest }) { s with events := rest })
  | issued (c : HostCmd) (cs : List HostCmd) : due s = false → s.todo = [] → s.busy = false → s.cmds = c :: cs →
      Moved s (hostOperation c.op c.ports (commandProgram c { s with cmds := cs }) { s with cmds := cs })
  | answered (who : Waiter) (rest : List Micro) : due s = false → s.todo = .poll who :: rest → s.xdone = true →
      Moved s (run rest (tick s))
  | gaveUp (who : Waiter) (rest : List Micro) : due s = false → s.todo = .poll who :: rest → s.xdone = false →
      pollLimitReached s = true →
      Moved s (run (errorPath (waitCleanup s.cfg who) .transportTimeout who.op) (tick (emit .timeout s)))
  | polled (who : Waiter) (rest : List Micro) : due s = false → s.todo = .poll who :: rest → s.xdone = false →
      pollLimitReached s = false → Moved s (tick { s with polls := s.polls + 1 })
  | count (rest : List Micro) : due s = false → s.todo = .tableHead :: rest →
      Moved s (run (countProgram (s.romByte s.ptr) ++ rest) { s with todo := rest })
  | record (rest : List Micro) (args : List Byte) : due s = false → s.todo = .records :: rest → s.recs ≠ 0 →
      args.length = (s.romByte s.ptr).toNat →
      Moved s (run (recordProgram s.cfg (s.romByte s.ptr) (s.romByte (s.ptr + 1)) (s.romByte (s.ptr + 1 + 1)) args
        ++ .records :: rest) s)
  | recordsEnd (rest : List Micro) : due s = false → s.todo = .records :: rest → s.recs = 0 → Moved s (run rest s)
  | resumed (m : Micro) (rest : List Micro) : due s = false → s.todo = m :: rest → Moved s (run (m :: rest) s)
  | idle : due s = false → s.todo = [] → Moved s (tick s)

/-- A step that goes on is one of the moves. -/
theorem step_moved {s t : State} (he : Machine.step s = .next t) : Moved s t := by
  unfold Machine.step agentsStep at he
  split at he
  · rename_i m rest hev
    cases m with
    | cpl r => cases he; exact .completion r rest hev
    | rst => cases he; exact .reset rest hev
    | present c =>
      simp only [agentMove, present] at he
      split at he
      · cases he; exact .ignored c rest hev ‹_›
      · rename_i hb
        rw [issue_next he]; exact .presented c rest hev (by simpa using hb)
    | hostStore a v => cases he; exact .store a v rest hev
    | hostLook => cases he; exact .look rest hev
  · rename_i hev
    have hd : due s = false := by
      unfold due; split
      · exact absurd ‹_› (hev _ _)
      · rfl
    unfold coreMove at he
    split at he
    · rename_i who rest ht
      cases he
      unfold pollWait
      split
      · exact .answered who rest hd ht ‹_›
      · rename_i hx
        split
        · exact .gaveUp who rest hd ht (by simpa using hx) ‹_›
        · rename_i hp
          rw [← ht]; exact .polled who rest hd ht (by simpa using hx) (by simpa using hp)
    · rename_i rest ht
      unfold execCode at he
      rw [decode_headCode] at he
      cases he
      exact .count rest hd ht
    · rename_i rest ht
      split at he
      · cases he; exact .recordsEnd rest hd ht ‹_›
      · unfold execCode at he
        rw [decode_recordCode] at he
        cases he
        rw [ht]
        exact .record rest _ hd ht ‹_› (romBytes_length _ _ _)
    · rename_i m rest _ _ _ ht
      cases he
      exact .resumed m rest hd ht
    · rename_i ht
      split at he
      · cases he; exact .idle hd ht
      · rename_i hb
        split at he
        · rename_i c cs hc
          rw [issue_next he]; exact .issued c cs hd ht (by simpa using hb) hc
        · cases he; exact .idle hd ht

/-- A first step that goes on, and the steps after it. -/
theorem run_succ {k : Nat} {s t : State} (h : Machine.step s = .next t) : Host.Core.run Sys2Proof.core (k + 1) s = Host.Core.run Sys2Proof.core k t := by
  simp [Host.Core.run, Sys2Proof.core, h]

/-- A completion wait that is answered in time: `d` polls that find the flag 0, then the completion (43_serial_transport.md R152, R154). -/
theorem run_wait {d : Nat} (k : Nat) {s : State} {who : Waiter} {rest : List Micro} {r : Byte} {es : List Timed}
    (ht : s.todo = .poll who :: rest) (hx : s.xdone = false) (hp : s.pending = true) (he : s.events = ⟨d, .cpl r⟩ :: es)
    (hn : ∀ n, s.cfg.timeoutPolls = some n → s.polls + d ≤ n) :
    Host.Core.run Sys2Proof.core (d + 1 + k) s =
      Host.Core.run Sys2Proof.core k { s with
        polls := s.polls + d, rxhold := r, xdone := true, pending := false, trace := s.trace ++ [.cpl r], events := es } := by
  induction d generalizing s with
  | zero =>
    have h : Machine.step s = .next (completion r { s with events := es }) := by simp [Machine.step, agentsStep, he, agentMove]
    rw [show 0 + 1 + k = k + 1 by omega, run_succ h]
    simp [completion, hp, emit]
  | succ d ih =>
    have hl : pollLimitReached s = false := by
      unfold pollLimitReached
      split
      · rfl
      · rename_i n h
        have := hn n h
        simp; omega
    have h : Machine.step s = .next { s with polls := s.polls + 1, events := ⟨d, .cpl r⟩ :: es } := by
      rw [step_not_due (by simp [due, he])]
      simp only [coreMove, ht, pollWait, hx, hl]
      simp [tick, he, tickEvents]
    rw [show d + 1 + 1 + k = d + 1 + k + 1 by omega, run_succ h]
    refine (ih (by exact ht) (by exact hx) (by exact hp) rfl ?_).trans ?_
    · intro n hn'
      have := hn n hn'
      simp; omega
    · simp [Nat.add_assoc, Nat.add_comm 1 d]

/-- A property of the state and of what CORE has still to do that every step carries on. -/
structure StepInvariant (I : List Micro → State → Prop) : Prop extends RunInvariant I where
  /-- It does not speak of what the other agents are going to do. -/
  inputs : ∀ l s cs es, I l s → I l { s with cmds := cs, events := es }
  issue : ∀ s i op p, I s.todo s → s.busy = false → I (hostProgram s i ++ [.opEnd op]) (accept op p s)
  reserved : ∀ s op p, I s.todo s → s.busy = false → I [.opEnd op] (accept op p s)
  answered : ∀ who rest s, I (.poll who :: rest) s → s.xdone = true → I rest s
  gaveUp : ∀ who rest s, I (.poll who :: rest) s → pollLimitReached s = true →
    I (errorPath (waitCleanup s.cfg who) .transportTimeout who.op) (emit .timeout s)
  polled : ∀ who rest s, I (.poll who :: rest) s → I (.poll who :: rest) { s with polls := s.polls + 1 }
  count : ∀ rest s c, I (.tableHead :: rest) s → I (countProgram c ++ rest) s
  record : ∀ rest s n d o args, I (.records :: rest) s → s.recs ≠ 0 → args.length = n.toNat →
    I (recordProgram s.cfg n d o args ++ .records :: rest) s
  recordsEnd : ∀ rest s, I (.records :: rest) s → s.recs = 0 → I rest s
  completion : ∀ s r, I s.todo s → I s.todo (completion r s)
  reset : ∀ s, I s.todo s → I [] (blockReset s)
  store : ∀ s a v, I s.todo s → I s.todo (hostStore a v s)

variable {I : List Micro → State → Prop}

theorem StepInvariant.tick (h : StepInvariant I) {l : List Micro} {s : State} (hs : I l s) : I l (tick s) :=
  h.inputs l s s.cmds (tickEvents s.events) hs

theorem StepInvariant.hostOperation (h : StepInvariant I) {i : Instr} {s t : State} (hs : I s.todo s)
    (he : (∃ op p, t = hostOperation op p (hostProgram s i) s) ∨ ∃ op p, t = hostOperation op p [] s) : I t.todo t := by
  rcases he with ⟨op, p, rfl⟩ | ⟨op, p, rfl⟩ <;> unfold Machine.hostOperation <;> split
  · exact hs
  · exact h.run (h.issue _ _ _ _ hs (by simp_all))
  · exact hs
  · exact h.run (h.reserved _ _ _ hs (by simp_all))

/-- A command the host issues while nothing runs; `issue` never meets a table instruction. -/
theorem StepInvariant.issueCommand (h : StepInvariant I) {c : HostCmd} {s t : State} (hs : I s.todo s)
    (he : Machine.issue c s = .next t) : I t.todo t := by
  unfold Machine.issue at he
  split at he
  · rename_i i _ hd
    split at he
    · cases he
    · rcases exec_cases i s with ⟨op, p, hx⟩ | ⟨n, rfl, hx⟩ | ⟨n, d, o, args, rfl, hx⟩
      · rw [hx] at he; cases he; exact h.hostOperation hs (.inl ⟨op, p, rfl⟩)
      · exfalso; simp only [decode, decodeCommand, decodeLine] at hd; split at hd <;> (try split at hd) <;> cases hd
      · exfalso; simp only [decode, decodeCommand, decodeLine] at hd; split at hd <;> (try split at hd) <;> cases hd
  · split at he
    · cases he
    · cases he; exact h.hostOperation (i := .count 0) hs (.inr ⟨_, _, rfl⟩)

/-- Every step carries the property on. -/
theorem StepInvariant.step (h : StepInvariant I) {s t : State} (hs : I s.todo s) (he : Machine.step s = .next t) :
    I t.todo t := by
  unfold Machine.step agentsStep at he
  split at he
  · rename_i m rest hev
    have hs' : I s.todo { s with events := rest } := h.inputs s.todo s s.cmds rest hs
    cases m with
    | cpl r =>
      cases he
      have := h.completion { s with events := rest } r hs'
      rwa [completion_todo]
    | rst => cases he; exact h.reset _ hs'
    | present c =>
      simp only [agentMove, present] at he
      split at he
      · cases he; exact hs'
      · exact h.issueCommand hs' he
    | hostStore a v =>
      cases he
      have := h.store { s with events := rest } a v hs'
      rwa [hostStore_todo]
    | hostLook => cases he; exact hs'
  · unfold coreMove at he
    split at he
    · rename_i who rest ht
      rw [ht] at hs
      cases he
      unfold pollWait
      split
      · exact h.run (h.tick (h.answered _ _ _ hs ‹_›))
      · split
        · exact h.run (h.tick (h.gaveUp _ _ _ hs ‹_›))
        · exact h.tick (h.todo _ _ _ (h.polled _ _ _ hs))
    · rename_i rest ht
      rw [ht] at hs
      unfold execCode at he
      rw [decode_headCode] at he
      cases he
      exact h.run (h.todo _ _ _ (h.count _ _ _ hs))
    · rename_i rest ht
      rw [ht] at hs
      split at he
      · cases he; exact h.run (h.recordsEnd _ _ hs ‹_›)
      · unfold execCode at he
        rw [decode_recordCode] at he
        cases he
        rw [ht]
        exact h.run (h.record _ _ _ _ _ _ hs ‹_› (romBytes_length _ _ _))
    · rename_i m rest _ _ _ ht
      rw [ht] at hs
      cases he
      exact h.run hs
    · rename_i ht
      split at he
      · cases he; exact h.tick hs
      · split at he
        · rename_i cs _
          exact h.issueCommand (s := { s with cmds := cs }) (h.inputs s.todo s cs s.events hs) he
        · cases he; exact h.tick hs

end Sys2Proof.Machine
end

