-- ==== Sys2Proof/Tests/Slice0.lean ====
section
/-!
SUPPORT. Tests. Expected values come from spec/ (the vector or rule is named with each test). After them, for every statement of Obligations.lean with
hypotheses, a theorem `witness_<name>` that shows a state and operands meeting all of them together.
-/

namespace Sys2Proof.Tests

open Sys2Proof.Machine

/-! ### Small states -/

/-- The configuration of the vectors of 95_test_vectors.md: parallel, without the serial engine. -/
def cfgP : Config := { Config.initial with steFitted := false }

/-- The same with the engine. -/
def cfgE : Config := { Config.initial with steFitted := true }

/-- A serial build that gives up after 2 polls (vector F13). -/
def cfgS : Config := { Config.initial with busMode := .serial, timeoutPolls := some 2 }

/-- The machine after reset in a given configuration. -/
def fresh (c : Config) : State := State.resetWith c [] [] [] []

/-- The machine with the lines as an `INIT` on the empty table leaves them (2.2). -/
def driven (c : Config) : State := { fresh c with pinDir := allOutputs c }

/-- Inside `INIT`, at a record boundary with one record to go. -/
def atRecord (c : Config) (bytes : List Byte) : State :=
  { fresh c with
    rom := placeBytes bytes 0x1001 [], ptr := 0x1001, recs := 1, busy := true, seqState := .applyingRecord,
    todo := [.records, .seq .done, .opEnd 0x0] }

/-- Inside `INIT`, at the table head. -/
def atHead (c : Config) (bytes : List Byte) : State :=
  { fresh c with
    rom := placeBytes bytes 0x1000 [], ptr := 0x1000, busy := true, todo := [.tableHead, .records, .seq .done, .opEnd 0x0] }

/-- In a completion wait. -/
def waiting (c : Config) (who : Waiter) (rest : List Micro) : State :=
  { fresh c with busy := true, pending := true, todo := .poll who :: rest }

/-- What a step shows of its next state. -/
def shows (o : Host.Outcome State Fault Refusal) (f : State → α) : Option α :=
  match o with
  | .next t => some (f t)
  | _ => none

/-- Ports with only `host_a`. -/
abbrev portA (a : Word) : Ports := ⟨a, 0, 0⟩

/-! ### Well-formedness -/

theorem test_wellFormed_refuses_short_record : (Instr.record 0x02 0x00 0x3A [0x55]).wellFormed = false := by decide
theorem test_wellFormed_refuses_long_record : (Instr.record 0x00 0x00 0x3A [0x55]).wellFormed = false := by decide
theorem test_wellFormed_refuses_setln_14 : (Instr.setln (portA 0x000E)).wellFormed = false := by decide
theorem test_wellFormed_refuses_clrln_15 : (Instr.clrln (portA 0x000F)).wellFormed = false := by decide
theorem test_wellFormed_refuses_cfgdir_14 : (Instr.cfgdir (portA 0xFFFE)).wellFormed = false := by decide
theorem test_wellFormed_takes_id_13 : (Instr.setln (portA 0x001D)).wellFormed = true := by decide

/-! ### Decoding: words written out from 30_encoding.md R60, R61, R66, R67, R71 -/

theorem test_decode_count : decode (.head [0b00000101, 0x00]) = .instr (.count 5) [0x00] := by decide
/-- R71 (b): `01 00 3A 55`. -/
theorem test_decode_record : decode (.boundary [0x01, 0x00, 0x3A, 0x55, 0x77]) = .instr (.record 1 0 0x3A [0x55]) [0x77] := by decide
theorem test_decode_init : decode (.command ⟨0b0000, ⟨1, 2, 3⟩⟩) = .instr (.init ⟨1, 2, 3⟩) [] := by decide
theorem test_decode_txcmd : decode (.command ⟨0b0001, portA 0x2C⟩) = .instr (.txcmd (portA 0x2C)) [] := by decide
theorem test_decode_txdat : decode (.command ⟨0b0010, portA 0xF8⟩) = .instr (.txdat (portA 0xF8)) [] := by decide
theorem test_decode_delay : decode (.command ⟨0b0011, portA 120⟩) = .instr (.delay (portA 120)) [] := by decide
theorem test_decode_xfer :
    decode (.command ⟨0b0100, ⟨0x0200, 0x0300, 2⟩⟩) = .instr (.xfer ⟨0x0200, 0x0300, 2⟩) [] := by decide
theorem test_decode_setln : decode (.command ⟨0b0101, portA 1⟩) = .instr (.setln (portA 1)) [] := by decide
theorem test_decode_clrln : decode (.command ⟨0b0110, portA 1⟩) = .instr (.clrln (portA 1)) [] := by decide
theorem test_decode_cfgdir : decode (.command ⟨0b0111, ⟨4, 1, 0⟩⟩) = .instr (.cfgdir ⟨4, 1, 0⟩) [] := by decide
theorem test_decode_reserved_op : decode (.command ⟨0b1000, portA 0⟩) = .reject (.reservedOp 8) := by decide
theorem test_decode_reserved_id : decode (.command ⟨0b0101, portA 0x000F⟩) = .reject (.reservedSignal 5 15) := by decide

/-- The opcode table's numbering: the first byte of a record is bits 7:0. -/
theorem test_tableWord_record : decodeTableWord 24 0x119600 = some (.record 0x00 0x96 0x11 []) := by decide +kernel
theorem test_tableWord_xfer : decodeTableWord 8 0x4 = some (.xfer ⟨0, 0, 0⟩) := by decide
theorem test_tableWord_count : decodeTableWord 8 0x15 = some (.count 0x15) := by decide
/-- A placed record runs as the first instruction after reset: its opcode reaches the data latches. -/
theorem test_placed_record_runs : shows (step (State.reset.withFetchWord 24 0x119600)) (fun t => (t.opc, t.dly, t.data)) = some (0x11, 0x96, 0x11) := by
  decide +kernel
/-- A placed host command runs as the first instruction after reset (vector X1's first events). -/
theorem test_placed_xfer_runs :
    shows (step (State.reset.withFetchWord 8 0x4)) (fun t => t.trace.take 3) = some [.opStart 4 0 0 0, .pin .msel false, .delayUs 5] := by
  decide

/-! ### Single steps -/

/-- R83's example: count 5. -/
theorem test_count_loads :
    shows (step (atHead cfgP [0x05])) (fun t => (t.recs, t.ptr, t.seqState, t.trace))
      = some (5, 0x1001, .applyingRecord, [.romRd 0x1000 5]) := by decide
/-- Vector S7: the cursor wraps. -/
theorem test_count_wraps : shows (exec (.count 1) { atRecord cfgP [] with ptr := 0xFFFF }) (fun t => (t.recs, t.ptr)) = some (1, 0) := by decide
/-- Vector S3: end `PTR`, `OPC`, `PIN_OUT`. -/
theorem test_record_applied :
    shows (step (atRecord cfgP [0x01, 0x00, 0x3A, 0x55])) (fun t => (t.ptr, t.opc, t.pinOut, t.recs)) = some (0x1005, 0x3A, 0x0ABF, 0) := by decide
/-- R84's example: the events of the record. -/
theorem test_record_trace :
    shows (step (atRecord cfgP [0x01, 0x00, 0x3A, 0x55])) (·.trace)
      = some [.romRd 0x1001 1, .romRd 0x1002 0, .romRd 0x1003 0x3A,
          .pin .cs false, .pin .dc false, .bus 0x3A, .pin .wr false, .pin .wr true, .pin .dc true, .pin .cs true, .romRd 0x1004 0x55,
          .pin .cs false, .pin .dc true, .bus 0x55, .pin .wr false, .pin .wr true, .pin .dc true, .pin .cs true, .delayMs 0] := by decide
/-- Vector S1: `ERST` has 23 events; the directions are 0x1FFF. -/
theorem test_init_resets :
    shows (exec (.init (portA 0)) (fresh cfgP)) (fun t => (t.trace.length, t.pinDir, t.pinOut, t.ptr)) = some (24, 0x1FFF, 0x001F, 0x1000) := by decide
/-- Vector V1c: rejected, nothing moves. -/
theorem test_init_rejects :
    shows (exec (.init (portA 0)) { fresh { cfgP with validate := true, tblLen := 4 } with rom := placeBytes [0x01, 0x01, 0x96, 0x11] 0x1000 [] })
      (fun t => (t.trace, t.status, t.pinDir)) = some ([.opStart 0 0 0 0, .opEnd 0 .tableFormat], 0x10, 0) := by decide
/-- Vector F6: the upper byte of `host_a` is ignored. -/
theorem test_txcmd_upper_byte : shows (exec (.txcmd (portA 0xAB11)) (driven cfgP)) (·.pinOut) = some 0x023F := by decide
/-- Vector F8: WR left low; exactly one item. -/
theorem test_txcmd_strobe_low :
    shows (exec (.txcmd (portA 0x2C)) { driven cfgP with pinOut := 0x0017 }) (fun t => (t.pinOut, panelFrom cfgP ⟨0x0017, 0x1FFF⟩ t.trace))
      = some (0x059F, [.lat false 0x2C]) := by decide
/-- Vector F7: DC left low. -/
theorem test_txdat_dc_low :
    shows (exec (.txdat (portA 0x0F)) { driven cfgP with pinOut := 0x001B }) (fun t => (t.pinOut, panelFrom cfgP ⟨0x001B, 0x1FFF⟩ t.trace))
      = some (0x01FF, [.lat true 0x0F]) := by decide
/-- Vector F13: the last step of a timed-out `TXDAT`. -/
theorem test_txdat_timeout :
    shows (step { waiting cfgS .txdat [.serRx, .pin .dc true, .pin .cs true, .opEnd 2] with polls := 2, pinOut := 0x201D })
      (fun t => (t.trace, t.result, t.polls, t.pending, t.pinOut))
      = some ([.timeout, .pin .dc true, .pin .cs true, .opEnd 2 .transportTimeout], .transportTimeout, 2, true, 0x201F) := by decide
/-- Vector P-17. -/
theorem test_delay_longest : shows (exec (.delay (portA 0xFFFF)) (fresh cfgP)) (fun t => (t.trace[1]?, t.busy)) = some (some (.delayMs 65535), false) := by decide
/-- Vector X1. -/
theorem test_xfer_no_bytes :
    shows (exec (.xfer ⟨0x0200, 0x0300, 0⟩) (fresh cfgE)) (fun t => (t.trace, t.idx))
      = some ([.opStart 4 0x0200 0x0300 0, .pin .msel false, .delayUs 5, .pin .msel true, .delayUs 5, .opEnd 4 .ok], 0) := by decide
/-- Vector X2, the last step: the answer is stored in place. -/
theorem test_xfer_stores :
    shows (step { waiting cfgE .xfer [.storeRx 0x0200, .xferLoop 0x0200 0x0200 1, .pin .msel true, .delayUs 5, .opEnd 4] with
        rxhold := 0x42, xdone := true, pending := false, dmem := [(0x0200, 0x9F)] })
      (fun t => (t.dmem, t.idx, t.busy)) = some ([(0x0200, 0x42)], 1, false) := by decide
/-- Vector P-12: the identifier is `host_a[3:0]`; the write is recorded although nothing changes. -/
theorem test_setln_id_bits : shows (exec (.setln (portA 0x0013)) (fresh cfgP)) (fun t => (t.trace[1]?, t.pinOut)) = some (some (.pin .wr true), 0x001F) := by decide
/-- Vector P-5. -/
theorem test_setln_d7 : shows (exec (.setln (portA 12)) (fresh cfgP)) (fun t => (t.pinOut, t.data)) = some (0x101F, 0x80) := by decide
/-- Vector P-1. -/
theorem test_clrln_cs : shows (exec (.clrln (portA 1)) (fresh cfgP)) (fun t => (t.pinOut, t.level .cs)) = some (0x001D, none) := by decide
/-- Vectors P-13 and P-14. -/
theorem test_clrln_msel :
    (shows (exec (.clrln (portA 13)) (fresh cfgP)) (·.pinOut), shows (exec (.clrln (portA 13)) (fresh cfgE)) (·.pinOut)) = (some 0x001F, some 0x001F) := by
  decide
/-- Vector P-9: only bit 0 of `host_b`. -/
theorem test_cfgdir_bit0 : shows (exec (.cfgdir ⟨4, 0xFFFF, 0⟩) (fresh cfgP)) (fun t => (t.trace[1]?, t.pinDir)) = some (some (.dir .rd true), 0x0010) := by
  decide
/-- Vector P-10, second operation: the line floats again. -/
theorem test_cfgdir_input :
    shows (exec (.cfgdir ⟨3, 0xFFFE, 0⟩) { fresh cfgP with pinDir := 0x0008 }) (fun t => (t.pinDir, t.level .wr)) = some (0, none) := by decide
/-- Vector P-18. -/
theorem test_reserved_op :
    shows (step { fresh cfgP with cmds := [⟨9, ⟨1, 2, 3⟩⟩] }) (fun t => (t.trace, t.pinOut)) = some ([.opStart 9 1 2 3, .opEnd 9 .ok], 0x001F) := by decide
/-- Vector X10: no spurious completion. -/
theorem test_no_spurious_completion : shows (step { fresh cfgE with events := [⟨0, .cpl 0xEE⟩] }) (fun t => (t.xdone, t.trace)) = some (false, []) := by decide
/-- Vector X6: the late completion. -/
theorem test_late_completion :
    shows (step { fresh cfgE with pending := true, events := [⟨0, .cpl 0xEE⟩] }) (fun t => (t.rxhold, t.xdone, t.pending)) = some (0xEE, true, false) := by decide
/-- Vector E3: `rst` in a hang. -/
theorem test_reset_in_hang :
    shows (step { waiting cfgE .xfer [.opEnd 4] with pinOut := 0x001F, trace := [.flagClr], events := [⟨0, .rst⟩] })
      (fun t => (t.busy, t.pending, t.pinDir, t.pinOut, t.trace)) = some (false, false, 0, 0x201F, []) := by decide
/-- Vector E5: STATUS 0x05 while the delay of a record runs. -/
theorem test_status_settling : ({ fresh cfgP with busy := true, seqState := .awaitingSettle } : State).status = 0x05 := by decide
/-- Vector E8: STATUS 0x20. -/
theorem test_status_xdone : ({ fresh cfgE with xdone := true } : State).status = 0x20 := by decide
/-- R71 (e): the walk needs 5 bytes. -/
theorem test_tableLen : tableLen (placeBytes [0x01, 0x01, 0x96, 0x11] 0x1000 []) 0x1000 = 5 := by decide
theorem test_reset_meets_invariants : (State.reset.memoriesOk && State.reset.controlOk && State.reset.buildOk) = true := by decide

/-! ### Witnesses: for each statement with hypotheses, each clause -/

/-- An idle machine that will issue one command. -/
def issuing (c : Config) (cmd : HostCmd) : State := { fresh c with cmds := [cmd] }

/-- The configurations with the option `refuse`. -/
def refusing (c : Config) : Config := { c with refuse := true }

theorem witness_BlockResetLoadsEveryRegister : ({ fresh cfgS with pinOut := 0, busy := true, events := [⟨0, .rst⟩] } : State).events = ⟨0, .rst⟩ :: [] := by decide

theorem witness_DecodeOfEncodeIsIdentity :
    (Instr.record 1 0 0x3A [0x55]).WellFormed ∧ (Instr.setln (portA 0xFFFD)).WellFormed ∧ (Instr.cfgdir (portA 0)).WellFormed := by decide

theorem witness_DecodedCodeIsItsEncoding : decode (.boundary [0, 0x96, 0x11, 0x77]) = .instr (.record 0 0x96 0x11 []) [0x77] := by decide

theorem witness_ReservedCommandsAreRejected :
    8 ≤ (HostCmd.mk 8 (portA 0)).op.toNat ∧ 8 ≤ (HostCmd.mk 15 (portA 0)).op.toNat
      ∧ (5 ≤ (HostCmd.mk 5 (portA 14)).op.toNat ∧ (HostCmd.mk 5 (portA 14)).op.toNat ≤ 7 ∧ 14 ≤ (portA 14).a.toNat % 16)
      ∧ (5 ≤ (HostCmd.mk 7 (portA 15)).op.toNat ∧ (HostCmd.mk 7 (portA 15)).op.toNat ≤ 7 ∧ 14 ≤ (portA 15).a.toNat % 16)
      ∧ (HostCmd.mk 4 (portA 15)).op.toNat ≤ 4 ∧ ((HostCmd.mk 7 (portA 13)).op.toNat ≤ 7 ∧ (portA 13).a.toNat % 16 < 14) := by decide

theorem witness_WorkedEncodingsDecode : Memory.wf [(0x1004, 0x7E)] = true ∧ ({ cfgP with tblLen := 4 } : Config).tblLen = 4 := by decide

theorem witness_AssembledTableIsWellFormed :
    assemble (.lines [⟨0x11, [], 150⟩]) = some [0x01, 0x00, 0x96, 0x11] ∧ Memory.wf [] = true
      ∧ ({ cfgP with tblBase := 0xFFFC, tblLen := 4 } : Config).tblBase.toNat + [0x01, 0x00, 0x96, 0x11].length ≤ 65536
      ∧ ({ cfgP with tblBase := 0xFFFC, tblLen := 4 } : Config).tblLen = [0x01, 0x00, 0x96, 0x11].length := by decide

theorem witness_StepExecutesTheHostCommand :
    let s := issuing cfgE ⟨4, ⟨0x0200, 0x0300, 2⟩⟩
    Idle s ∧ due s = false ∧ s.cmds = [⟨4, ⟨0x0200, 0x0300, 2⟩⟩]
      ∧ decode (.command ⟨4, ⟨0x0200, 0x0300, 2⟩⟩) = .instr (.xfer ⟨0x0200, 0x0300, 2⟩) []
      ∧ admission s (.xfer ⟨0x0200, 0x0300, 2⟩) = none := by decide

theorem witness_StepExecutesTheTableInstruction :
    (due (atHead cfgP [1]) = false ∧ (atHead cfgP [1]).todo.head? = some .tableHead)
      ∧ (due (atRecord cfgP [0, 0, 0x29]) = false ∧ (atRecord cfgP [0, 0, 0x29]).todo.head? = some .records
          ∧ (atRecord cfgP [0, 0, 0x29]).recs ≠ 0) := by decide

theorem witness_ReservedCommandHasNoEffect :
    ([0x55, 0xAA] : List Byte).length = (2 : Byte).toNat
      ∧ (let s := issuing cfgP ⟨8, portA 0⟩
         Idle s ∧ Quiet s ∧ s.cmds = [⟨8, portA 0⟩] ∧ s.cfg.refuse = false ∧ 8 ≤ (HostCmd.mk 8 (portA 0)).op.toNat)
      ∧ (let s := issuing cfgE ⟨5, portA 14⟩
         Idle s ∧ Quiet s ∧ s.cfg.refuse = false ∧ 5 ≤ (HostCmd.mk 5 (portA 14)).op.toNat ∧ 14 ≤ (portA 14).a.toNat % 16)
      ∧ (let s := issuing cfgP ⟨7, portA 13⟩
         Idle s ∧ Quiet s ∧ s.cfg.refuse = false ∧ (portA 13).a.toNat % 16 = 13 ∧ s.cfg.hasSte = false)
      ∧ (let s := issuing cfgP ⟨4, portA 0⟩
         Idle s ∧ Quiet s ∧ s.cfg.refuse = false ∧ (HostCmd.mk 4 (portA 0)).op.toNat = 4 ∧ s.cfg.hasSte = false) := by decide

theorem witness_EveryStepGoesOn : (fresh cfgP).cfg.refuse = false := by decide

theorem witness_RefuseOptionRefusesByName :
    (let s := issuing (refusing cfgP) ⟨8, portA 0⟩
     Idle s ∧ Quiet s ∧ s.cmds = [⟨8, portA 0⟩] ∧ s.cfg.refuse = true ∧ 8 ≤ (HostCmd.mk 8 (portA 0)).op.toNat)
      ∧ (let s := issuing (refusing cfgE) ⟨6, portA 15⟩
         Idle s ∧ Quiet s ∧ s.cfg.refuse = true ∧ 5 ≤ (HostCmd.mk 6 (portA 15)).op.toNat ∧ 14 ≤ (portA 15).a.toNat % 16)
      ∧ (let s := issuing (refusing cfgP) ⟨7, portA 13⟩
         Idle s ∧ Quiet s ∧ s.cfg.refuse = true ∧ (portA 13).a.toNat % 16 = 13 ∧ s.cfg.hasSte = false)
      ∧ (let s := issuing (refusing cfgP) ⟨4, portA 0⟩
         Idle s ∧ Quiet s ∧ s.cfg.refuse = true ∧ s.cfg.hasSte = false)
      ∧ (let s := { issuing (refusing cfgE) ⟨4, portA 0⟩ with pending := true }
         Idle s ∧ Quiet s ∧ s.cfg.refuse = true ∧ s.cfg.hasSte = true ∧ s.pending = true)
      ∧ (let s := { issuing (refusing cfgS) ⟨2, portA 0⟩ with pending := true }
         Idle s ∧ Quiet s ∧ s.cfg.refuse = true ∧ s.cfg.busMode = .serial ∧ s.pending = true ∧ (HostCmd.mk 2 (portA 0)).op.toNat ≤ 2) := by decide

theorem witness_CommandWhileBusyIsIgnored :
    (let s := { waiting cfgE .xfer [.opEnd 4] with events := [⟨0, .present ⟨1, portA 0x11⟩⟩] }
     s.busy = true ∧ s.events = [⟨0, .present ⟨1, portA 0x11⟩⟩])
      ∧ ((waiting cfgE .xfer [.opEnd 4]).busy = true ∧ (Instr.txcmd (portA 0x11)).hostOp ≠ none) := by decide

/-- Idle, undisturbed and parallel: for the two framers, the panel, `DELAY` and the line operations. -/
theorem witness_parallel : Idle (fresh cfgP) ∧ Quiet (fresh cfgP) ∧ (fresh cfgP).cfg.busMode = .parallel := by decide
theorem witness_TxcmdSendsCommandByte : Idle (fresh cfgP) ∧ Quiet (fresh cfgP) ∧ (fresh cfgP).cfg.busMode = .parallel := witness_parallel
theorem witness_TxdatSendsDataByte : Idle (fresh cfgP) ∧ Quiet (fresh cfgP) ∧ (fresh cfgP).cfg.busMode = .parallel := witness_parallel

theorem witness_SerialFramersSendAndWait : Idle (fresh cfgS) ∧ Quiet (fresh cfgS) ∧ (fresh cfgS).cfg.busMode = .serial := by decide

theorem inTime_of_all {c : Config} {n : Nat} {answers : List Answer} (hc : c.timeoutPolls = some n) (h : answers.all (fun x => decide (x.1 ≤ n)) = true) :
    inTime c answers := fun m hm x hx => by
  cases hc.symm.trans hm
  simpa using List.all_eq_true.mp h x hx

theorem witness_SerialFramersCompleteWhenAnswered :
    let s := { issuing cfgS ⟨2, portA 0x77⟩ with events := [⟨2 + 5, .cpl 0x66⟩] }
    Idle s ∧ s.events = [⟨2 + 5, .cpl 0x66⟩] ∧ s.cmds = [⟨2, portA 0x77⟩] ∧ s.cfg.busMode = .serial ∧ s.cfg.refuse = false
      ∧ inTime s.cfg [(2, 0x66)] ∧ ((HostCmd.mk 2 (portA 0x77)).op = 0x1 ∨ (HostCmd.mk 2 (portA 0x77)).op = 0x2) :=
  ⟨by decide, by decide, by decide, by decide, by decide, inTime_of_all (n := 2) rfl (by decide), by decide⟩

/-- A wait of each kind at its limit. -/
def atLimit (who : Waiter) : State := { waiting cfgS who [.opEnd who.op] with polls := 2 }

theorem witness_SerialFramerTimeout :
    (Quiet (atLimit .txcmd) ∧ (atLimit .txcmd).xdone = false ∧ (atLimit .txcmd).cfg.timeoutPolls = some 2 ∧ 2 ≤ (atLimit .txcmd).polls
        ∧ (atLimit .txcmd).todo = .poll .txcmd :: [.opEnd 1])
      ∧ (Quiet (atLimit .txdat) ∧ (atLimit .txdat).xdone = false ∧ (atLimit .txdat).cfg.timeoutPolls = some 2 ∧ 2 ≤ (atLimit .txdat).polls
        ∧ (atLimit .txdat).todo = .poll .txdat :: [.opEnd 2]) := by decide

theorem witness_PanelReceivesExactlyOneByte :
    (Idle (driven cfgP) ∧ Quiet (driven cfgP) ∧ (driven cfgP).cfg.busMode = .parallel ∧ (driven cfgP).busDriven = true)
      ∧ (Idle (fresh cfgP) ∧ Quiet (fresh cfgP) ∧ (fresh cfgP).cfg.busMode = .parallel ∧ (fresh cfgP).busDriven = false) := by decide

theorem witness_FramersLeaveTheRestAlone :
    (∃ t, exec (.txcmd (portA 0x11)) (fresh cfgP) = .next t ∧ (fresh cfgP).cfg.busMode = .parallel)
      ∧ ∃ t, exec (.txdat (portA 0x55)) (fresh cfgS) = .next t ∧ (fresh cfgS).cfg.busMode = .serial := ⟨⟨_, rfl, rfl⟩, _, rfl, rfl⟩

/-- Both clauses of the three line operations, at the identifiers 0, 13 (existing and missing), 14 and 15. -/
theorem witness_line_operations :
    (Idle (fresh cfgE) ∧ Quiet (fresh cfgE) ∧ (portA 0xFFF0).a.toNat % 16 = Signal.id .reset ∧ lineExists (fresh cfgE).cfg .reset = true)
      ∧ ((portA 13).a.toNat % 16 = Signal.id .msel ∧ lineExists (fresh cfgE).cfg .msel = true)
      ∧ (Idle (fresh cfgP) ∧ Quiet (fresh cfgP) ∧ (portA 13).a.toNat % 16 = 13 ∧ (fresh cfgP).cfg.hasSte = false)
      ∧ 14 ≤ (portA 14).a.toNat % 16 ∧ 14 ≤ (portA 0xFFFF).a.toNat % 16 := by decide
theorem witness_SetlnRaisesOneLatch :
    (Idle (fresh cfgE) ∧ Quiet (fresh cfgE) ∧ (portA 13).a.toNat % 16 = Signal.id .msel ∧ lineExists (fresh cfgE).cfg .msel = true)
      ∧ (Idle (fresh cfgP) ∧ Quiet (fresh cfgP) ∧ 14 ≤ (portA 14).a.toNat % 16) ∧ (portA 13).a.toNat % 16 < 14 := by decide
theorem witness_ClrlnLowersOneLatch :
    (Idle (fresh cfgE) ∧ Quiet (fresh cfgE) ∧ (portA 12).a.toNat % 16 = Signal.id .d7 ∧ lineExists (fresh cfgE).cfg .d7 = true)
      ∧ (Idle (fresh cfgP) ∧ Quiet (fresh cfgP) ∧ (portA 13).a.toNat % 16 = 13 ∧ (fresh cfgP).cfg.hasSte = false) ∧ (portA 13).a.toNat % 16 < 14
      ∧ ((portA 0x0010).a.toNat % 16 = Signal.id .reset ∧ lineExists (fresh cfgE).cfg .reset = true) := by decide
theorem witness_CfgdirSetsOneDirection :
    (Idle (fresh cfgP) ∧ Quiet (fresh cfgP) ∧ (portA 0).a.toNat % 16 = Signal.id .reset ∧ lineExists (fresh cfgP).cfg .reset = true)
      ∧ (Idle (fresh cfgP) ∧ Quiet (fresh cfgP) ∧ 14 ≤ (portA 15).a.toNat % 16) ∧ (portA 13).a.toNat % 16 < 14 := by decide

theorem witness_XferWithoutEngineHasNoEffect : Idle (fresh cfgP) ∧ Quiet (fresh cfgP) ∧ (fresh cfgP).cfg.hasSte = false := by decide
theorem witness_DelayRecordsItsMilliseconds : Idle (fresh cfgS) ∧ Quiet (fresh cfgS) := by decide

theorem witness_LineOperationsLeaveTheRestAlone :
    (∃ t, exec (.setln (portA 5)) (fresh cfgP) = .next t) ∧ (∃ t, exec (.clrln (portA 14)) (fresh cfgP) = .next t)
      ∧ (∃ t, exec (.cfgdir ⟨1, 1, 0⟩) (fresh cfgP) = .next t) ∧ ∃ t, exec (.delay (portA 9)) (waiting cfgE .xfer []) = .next t :=
  ⟨⟨_, rfl⟩, ⟨_, rfl⟩, ⟨_, rfl⟩, _, rfl⟩

/-- Vector P-10: a direction bit that falls. -/
theorem witness_OnlyCfgdirClearsADirection :
    (∃ t, step { issuing cfgP ⟨7, ⟨3, 0, 0⟩⟩ with pinDir := 0x0008 } = .next t ∧ t.dir .wr = false)
      ∧ ({ issuing cfgP ⟨7, ⟨3, 0, 0⟩⟩ with pinDir := 0x0008 } : State).dir .wr = true := ⟨⟨_, rfl, by decide⟩, by decide⟩

/-- An `INIT` that the validator accepts, one that has no validator, and one that it rejects. -/
theorem witness_InitResetsThePanel :
    (Idle (fresh cfgP) ∧ Quiet (fresh cfgP) ∧ (fresh cfgP).cfg.validate = false)
      ∧ (let s := fresh { cfgE with validate := true, tblLen := 1 }
         Idle s ∧ Quiet s ∧ s.cfg.validate = true ∧ tableWellFormed s.rom s.cfg = true) := by decide
theorem witness_InitRejectsIllFormedTable :
    let s := fresh { cfgP with validate := true, tblLen := 0 }
    Idle s ∧ Quiet s ∧ s.cfg.validate = true ∧ tableWellFormed s.rom s.cfg = false := by decide

theorem witness_CountLoadsRecs :
    (Quiet (atRecord cfgP []) ∧ (atRecord cfgP []).todo = .records :: [.seq .done, .opEnd 0x0])
      ∧ (Quiet (atHead cfgP [0xFF]) ∧ (atHead cfgP [0xFF]).todo = .tableHead :: .records :: [.seq .done, .opEnd 0x0]) := by decide

theorem witness_RecordIsApplied :
    let s := atRecord cfgP [0x02, 0x00, 0x2A, 0x01, 0xEF]
    Quiet s ∧ s.cfg.busMode = .parallel ∧ ([0x01, 0xEF] : List Byte).length = (2 : Byte).toNat ∧ s.todo = .records :: [.seq .done, .opEnd 0x0] := by decide
theorem witness_SerialRecordSendsItsOpcode : Quiet (atRecord cfgS [0, 0, 0x11]) ∧ (atRecord cfgS [0, 0, 0x11]).cfg.busMode = .serial := by decide

/-- A serial record with two arguments whose answers come after 0, 2 and 1 unsuccessful polls; its limit is 2. -/
def answered : State := { atRecord cfgS [0x02, 0x07, 0x2A, 0x01, 0xEF] with events := recordAnswers (0, 0xA0) [(2, 0xA1), (1, 0xA2)] }

theorem witness_SerialRecordCompletesWhenAnswered :
    answered.cfg.busMode = .serial ∧ answered.pending = false ∧ answered.todo = .records :: [.seq .done, .opEnd 0x0] ∧ answered.recs ≠ 0
      ∧ ([(2, 0xA1), (1, 0xA2)] : List Answer).length = (answered.romByte answered.ptr).toNat
      ∧ inTime answered.cfg [(0, 0xA0), (2, 0xA1), (1, 0xA2)] ∧ answered.events = recordAnswers (0, 0xA0) [(2, 0xA1), (1, 0xA2)] :=
  ⟨by decide, by decide, by decide, by decide, by decide, inTime_of_all (n := 2) rfl (by decide), rfl⟩

theorem witness_LoopEndsInDone :
    let s := { atRecord cfgP [] with recs := 0 }
    Quiet s ∧ s.todo = [.records, .seq .done, .opEnd 0x0] ∧ s.recs = 0 := by decide

theorem witness_AwaitingSettleShowsDuringTheDelay :
    let s := { atRecord cfgP [] with todo := [.settle, .settled, .records, .seq .done, .opEnd 0x0], events := [⟨1, .hostLook⟩] }
    s.todo = .settle :: .settled :: [.records, .seq .done, .opEnd 0x0] ∧ s.events = [⟨1, .hostLook⟩] := by decide

/-- Vector V1 with the validator on, and vector S9 before its first `INIT`. -/
def initV1 : State :=
  { fresh { cfgP with validate := true, tblLen := 4 } with
    rom := placeBytes [0x01, 0x00, 0x96, 0x11] 0x1000 [], cmds := [⟨0, portA 0⟩, ⟨0, portA 7⟩] }

theorem witness_whole_init :
    Idle initV1 ∧ Quiet initV1 ∧ initV1.cmds = ⟨0x0, portA 0⟩ :: ⟨0x0, portA 7⟩ :: [] ∧ initV1.cfg.busMode = .parallel
      ∧ initV1.cfg.validate = true ∧ tableWellFormed initV1.rom initV1.cfg = true := by decide
theorem witness_InitAppliesTheWholeTable :
    Idle initV1 ∧ Quiet initV1 ∧ initV1.cmds = ⟨0x0, portA 0⟩ :: [⟨0x0, portA 7⟩] ∧ initV1.cfg.busMode = .parallel
      ∧ (initV1.cfg.validate = true → tableWellFormed initV1.rom initV1.cfg = true) := by decide
theorem witness_InitDelaysAddUp :
    Idle initV1 ∧ Quiet initV1 ∧ initV1.cmds = ⟨0x0, portA 0⟩ :: [⟨0x0, portA 7⟩] ∧ initV1.cfg.busMode = .parallel
      ∧ (initV1.cfg.validate = true → tableWellFormed initV1.rom initV1.cfg = true) := witness_InitAppliesTheWholeTable
theorem witness_PanelSeesTheTableInOrder :
    Idle initV1 ∧ Quiet initV1 ∧ initV1.cmds = ⟨0x0, portA 0⟩ :: [⟨0x0, portA 7⟩] ∧ initV1.cfg.busMode = .parallel
      ∧ (initV1.cfg.validate = true → tableWellFormed initV1.rom initV1.cfg = true) := witness_InitAppliesTheWholeTable
theorem witness_InitIsIdempotent :
    Idle initV1 ∧ Quiet initV1 ∧ initV1.cmds = ⟨0x0, portA 0⟩ :: ⟨0x0, portA 7⟩ :: [] ∧ initV1.cfg.busMode = .parallel
      ∧ (initV1.cfg.validate = true → tableWellFormed initV1.rom initV1.cfg = true) := by decide

theorem witness_InitTimeout :
    Quiet (atLimit .init) ∧ (atLimit .init).xdone = false ∧ (atLimit .init).cfg.timeoutPolls = some 2 ∧ 2 ≤ (atLimit .init).polls
      ∧ (atLimit .init).todo = .poll .init :: [.opEnd 0] := by decide

theorem witness_SequencerLeavesTheRestAlone :
    ((fresh cfgP).todo = [] ∧ ∃ t, exec (.init (portA 0)) (fresh cfgP) = .next t ∧ (fresh cfgP).cfg.busMode = .parallel)
      ∧ ((∃ rest, (atRecord cfgS []).todo = .records :: rest) ∧ ∃ t, exec (.count 3) (atRecord cfgS []) = .next t)
      ∧ ((∃ rest, (atRecord cfgS []).todo = .records :: rest) ∧ ∃ t, exec (.record 0 0 0x29 []) (atRecord cfgS []) = .next t) :=
  ⟨⟨rfl, _, rfl, rfl⟩, ⟨⟨_, rfl⟩, _, rfl⟩, ⟨_, rfl⟩, _, rfl⟩

theorem witness_XferSendsItsFirstByte : Idle (fresh cfgE) ∧ Quiet (fresh cfgE) ∧ (fresh cfgE).cfg.hasSte = true ∧ (Ports.mk 0xFFFF 0 1).n ≠ 0 := by decide
theorem witness_XferOfNoBytes : Idle (fresh cfgE) ∧ Quiet (fresh cfgE) ∧ (fresh cfgE).cfg.hasSte = true ∧ (Ports.mk 0x0200 0x0300 0).n = 0 := by decide

/-- Vector V2, the answers after 0 and 3 unsuccessful polls, the limit 3. -/
def v2 : State :=
  { issuing { cfgE with timeoutPolls := some 3 } ⟨4, ⟨0x0200, 0x0300, 2⟩⟩ with
    dmem := [(0x0200, 0xAA), (0x0201, 0xBB)], events := xferAnswers [(0, 0x5A), (3, 0xC3)] }

theorem witness_XferExchangesTheBlockInOrder :
    Idle v2 ∧ v2.cmds = [⟨0x4, ⟨0x0200, 0x0300, 2⟩⟩] ∧ v2.cfg.hasSte = true ∧ v2.pending = false ∧ Memory.wf v2.dmem = true
      ∧ ([(0, 0x5A), (3, 0xC3)] : List Answer).length = (2 : Word).toNat ∧ inTime v2.cfg [(0, 0x5A), (3, 0xC3)]
      ∧ v2.events = xferAnswers [(0, 0x5A), (3, 0xC3)]
      ∧ (∀ i j, i < (2 : Word).toNat → j < (2 : Word).toNat → (0x0200 : Word) + BitVec.ofNat 16 i ≠ 0x0300 + BitVec.ofNat 16 j) :=
  ⟨by decide, by decide, by decide, by decide, by decide, by decide, inTime_of_all (n := 3) rfl (by decide), rfl, fun i j hi hj => by
    have hi' : i < 2 := hi
    have hj' : j < 2 := hj
    interval_cases i <;> interval_cases j <;> decide⟩

/-- Vector X2: the last byte of a block, and a byte that is not the last. -/
def storing (len : Word) : State :=
  { waiting cfgE .xfer (.storeRx (0x0200 + 0) :: .xferLoop 0x0200 0x0200 len :: [.pin .msel true, .delayUs 5, .opEnd 4]) with
    rxhold := 0x42, xdone := true, pending := false, dmem := [(0x0200, 0x9F)] }

theorem witness_XferStoresTheAnswer :
    (Quiet (storing 1) ∧ (storing 1).cfg.hasSte = true ∧ (storing 1).xdone = true
      ∧ (storing 1).todo = .poll .xfer :: .storeRx (0x0200 + (storing 1).idx) :: .xferLoop 0x0200 0x0200 1
          :: [.pin .msel true, .delayUs (storing 1).cfg.tMselUs, .opEnd 0x4]
      ∧ Memory.wf (storing 1).dmem = true ∧ (storing 1).idx + 1 = 1)
      ∧ (Quiet (storing 2) ∧ (storing 2).xdone = true
      ∧ (storing 2).todo = .poll .xfer :: .storeRx (0x0200 + (storing 2).idx) :: .xferLoop 0x0200 0x0200 2
          :: [.pin .msel true, .delayUs (storing 2).cfg.tMselUs, .opEnd 0x4]
      ∧ (storing 2).idx + 1 ≠ 2) := by decide

theorem witness_XferTimeout :
    Quiet (atLimit .xfer) ∧ (atLimit .xfer).cfg.hasSte = true ∧ (atLimit .xfer).xdone = false ∧ (atLimit .xfer).cfg.timeoutPolls = some 2
      ∧ 2 ≤ (atLimit .xfer).polls ∧ (atLimit .xfer).todo = .poll .xfer :: [.opEnd 4] := by decide

theorem witness_UnsuccessfulPollCounts :
    let s := { waiting cfgS .txcmd [.opEnd 1] with polls := 1 }
    Quiet s ∧ s.todo = .poll .txcmd :: [.opEnd 1] ∧ s.xdone = false ∧ ∀ n, s.cfg.timeoutPolls = some n → s.polls < n :=
  ⟨by decide, by decide, by decide, fun n h => by cases h; decide⟩

theorem witness_MissingCompletionHangs :
    let s := waiting cfgE .xfer [.opEnd 4]
    Quiet s ∧ s.todo = .poll .xfer :: [.opEnd 4] ∧ s.xdone = false ∧ s.cfg.timeoutPolls = none := by decide

theorem witness_CompletionFillsTheCell :
    (let s := { fresh cfgE with pending := true, events := [⟨0, .cpl 0xEE⟩] }
     s.events = [⟨0, .cpl 0xEE⟩] ∧ s.pending = true)
      ∧ (let s := { fresh cfgE with events := [⟨0, .cpl 0xEE⟩] }
         s.events = [⟨0, .cpl 0xEE⟩] ∧ s.pending = false) := by decide

/-- Each of the three fields changes in some step: the flag rises, the holder changes and the transfer ends with a completion. -/
theorem witness_OnlyCompletionFillsTheCell :
    (∃ t, step { fresh cfgE with pending := true, events := [⟨0, .cpl 0xEE⟩] } = .next t ∧ t.xdone = true ∧ t.rxhold ≠ 0 ∧ t.pending = false)
      ∧ (∃ t, step { fresh cfgE with pending := true, rxhold := 1, events := [⟨0, .rst⟩] } = .next t ∧ t.rxhold ≠ 1 ∧ t.pending = false)
      ∧ ∃ t, step { issuing cfgE ⟨4, ⟨0, 0, 1⟩⟩ with xdone := true } = .next t ∧ t.xdone = false :=
  ⟨⟨_, rfl, by decide⟩, ⟨_, rfl, by decide⟩, _, rfl, by decide⟩

theorem witness_XferLeavesTheRestAlone : ∃ t, exec (.xfer ⟨0x0200, 0x0300, 2⟩) (fresh cfgE) = .next t := ⟨_, rfl⟩

theorem witness_MemoriesStayCanonical : v2.memoriesOk = true ∧ ∃ t, step v2 = .next t := ⟨by decide, _, rfl⟩
theorem witness_ControlStaysLegal : (atRecord cfgP [0, 0, 0x29]).controlOk = true ∧ ∃ t, step (atRecord cfgP [0, 0, 0x29]) = .next t :=
  ⟨by decide, _, rfl⟩
theorem witness_BuildStaysConsistent : v2.buildOk = true ∧ ∃ t, step v2 = .next t := ⟨by decide, _, rfl⟩
theorem witness_RomAndParametersNeverChange : ∃ t, step initV1 = .next t := ⟨_, rfl⟩
theorem witness_TraceOnlyGrows :
    (∃ t, step v2 = .next t) ∧ ∃ t, step { v2 with events := [⟨0, .rst⟩] } = .next t := ⟨⟨_, rfl⟩, _, rfl⟩

/-- A byte that the host stores, and one that `XFER` stores. -/
theorem witness_DmemChangesOnlyByStores :
    (∃ t, step { fresh cfgP with events := [⟨0, .hostStore 0x0200 0x9F⟩] } = .next t ∧ t.dmemByte 0x0200 ≠ 0)
      ∧ ∃ t, step (storing 1) = .next t ∧ t.dmemByte 0x0200 ≠ (storing 1).dmemByte 0x0200 :=
  ⟨⟨_, rfl, by decide⟩, _, rfl, by decide⟩

theorem witness_MemoryReadsBack : Memory.wf (storing 1).dmem = true := by decide

end Sys2Proof.Tests
end

section
/-! PROOFS. The `STATUS` view as a number (10_state.md R29). -/

namespace Sys2Proof.Machine

/-- Concatenation is addition once the upper part is weighed by the width of the lower one. -/
theorem toNat_append_eq_add {m n : Nat} (hi : BitVec m) (lo : BitVec n) :
    (hi ++ lo).toNat = lo.toNat + 2 ^ n * hi.toNat := by
  rw [BitVec.toNat_append, ← Nat.shiftLeft_add_eq_or_of_lt lo.isLt, Nat.shiftLeft_eq]
  ring

@[simp] theorem flagBit_toNat (b : Bool) : (flagBit b).toNat = if b then 1 else 0 := by
  cases b <;> rfl

/-- The weights 1, 2, 8 and 32 of the four fields are the bit positions of R29. -/
theorem State.status_toNat (s : State) :
    s.status.toNat = (flagBit s.busy).toNat + 2 * s.seqState.code.toNat + 8 * s.result.code.toNat
      + 32 * (flagBit s.xdone).toNat := by
  simp only [State.status, toNat_append_eq_add]
  omega

/-- Settles O60: the positions are `State.status_toNat`; what remains is the number of each state (R15) and each result (R22). -/
theorem statusShowsItsFields : Obligations.StatusShowsItsFields := by
  intro s
  rw [State.status_toNat, flagBit_toNat, flagBit_toNat]
  congr 2
  · congr 2
    cases s.seqState <;> rfl
  · congr 1
    cases s.result <;> rfl

end Sys2Proof.Machine
end

section
/-! PROOFS. `COUNT` at the table head (40_sequencer.md R83). -/

namespace Sys2Proof.Machine

/-- The effect of the program of `COUNT`. -/
theorem straight_countProgram (c : Byte) (s : State) :
    straight (countProgram c) s = { s with
      recs := c, ptr := s.ptr + 1, seqState := .applyingRecord, trace := s.trace ++ [.romRd s.ptr c] } := rfl

/-- `COUNT`, undisturbed, runs to the record boundary that follows it in the program of `INIT` and stops there (40_sequencer.md R80, R83). -/
theorem exec_count {c : Byte} {rest : List Micro} {s : State} (hs : s.events = []) (ht : s.todo = .records :: rest) :
    exec (.count c) s = .next { s with
      recs := c, ptr := s.ptr + 1, seqState := .applyingRecord, trace := s.trace ++ [.romRd s.ptr c] } := by
  have hstraight : ∀ m ∈ countProgram c, m.stops = false := by simp [countProgram, Micro.stops]
  calc exec (.count c) s
      = .next (run (countProgram c ++ .records :: rest) s) := by rw [← ht]; rfl
    _ = .next { straight (countProgram c) s with todo := .records :: rest } := by
        rw [run_straight_stop rest hstraight rfl (by simp) hs]
    _ = _ := by rw [straight_countProgram, ← ht]

/-- At the table head a step executes `COUNT` with the byte at the cursor (40_sequencer.md R80). -/
theorem step_tableHead {s : State} {rest : List Micro} (hd : due s = false) (ht : s.todo = .tableHead :: rest) :
    step s = exec (.count (s.romByte s.ptr)) { s with todo := rest } := by
  rw [step_not_due hd]
  simp only [coreMove, ht, execCode, decode_headCode]

/-- Settles O31: `exec_count` is the first part; a step at the table head (`step_tableHead`) is that same `COUNT`, with the table head
taken from `todo`. -/
theorem countLoadsRecs : Obligations.CountLoadsRecs := by
  intro s c rest hs
  constructor
  · exact exec_count hs
  · intro ht
    rw [step_tableHead (due_quiet hs) ht]
    exact exec_count hs rfl

end Sys2Proof.Machine
end

section
/-! PROOFS. The signal operand of the line operations (10_state.md R11, 30_encoding.md R63, R69), and `SETLN` and `CLRLN`
(42_pins_delay.md R133, R134). -/

namespace Sys2Proof.Machine

/-! The signal operand. -/

/-- `host_a[3:0]` as a number. -/
theorem signalField_toNat (p : Ports) : (signalField p).toNat = p.a.toNat % 16 := by
  simp [signalField, BitVec.extractLsb'_toNat]

theorem Signal.ofId_eq_some_iff {id : BitVec 4} {sig : Signal} : Signal.ofId id = some sig ↔ id.toNat = sig.id := by
  constructor
  · intro h
    unfold Signal.ofId at h
    split at h <;> cases h <;> assumption
  · intro h
    have hid : id = BitVec.ofNat 4 sig.id := by rw [← h, BitVec.ofNat_toNat, BitVec.setWidth_eq]
    rw [hid, Signal.ofId_id]

/-- The operand names a line exactly when its identifier is that line's and the line exists. -/
theorem signalOperand_eq_some_iff {c : Config} {p : Ports} {sig : Signal} :
    signalOperand c p = some sig ↔ p.a.toNat % 16 = sig.id ∧ lineExists c sig = true := by
  rw [signalOperand, Option.filter_eq_some_iff, Signal.ofId_eq_some_iff, signalField_toNat]

/-- A reserved identifier names no line: 14 and 15 always, 13 without `HAS_STE` (30_encoding.md R69). -/
theorem signalOperand_reserved {c : Config} {p : Ports}
    (h : 14 ≤ p.a.toNat % 16 ∨ (p.a.toNat % 16 = 13 ∧ c.hasSte = false)) : signalOperand c p = none := by
  rw [Option.eq_none_iff_forall_ne_some]
  intro sig hs
  obtain ⟨hid, hex⟩ := signalOperand_eq_some_iff.mp hs
  rcases h with h14 | ⟨h13, hste⟩
  · have := sig.id_lt
    omega
  · have hm : sig = .msel := Signal.id_inj.mp (hid.symm.trans h13)
    rw [hm, lineExists_msel, hste] at hex
    cases hex

theorem lineAction_line {c : Config} {p : Ports} {sig : Signal} (act : Signal → Micro) (hid : p.a.toNat % 16 = sig.id)
    (hex : lineExists c sig = true) : lineAction c p act = [act sig] := by
  rw [lineAction, signalOperand_eq_some_iff.mpr ⟨hid, hex⟩]
  rfl

theorem lineAction_reserved {c : Config} {p : Ports} (act : Signal → Micro)
    (h : 14 ≤ p.a.toNat % 16 ∨ (p.a.toNat % 16 = 13 ∧ c.hasSte = false)) : lineAction c p act = [] := by
  rw [lineAction, signalOperand_reserved h]
  rfl

theorem decodeLine_of_id_lt {op : BitVec 4} {p : Ports} {i : Instr} (h : p.a.toNat % 16 < 14) : decodeLine op p i = .instr i [] := by
  have hok : p.idOk = true := decide_eq_true ((signalField_toNat p).trans_lt h)
  rw [decodeLine, if_pos hok]

/-! Host operations of an idle, undisturbed block. -/

/-- An operation with an empty program is its `OpStart`, its `OpEnd` and `RESULT = 0` (30_encoding.md R66). -/
theorem hostOperation_nil {op : BitVec 4} {p : Ports} {s : State} (hi : Idle s) (hq : Quiet s) :
    hostOperation op p [] s = { s with result := .ok, trace := s.trace ++ [.opStart op p.a p.b p.n, .opEnd op .ok] } := by
  obtain ⟨hb, ht⟩ := hi
  rw [hostOperation_straight hb hq (by simp)]
  simp [emit, endOperation, hb, ht]

/-- An operation whose program is one latch write (42_pins_delay.md R130). -/
theorem hostOperation_pin {op : BitVec 4} {p : Ports} {s : State} {sig : Signal} (v : Level) (hi : Idle s) (hq : Quiet s)
    (hex : lineExists s.cfg sig = true) :
    hostOperation op p [.pin sig v] s = { s with
      result := .ok, pinOut := setBit s.pinOut sig.id v,
      trace := s.trace ++ [.opStart op p.a p.b p.n, .pin sig v, .opEnd op .ok] } := by
  obtain ⟨hb, ht⟩ := hi
  rw [hostOperation_straight hb hq (by simp [Micro.stops])]
  simp [micro, pinWrite_eq, hex, emit, endOperation, hb, ht]

/-- What `SETLN` and `CLRLN` have in common: one latch write by the identifier, which changes the named latch and no other. -/
theorem hostOperation_latch {op : BitVec 4} {p : Ports} {s : State} {sig : Signal} (v : Level) (hi : Idle s) (hq : Quiet s)
    (hid : p.a.toNat % 16 = sig.id) (hex : lineExists s.cfg sig = true) :
    let t := hostOperation op p (lineAction s.cfg p fun line => .pin line v) s
    t = { s with
        result := .ok, pinOut := t.pinOut, trace := s.trace ++ [.opStart op p.a p.b p.n, .pin sig v, .opEnd op .ok] }
      ∧ t.out sig = v ∧ ∀ other, other ≠ sig → t.out other = s.out other := by
  rw [lineAction_line _ hid hex, hostOperation_pin v hi hq hex]
  refine ⟨rfl, ?_, fun other hne => ?_⟩
  · simp [State.out]
  · simp [State.out, hne]

/-- A line operation with a reserved identifier has no effect (30_encoding.md R69). -/
theorem hostOperation_reserved_line {op : BitVec 4} {p : Ports} {s : State} (act : Signal → Micro) (hi : Idle s) (hq : Quiet s)
    (h : 14 ≤ p.a.toNat % 16 ∨ (p.a.toNat % 16 = 13 ∧ s.cfg.hasSte = false)) :
    hostOperation op p (lineAction s.cfg p act) s =
      { s with result := .ok, trace := s.trace ++ [.opStart op p.a p.b p.n, .opEnd op .ok] } := by
  rw [lineAction_reserved act h, hostOperation_nil hi hq]

/-- `SETLN` is the host operation 0x5 of its latch write. -/
theorem exec_setln (p : Ports) (s : State) :
    exec (.setln p) s = .next (hostOperation 0x5 p (lineAction s.cfg p fun sig => .pin sig true) s) := rfl

/-- `CLRLN` is the host operation 0x6 of its latch write. -/
theorem exec_clrln (p : Ports) (s : State) :
    exec (.clrln p) s = .next (hostOperation 0x6 p (lineAction s.cfg p fun sig => .pin sig false) s) := rfl

@[simp] theorem State.pinView_outBit (s : State) (sig : Signal) : s.pinView.outBit sig = s.out sig := rfl
@[simp] theorem State.pinView_dirBit (s : State) (sig : Signal) : s.pinView.dirBit sig = s.dir sig := rfl

/-- The panel's view of a `CLRLN` of `RESET`: a hardware reset where the line falls and is driven (10_state.md R31). -/
theorem panelFrom_clear_reset (c : Config) (s : State) (op : BitVec 4) (a b n : Word) (r : Result) :
    panelFrom c s.pinView [.opStart op a b n, .pin .reset false, .opEnd op r]
      = if s.out .reset = true ∧ s.dir .reset = true then [.hwReset] else [] := by
  by_cases h : s.out .reset = true ∧ s.dir .reset = true <;>
    simp [panelFrom, panelItems, PinView.after, Polarity.resetAsserted, h]

/-- Settles O22: an existing line by `hostOperation_latch`, a reserved identifier by `hostOperation_reserved_line`. -/
theorem setlnRaisesOneLatch : Obligations.SetlnRaisesOneLatch := by
  intro s p hi hq
  refine ⟨fun sig hid hex => ?_, fun hr => ?_, fun hlt => ?_⟩
  · exact ⟨_, exec_setln p s, hostOperation_latch true hi hq hid hex⟩
  · rw [exec_setln, hostOperation_reserved_line _ hi hq hr]
  · exact decodeLine_of_id_lt hlt

/-- Settles O23: as O22 with the level 0, and `panelFrom_clear_reset` for the panel's `HwReset`. -/
theorem clrlnLowersOneLatch : Obligations.ClrlnLowersOneLatch := by
  intro s p hi hq
  refine ⟨fun sig hid hex => ?_, fun hr => ?_, fun hlt => ?_⟩
  · obtain ⟨hstate, hlow, hothers⟩ := hostOperation_latch (op := 0x6) false hi hq hid hex
    refine ⟨_, exec_clrln p s, hstate, hlow, hothers, ?_⟩
    rintro rfl
    exact panelFrom_clear_reset ..
  · rw [exec_clrln, hostOperation_reserved_line _ hi hq hr]
  · exact decodeLine_of_id_lt hlt

end Sys2Proof.Machine
end

section
/-! PROOFS. Decoding and encoding are inverse to each other (30_encoding.md R60, R61, R66, R67, R69), and what a fetch at a record
boundary yields (R64). -/

namespace Sys2Proof.Machine

/-! Host operation codes. -/

/-- A host operation code is one of the eight of R67, or reserved (R69). -/
theorem hostOp_cases (op : BitVec 4) :
    op = 0 ∨ op = 1 ∨ op = 2 ∨ op = 3 ∨ op = 4 ∨ op = 5 ∨ op = 6 ∨ op = 7 ∨ 8 ≤ op.toNat := by
  revert op; decide

/-- A code 0x8 to 0xF is rejected by name. -/
theorem decode_reservedOp {c : HostCmd} (h : 8 ≤ c.op.toNat) : decode (.command c) = .reject (.reservedOp c.op) := by
  simp only [decode, decodeCommand]
  split <;> first | omega | rfl

/-- The signal field as the low four bits of `host_a`. -/
theorem extract_eq_setWidth (x : Word) : x.extractLsb' 0 4 = x.setWidth 4 := by
  exact BitVec.eq_of_toNat_eq (by simp [BitVec.extractLsb'_toNat])

theorem idOk_iff (p : Ports) : p.idOk = true ↔ p.a.toNat % 16 < 14 := by
  rw [← signalField_toNat]
  exact decide_eq_true_iff

/-- The codes 5 to 7 are the line operations. -/
theorem lineOp_cases {op : BitVec 4} (h5 : 5 ≤ op.toNat) (h7 : op.toNat ≤ 7) : op = 5 ∨ op = 6 ∨ op = 7 := by
  revert op; decide

/-- A line operation on signal 14 or 15 is rejected by name. -/
theorem decode_reservedSignal {c : HostCmd} (h5 : 5 ≤ c.op.toNat) (h7 : c.op.toNat ≤ 7) (hid : 14 ≤ c.ports.a.toNat % 16) :
    decode (.command c) = .reject (.reservedSignal c.op (c.ports.a.setWidth 4)) := by
  obtain ⟨op, p⟩ := c
  have hno : p.idOk = false := by
    rw [← Bool.not_eq_true, idOk_iff]
    exact Nat.not_lt.mpr hid
  rcases lineOp_cases h5 h7 with rfl | rfl | rfl <;>
    simp [decode, decodeCommand, decodeLine, hno, extract_eq_setWidth]

/-- Settles O3, by cases on the instruction: the record's arguments are cut off by their own count, a line operation's signal is
accepted because it is well formed. -/
theorem decodeOfEncodeIsIdentity : Obligations.DecodeOfEncodeIsIdentity := by
  intro i rest hw
  cases i with
  | record n d o args =>
    have hlen : args.length = n.toNat := by simpa [Instr.WellFormed, Instr.wellFormed] using hw
    simp [encodeThen, decode, decodeRecord, Instr.trailing, ← hlen]
  | setln p => exact if_pos hw
  | clrln p => exact if_pos hw
  | cfgdir p => exact if_pos hw
  | count _ => rfl
  | init _ => rfl
  | txcmd _ => rfl
  | txdat _ => rfl
  | delay _ => rfl
  | xfer _ => rfl

theorem decodeHead_eq_instr {bytes rest : List Byte} {i : Instr} (h : decodeHead bytes = .instr i rest) :
    ∃ c, i = .count c ∧ bytes = c :: rest := by
  cases bytes with
  | nil => cases h
  | cons c bytes => cases h; exact ⟨c, rfl, rfl⟩

theorem decodeRecord_eq_instr {bytes rest : List Byte} {i : Instr} (h : decodeRecord bytes = .instr i rest) :
    ∃ n d o args, i = .record n d o args ∧ args.length = n.toNat ∧ bytes = n :: d :: o :: (args ++ rest) := by
  unfold decodeRecord at h
  split at h
  · rename_i n d o tail
    split at h
    · rename_i hle
      cases h
      exact ⟨n, d, o, _, rfl, by simp [hle], by rw [List.take_append_drop]⟩
    · cases h
  · cases h

theorem decodeLine_eq_instr {op : BitVec 4} {p : Ports} {i j : Instr} {rest : List Byte}
    (h : decodeLine op p j = .instr i rest) : p.idOk = true ∧ i = j ∧ rest = [] := by
  unfold decodeLine at h
  split at h
  · cases h; exact ⟨‹_›, rfl, rfl⟩
  · cases h

/-- A command that decodes is the encoding of a well-formed host operation. -/
theorem decodeCommand_eq_instr {c : HostCmd} {i : Instr} {rest : List Byte} (h : decodeCommand c = .instr i rest) :
    i.WellFormed ∧ .command c = encodeThen rest i := by
  obtain ⟨op, p⟩ := c
  rcases hostOp_cases op with rfl | rfl | rfl | rfl | rfl | rfl | rfl | rfl | h8
  iterate 5 (· cases h; exact ⟨rfl, rfl⟩)
  iterate 3 (· obtain ⟨hok, rfl, rfl⟩ := decodeLine_eq_instr h; exact ⟨hok, rfl⟩)
  · cases (decode_reservedOp (c := ⟨op, p⟩) h8).symm.trans h

/-- Settles O4, one lemma per position: `decodeHead_eq_instr`, `decodeRecord_eq_instr`, `decodeCommand_eq_instr`. -/
theorem decodedCodeIsItsEncoding : Obligations.DecodedCodeIsItsEncoding := by
  intro code i rest h
  cases code with
  | head bytes =>
    obtain ⟨c, rfl, rfl⟩ := decodeHead_eq_instr h
    exact ⟨rfl, rfl⟩
  | boundary bytes =>
    obtain ⟨n, d, o, args, rfl, hlen, rfl⟩ := decodeRecord_eq_instr h
    exact ⟨decide_eq_true hlen, rfl⟩
  | command c => exact decodeCommand_eq_instr h

/-- A command that R69 does not reserve decodes, to an instruction of its own operation code. -/
theorem decode_command_accepts {c : HostCmd} (h : c.op.toNat ≤ 4 ∨ (c.op.toNat ≤ 7 ∧ c.ports.a.toNat % 16 < 14)) :
    ∃ i, decode (.command c) = .instr i [] ∧ i.hostOp = some c.op := by
  obtain ⟨op, p⟩ := c
  rcases hostOp_cases op with rfl | rfl | rfl | rfl | rfl | rfl | rfl | rfl | h8
  iterate 5 (· exact ⟨_, rfl, rfl⟩)
  iterate 3 (· exact ⟨_, decodeLine_of_id_lt (by simpa using h), rfl⟩)
  · dsimp only at h; omega

/-- Settles O5: the three clauses are `decode_reservedOp`, `decode_reservedSignal` and `decode_command_accepts`. -/
theorem reservedCommandsAreRejected : Obligations.ReservedCommandsAreRejected :=
  fun _ => ⟨decode_reservedOp, decode_reservedSignal, decode_command_accepts⟩

/-! Fetching. -/

/-- The k-th byte fetched is the one `k` addresses further, modulo 2^16 (20_memory.md R56). -/
theorem romBytes_getElem? (s : State) {k n : Nat} (a : Word) (h : k < n) :
    (romBytes s a n)[k]? = some (s.romByte (a + BitVec.ofNat 16 k)) := by
  induction n generalizing a k with
  | zero => omega
  | succ n ih =>
    cases k with
    | zero => simp [romBytes]
    | succ k =>
      have haddr : a + 1 + BitVec.ofNat 16 k = a + BitVec.ofNat 16 (k + 1) := by
        rw [BitVec.add_assoc, BitVec.ofNat_add, BitVec.add_comm (BitVec.ofNat 16 k)]; rfl
      rw [romBytes, List.getElem?_cons_succ, ih (a + 1) (by omega), haddr]

/-- `decode_recordCode` with the field addresses as the spec writes them. -/
theorem decode_recordCode_fields (s : State) :
    decode (recordCode s) =
      .instr (.record (s.romByte s.ptr) (s.romByte (s.ptr + 1)) (s.romByte (s.ptr + 2))
        (romBytes s (s.ptr + 3) (s.romByte s.ptr).toNat)) [] := by
  have h2 : s.ptr + 1 + 1 = s.ptr + 2 := BitVec.add_assoc ..
  have h3 : s.ptr + 2 + 1 = s.ptr + 3 := BitVec.add_assoc ..
  rw [decode_recordCode, h2, h3]

/-- Settles O7: `decode_recordCode_fields` names the fields, `romBytes_getElem?` the arguments. -/
theorem fetchYieldsTheRecordAtTheCursor : Obligations.FetchYieldsTheRecordAtTheCursor :=
  fun s => ⟨_, decode_recordCode_fields s, romBytes_length .., fun _ hk => romBytes_getElem? s _ hk⟩

end Sys2Proof.Machine
end

section
/-! PROOFS. Tables as text (30_encoding.md R70): the bytes placed in a ROM read back, and the walk of R62 over assembled records has the length
of the assembled text. -/

namespace Sys2Proof.Machine

/-- The bytes stand in a ROM from an address on, addresses modulo 2^16. -/
def Memory.Holds (rom : Memory) (a : Word) (bytes : List Byte) : Prop :=
  ∀ k b, bytes[k]? = some b → Memory.read rom (a + BitVec.ofNat 16 k).toNat = b

theorem Memory.Holds.head {rom : Memory} {a : Word} {b : Byte} {bytes : List Byte} (h : Memory.Holds rom a (b :: bytes)) :
    Memory.read rom a.toNat = b := by
  simpa using h 0 b rfl

theorem Word.add_ofNat_add (a : Word) (j k : Nat) : a + BitVec.ofNat 16 (j + k) = a + BitVec.ofNat 16 j + BitVec.ofNat 16 k := by
  rw [BitVec.ofNat_add, BitVec.add_assoc]

theorem Memory.Holds.right {rom : Memory} {a : Word} {xs ys : List Byte} (h : Memory.Holds rom a (xs ++ ys)) :
    Memory.Holds rom (a + BitVec.ofNat 16 xs.length) ys := by
  intro k b hk
  rw [← Word.add_ofNat_add]
  exact h _ b (by simpa [List.getElem?_append_right] using hk)

theorem Memory.Holds.left {rom : Memory} {a : Word} {xs ys : List Byte} (h : Memory.Holds rom a (xs ++ ys)) :
    Memory.Holds rom a xs := by
  intro k b hk
  obtain ⟨hlt, -⟩ := List.getElem?_eq_some_iff.mp hk
  exact h k b (by rw [List.getElem?_append_left hlt, hk])

theorem Memory.Holds.tail {rom : Memory} {a : Word} {b : Byte} {bytes : List Byte} (h : Memory.Holds rom a (b :: bytes)) :
    Memory.Holds rom (a + 1) bytes := h.right (xs := [b])

/-- Offsets below 2^16 reach different addresses. -/
theorem Word.add_ofNat_ne_self (a : Word) {k : Nat} (h0 : 0 < k) (h : k < 65536) : a + BitVec.ofNat 16 k ≠ a := by
  intro he
  have hk := congrArg BitVec.toNat he
  simp only [BitVec.toNat_add, BitVec.toNat_ofNat] at hk
  omega

/-- Placing bytes leaves every address they do not reach. -/
theorem read_placeBytes_other {bytes : List Byte} {a x : Word} (rom : Memory)
    (h : ∀ k, k < bytes.length → a + BitVec.ofNat 16 k ≠ x) :
    Memory.read (placeBytes bytes a rom) x.toNat = Memory.read rom x.toNat := by
  induction bytes generalizing a rom with
  | nil => rfl
  | cons b bytes ih =>
    have hx : x ≠ a := fun he => h 0 (by simp) (by simp [he])
    rw [placeBytes, ih, Memory.read_write_other _ _ _ _ (Word.toNat_ne hx)]
    intro k hk
    have hne := h (1 + k) (by simp; omega)
    rwa [Word.add_ofNat_add] at hne

/-- Placed bytes read back, also where they wrap. -/
theorem holds_placeBytes {bytes : List Byte} (a : Word) {rom : Memory} (hrom : Memory.wf rom = true) (hlen : bytes.length ≤ 65536) :
    Memory.Holds (placeBytes bytes a rom) a bytes := by
  induction bytes generalizing a rom with
  | nil => intro k b hk; simp at hk
  | cons b bytes ih =>
    rw [List.length_cons] at hlen
    intro k x hk
    cases k with
    | zero =>
      obtain rfl : b = x := by simpa using hk
      have hother : ∀ j, j < bytes.length → a + 1 + BitVec.ofNat 16 j ≠ a := by
        intro j hj
        have := Word.add_ofNat_ne_self a (k := 1 + j) (by omega) (by omega)
        rwa [Word.add_ofNat_add] at this
      rw [placeBytes, show a + BitVec.ofNat 16 0 = a by simp, read_placeBytes_other _ hother, Memory.read_write_same _ hrom]
    | succ k =>
      rw [Nat.add_comm k 1, Word.add_ofNat_add]
      exact ih (a + 1) (Memory.wf_write hrom a b) (by omega) k x (by simpa using hk)

/-- The count of arguments that an assembled line begins with, and its length (30_encoding.md R64). -/
theorem assembleLine_eq_some {l : RecLine} {bytes : List Byte} (h : assembleLine l = some bytes) :
    ∃ n tail, bytes = n :: tail ∧ bytes.length = 3 + n.toNat := by
  unfold assembleLine at h
  split at h
  · rename_i hle
    cases h
    refine ⟨_, _, rfl, ?_⟩
    simp
    omega
  · cases h

theorem assembleLines_cons {l : RecLine} {recs : List RecLine} {body : List Byte} (h : assembleLines (l :: recs) = some body) :
    ∃ line tail, assembleLine l = some line ∧ assembleLines recs = some tail ∧ body = line ++ tail := by
  unfold assembleLines at h
  split at h
  · cases h; exact ⟨_, _, ‹_›, ‹_›, rfl⟩
  · cases h

/-- The walk of 30_encoding.md R62 over assembled lines. -/
theorem recordsLen_assembled {rom : Memory} {recs : List RecLine} {body : List Byte} (a : Word)
    (h : assembleLines recs = some body) (hrom : Memory.Holds rom a body) : recordsLen rom recs.length a = body.length := by
  induction recs generalizing a body with
  | nil => cases h; rfl
  | cons l recs ih =>
    obtain ⟨line, tail, hline, htail, rfl⟩ := assembleLines_cons h
    obtain ⟨n, args, rfl, hlen⟩ := assembleLine_eq_some hline
    have hn : Memory.read rom a.toNat = n := hrom.head
    rw [List.length_cons, recordsLen, hn, ← hlen, ih _ htail hrom.right, List.length_append]

/-- Settles O8: the count byte is the number of lines, and `recordsLen_assembled` is the rest of the length. -/
theorem assembledTableIsWellFormed : Obligations.AssembledTableIsWellFormed := by
  intro recs image rom c himage hrom hfits hlen
  have hplaced := holds_placeBytes c.tblBase hrom (bytes := image) (by omega)
  simp only [assemble] at himage
  split at himage
  · rename_i hcount
    obtain ⟨body, hbody, rfl⟩ := Option.map_eq_some_iff.mp himage
    have hn : (BitVec.ofNat 8 recs.length).toNat = recs.length := by simp; omega
    have hwalk : tableLen (placeBytes (BitVec.ofNat 8 recs.length :: body) c.tblBase rom) c.tblBase = 1 + body.length := by
      rw [tableLen, hplaced.head, hn, recordsLen_assembled _ hbody hplaced.tail]
    simp only [tableWellFormed, hwalk, Bool.and_eq_true, decide_eq_true_eq]
    simp only [List.length_cons] at hlen hfits
    omega
  · cases himage

/-- The table of R71 (e) needs 5 bytes, wherever it stands. -/
theorem tableLen_truncatedTable (a : Word) {rom : Memory} (hrom : Memory.wf rom = true) :
    tableLen (placeBytes [0x01, 0x01, 0x96, 0x11] a rom) a = 5 := by
  have hplaced := holds_placeBytes a hrom (bytes := [0x01, 0x01, 0x96, 0x11]) (by simp)
  have hcount := hplaced.head
  have hargs := hplaced.tail.head
  have hone : (1 : Byte).toNat = 1 := rfl
  rw [tableLen, hcount, hone, recordsLen, recordsLen, hargs]
  rfl

/-- Settles O6: the closed clauses by evaluation, the table of (e) by `tableLen_truncatedTable`. -/
theorem workedEncodingsDecode : Obligations.WorkedEncodingsDecode := by
  have hill : ∀ (c : Config) (rom : Memory), Memory.wf rom = true →
      tableLen (placeBytes [0x01, 0x01, 0x96, 0x11] c.tblBase rom) c.tblBase = 5
        ∧ (c.tblLen = 4 → tableWellFormed (placeBytes [0x01, 0x01, 0x96, 0x11] c.tblBase rom) c = false) := by
    intro c rom hrom
    have hlen := tableLen_truncatedTable c.tblBase hrom
    refine ⟨hlen, fun h4 => ?_⟩
    rw [tableWellFormed, hlen, h4]
    rfl
  refine ⟨?_, ?_, ?_, ?_, ?_, ?_, ?_, ?_, ?_, ?_, hill, ?_, ?_⟩ <;> decide

end Sys2Proof.Machine
end

section
/-! PROOFS. What a step of the idle host does with a command: it is executed, or ended at once because it is reserved, or refused by name
(30_encoding.md R66, R69, 00_scope.md R9). -/

namespace Sys2Proof.Machine

/-- Issuing a decoded command that is not refused executes it. -/
theorem issue_decoded {c : HostCmd} {i : Instr} {rest : List Byte} {s : State} (hd : decode (.command c) = .instr i rest)
    (ha : admission s i = none) : issue c s = exec i s := by
  simp only [issue, hd, ha]

theorem issue_refused {c : HostCmd} {i : Instr} {rest : List Byte} {s : State} {r : Refusal}
    (hd : decode (.command c) = .instr i rest) (ha : admission s i = some r) : issue c s = .refused r := by
  simp only [issue, hd, ha]

/-- A code that is rejected is ended at once, or refused with the option `refuse`. -/
theorem issue_rejected {c : HostCmd} {r : Reject} (s : State) (hd : decode (.command c) = .reject r) :
    issue c s = if s.cfg.refuse then .refused (.rejected r) else .next (reservedOperation c s) := by
  simp only [issue, hd]

/-- With the option `refuse` off nothing is turned away. -/
theorem admission_off {s : State} (i : Instr) (h : s.cfg.refuse = false) : admission s i = none := by
  simp [admission, h]

theorem admission_on {s : State} (i : Instr) (h : s.cfg.refuse = true) : admission s i = reservedUse s i := by
  simp [admission, h]

/-- A step of an idle block that no other agent disturbs issues the host's next command. -/
theorem step_issue {s : State} {c : HostCmd} {cs : List HostCmd} (hi : Idle s) (hd : due s = false) (hc : s.cmds = c :: cs) :
    step s = issue c { s with cmds := cs } := by
  rw [step_not_due hd, coreMove_issue hi.1 hi.2 hc]

/-- Settles O9: `step_issue`, and `issue` of a decoded command is `exec`. -/
theorem stepExecutesTheHostCommand : Obligations.StepExecutesTheHostCommand := by
  intro s c cs i rest hi hd hc hdec hadm
  rw [step_issue hi hd hc]
  exact issue_decoded hdec hadm

/-- At a record boundary with records to go a step executes the record at the cursor. -/
theorem step_records {s : State} {rest : List Micro} (hd : due s = false) (ht : s.todo = .records :: rest) (hr : s.recs ≠ 0) :
    step s = exec (.record (s.romByte s.ptr) (s.romByte (s.ptr + 1)) (s.romByte (s.ptr + 2))
      (romBytes s (s.ptr + 3) (s.romByte s.ptr).toNat)) s := by
  rw [step_not_due hd]
  simp only [coreMove, ht, if_neg hr, execCode, decode_recordCode_fields]

/-- Settles O10: `step_tableHead` and `step_records`. -/
theorem stepExecutesTheTableInstruction : Obligations.StepExecutesTheTableInstruction :=
  fun _ _ hd => ⟨step_tableHead hd, step_records hd⟩

/-! Reserved commands. -/

/-- Every instruction that is a host operation starts the operation of its program with its own code and operands. -/
theorem exec_hostOp {i : Instr} (s : State) (h : i.hostOp ≠ none) :
    ∃ op p, exec i s = .next (hostOperation op p (hostProgram s i) s) := by
  rcases exec_cases i s with hx | ⟨_, rfl, -⟩ | ⟨_, _, _, _, rfl, -⟩
  · exact hx
  · exact absurd rfl h
  · exact absurd rfl h

/-- A host operation that meets BUSY = 1 has no effect. -/
theorem hostOperation_busy {s : State} (op : BitVec 4) (p : Ports) (prog : List Micro) (hb : s.busy = true) :
    hostOperation op p prog s = s := by
  rw [hostOperation, if_pos hb]

/-- Settles O14: `present` looks at BUSY first, and so does every host operation. -/
theorem commandWhileBusyIsIgnored : Obligations.CommandWhileBusyIsIgnored := by
  intro s c rest i hb
  refine ⟨fun he => ?_, fun hop => ?_⟩
  · simp only [step, agentsStep, he, agentMove, present, hb, if_true]
  · obtain ⟨op, p, hx⟩ := exec_hostOp s hop
    rw [hx, hostOperation_busy _ _ _ hb]

/-- The program of `XFER` in a build without the serial engine is empty (30_encoding.md R69). -/
theorem hostProgram_xfer_absent {s : State} (p : Ports) (h : s.cfg.hasSte = false) : hostProgram s (.xfer p) = [] := by
  simp [hostProgram, h]

/-- Settles O25: without the engine the program of `XFER` is empty. -/
theorem xferWithoutEngineHasNoEffect : Obligations.XferWithoutEngineHasNoEffect := by
  intro s p hi hq hste
  calc exec (.xfer p) s
      = .next (hostOperation 0x4 p (hostProgram s (.xfer p)) s) := rfl
    _ = _ := by rw [hostProgram_xfer_absent p hste, hostOperation_nil hi hq]

/-- The reserved uses of 30_encoding.md R69 on the host ports. -/
def ReservedUse (cfg : Config) (c : HostCmd) : Prop :=
  8 ≤ c.op.toNat
    ∨ (5 ≤ c.op.toNat ∧ c.op.toNat ≤ 7 ∧ (14 ≤ c.ports.a.toNat % 16 ∨ (c.ports.a.toNat % 16 = 13 ∧ cfg.hasSte = false)))
    ∨ (c.op.toNat = 4 ∧ cfg.hasSte = false)

/-- The program of a line operation on its signal operand. -/
theorem commandProgram_line {c : HostCmd} (s : State) (h5 : 5 ≤ c.op.toNat) (h7 : c.op.toNat ≤ 7)
    (hid : c.ports.a.toNat % 16 < 14) : ∃ act, commandProgram c s = lineAction s.cfg c.ports act := by
  obtain ⟨op, p⟩ := c
  have hok : p.idOk = true := (idOk_iff p).mpr hid
  rcases lineOp_cases h5 h7 with rfl | rfl | rfl <;>
    exact ⟨_, by simp only [commandProgram, decode, decodeCommand, decodeLine, hok]; rfl⟩

/-- A reserved command starts an empty program. -/
theorem commandProgram_reserved {c : HostCmd} {s : State} (h : ReservedUse s.cfg c) : commandProgram c s = [] := by
  rcases h with h8 | ⟨h5, h7, hid⟩ | ⟨h4, hste⟩
  · simp only [commandProgram, decode_reservedOp h8]
  · by_cases h14 : 14 ≤ c.ports.a.toNat % 16
    · simp only [commandProgram, decode_reservedSignal h5 h7 h14]
    · obtain ⟨act, hprog⟩ := commandProgram_line s h5 h7 (Nat.not_le.mp h14)
      rw [hprog, lineAction_reserved act hid]
  · obtain ⟨op, p⟩ := c
    obtain rfl : op = 4 := BitVec.eq_of_toNat_eq h4
    exact hostProgram_xfer_absent p hste

/-- With the option `refuse` off every command that is issued runs the program it stands for. -/
theorem issue_off (c : HostCmd) {s : State} (h : s.cfg.refuse = false) :
    issue c s = .next (hostOperation c.op c.ports (commandProgram c s) s) := by
  cases hd : decode (.command c) with
  | instr i rest => rw [issue_decoded hd (admission_off i h), decode_command hd, commandProgram, hd]
  | reject r => rw [issue_rejected s hd, h, commandProgram, hd]; rfl

/-- Settles O11: a reserved command starts an empty program (`commandProgram_reserved`), and `hostOperation_nil` is its effect. -/
theorem reservedCommandHasNoEffect : Obligations.ReservedCommandHasNoEffect := by
  refine ⟨fun c rest => rfl, fun n d o args rest hlen => ?_, fun s c cs hi hq hc hoff h => ?_⟩
  · exact decodeOfEncodeIsIdentity (.record n d o args) rest (decide_eq_true hlen)
  · calc step s
        = issue c { s with cmds := cs } := step_issue hi (due_quiet hq) hc
      _ = .next (hostOperation c.op c.ports [] { s with cmds := cs }) := by
          rw [issue_off c (s := { s with cmds := cs }) hoff, commandProgram_reserved (s := { s with cmds := cs }) h]
      _ = _ := congrArg _ (hostOperation_nil hi hq)

/-- With the option `refuse` off, issuing a command goes on. -/
theorem coreMove_next {s : State} (h : s.cfg.refuse = false) : ∃ t, coreMove s = .next t := by
  unfold coreMove
  split
  · exact ⟨_, rfl⟩
  · simp only [execCode, decode_headCode]; exact ⟨_, rfl⟩
  · split
    · exact ⟨_, rfl⟩
    · simp only [execCode, decode_recordCode]; exact ⟨_, rfl⟩
  · exact ⟨_, rfl⟩
  · split
    · exact ⟨_, rfl⟩
    · split
      · exact ⟨_, issue_off _ h⟩
      · exact ⟨_, rfl⟩

theorem agentMove_next (m : Move) {s : State} (h : s.cfg.refuse = false) : ∃ t, agentMove m s = .next t := by
  cases m with
  | cpl r => exact ⟨_, rfl⟩
  | rst => exact ⟨_, rfl⟩
  | present c =>
    simp only [agentMove, present]
    split
    · exact ⟨_, rfl⟩
    · exact ⟨_, issue_off c h⟩
  | hostStore a v => exact ⟨_, rfl⟩
  | hostLook => exact ⟨_, rfl⟩

/-- Settles O12: `coreMove_next` and `agentMove_next`; the type of faults is empty. -/
theorem everyStepGoesOn : Obligations.EveryStepGoesOn := by
  refine fun s => ⟨fun h => ?_, fun f => nomatch f⟩
  unfold step agentsStep
  split
  · exact agentMove_next _ h
  · exact coreMove_next h

/-- A line operation on signal 13 without `HAS_STE` is refused by the option. -/
theorem issue_missingLine {c : HostCmd} {s : State} (hon : s.cfg.refuse = true) (h5 : 5 ≤ c.op.toNat) (h7 : c.op.toNat ≤ 7)
    (h13 : c.ports.a.toNat % 16 = 13) (hste : s.cfg.hasSte = false) : issue c s = .refused .noModeSelect := by
  obtain ⟨op, p⟩ := c
  have hok : p.a.toNat % 16 < 14 := by dsimp only at h13; omega
  have hfield : signalField p = 13#4 := BitVec.eq_of_toNat_eq ((signalField_toNat p).trans h13)
  have hmissing : namesMissingLine s.cfg p = true := by simp [namesMissingLine, hfield, hste]
  rcases lineOp_cases h5 h7 with rfl | rfl | rfl <;>
    exact issue_refused (decodeLine_of_id_lt hok) (by simp [admission_on _ hon, reservedUse, hmissing])

/-- `XFER` is refused without the engine, or while a byte transfer is pending. -/
theorem issue_xfer_on {c : HostCmd} {s : State} (hon : s.cfg.refuse = true) (h4 : c.op.toNat = 4) :
    (s.cfg.hasSte = false → issue c s = .refused .noSerialEngine)
      ∧ (s.cfg.hasSte = true → s.pending = true → issue c s = .refused .transferPending) := by
  obtain ⟨op, p⟩ := c
  obtain rfl : op = 4 := BitVec.eq_of_toNat_eq h4
  refine ⟨fun hste => ?_, fun hste hpend => ?_⟩
  · exact issue_refused rfl (by simp [admission_on _ hon, reservedUse, hste])
  · exact issue_refused rfl (by simp [admission_on _ hon, reservedUse, hste, hpend])

theorem serialFramerOp_cases {op : BitVec 4} (h : op.toNat ≤ 2) : op = 0 ∨ op = 1 ∨ op = 2 := by
  revert op; decide

/-- In serial mode `INIT`, `TXCMD` and `TXDAT` are refused while a byte transfer is pending. -/
theorem issue_serial_pending {c : HostCmd} {s : State} (hon : s.cfg.refuse = true) (h2 : c.op.toNat ≤ 2)
    (hm : s.cfg.busMode = .serial) (hpend : s.pending = true) : issue c s = .refused .transferPending := by
  obtain ⟨op, p⟩ := c
  rcases serialFramerOp_cases h2 with rfl | rfl | rfl <;>
    exact issue_refused rfl (by simp [admission_on _ hon, reservedUse, startsSerial, hm, hpend])

theorem issue_rejected_on {c : HostCmd} {r : Reject} {s : State} (hon : s.cfg.refuse = true)
    (hd : decode (.command c) = .reject r) : issue c s = .refused (.rejected r) := by
  rw [issue_rejected s hd, if_pos hon]

/-- Settles O13: each clause is what `issue` answers to the command. -/
theorem refuseOptionRefusesByName : Obligations.RefuseOptionRefusesByName := by
  intro s c cs hi hq hc hon
  have hstep : step s = issue c { s with cmds := cs } := step_issue hi (due_quiet hq) hc
  have hon' : ({ s with cmds := cs } : State).cfg.refuse = true := hon
  refine ⟨fun h8 => ?_, fun h5 h7 h14 => ?_, fun h5 h7 h13 hste => ?_, fun h4 hste => ?_, fun h4 hste hpend => ?_,
    fun h2 hm hpend => ?_⟩
  · exact hstep.trans (issue_rejected_on hon' (decode_reservedOp h8))
  · exact hstep.trans (issue_rejected_on hon' (decode_reservedSignal h5 h7 h14))
  · exact hstep.trans (issue_missingLine hon' h5 h7 h13 hste)
  · exact hstep.trans ((issue_xfer_on hon' h4).1 hste)
  · exact hstep.trans ((issue_xfer_on hon' h4).2 hste hpend)
  · exact hstep.trans (issue_serial_pending hon' h2 hm hpend)

/-! `CFGDIR` and `DELAY` of an idle, undisturbed block. -/

/-- Settles O26: the program is the one delay. -/
theorem delayRecordsItsMilliseconds : Obligations.DelayRecordsItsMilliseconds := by
  intro s p hi hq
  obtain ⟨hb, ht⟩ := hi
  calc exec (.delay p) s
      = .next (hostOperation 0x3 p [.delayMs p.a.toNat] s) := rfl
    _ = _ := by
        rw [hostOperation_straight hb hq (by simp [Micro.stops])]
        simp [micro, emit, endOperation, hb, ht]

/-- `host_b[0]` as a number. -/
theorem asOutputOperand_eq (p : Ports) : asOutputOperand p = decide (p.b.toNat % 2 = 1) := by
  simp [asOutputOperand, BitVec.getLsbD, Nat.testBit_zero]

theorem exec_cfgdir (p : Ports) (s : State) :
    exec (.cfgdir p) s = .next (hostOperation 0x7 p (lineAction s.cfg p fun sig => .dir sig (asOutputOperand p)) s) := rfl

/-- An operation whose program is one direction write (42_pins_delay.md R131). -/
theorem hostOperation_dir {op : BitVec 4} {p : Ports} {s : State} {sig : Signal} (d : Bool) (hi : Idle s) (hq : Quiet s)
    (hex : lineExists s.cfg sig = true) :
    hostOperation op p [.dir sig d] s = { s with
      result := .ok, pinDir := setBit s.pinDir sig.id d,
      trace := s.trace ++ [.opStart op p.a p.b p.n, .dir sig d, .opEnd op .ok] } := by
  obtain ⟨hb, ht⟩ := hi
  rw [hostOperation_straight hb hq (by simp [Micro.stops])]
  simp [micro, dirWrite_eq, hex, emit, endOperation, hb, ht]

/-- Settles O24: an existing line by `hostOperation_dir`, a reserved identifier by `hostOperation_reserved_line`. -/
theorem cfgdirSetsOneDirection : Obligations.CfgdirSetsOneDirection := by
  intro s p hi hq
  refine ⟨fun sig hid hex => ?_, fun hr => ?_, fun hlt => decodeLine_of_id_lt hlt⟩
  · refine ⟨_, exec_cfgdir p s, ?_⟩
    rw [lineAction_line _ hid hex, hostOperation_dir _ hi hq hex, asOutputOperand_eq]
    refine ⟨rfl, ?_, ?_, fun other hne => ?_⟩
    · simp [State.dir]
    · simp [State.level, State.dir, State.out]
    · simp [State.dir, hne]
  · rw [exec_cfgdir, hostOperation_reserved_line _ hi hq hr]

end Sys2Proof.Machine
end

section
/-! PROOFS. Footprints. `Micro.writes` says which registers a micro-action can write, `run_same` that a run changes no other; from it the
frames of the instructions. `Keeps` and `StepKeeps` carry a property of the state through a run and a step. -/

namespace Sys2Proof.Machine

/-! A property of the state through a run. -/

/-- The micro-actions of a program that a run can make before it has to wait or to fetch. -/
def reached : List Micro → List Micro
  | [] => []
  | .poll _ :: _ => []
  | .tableHead :: _ => []
  | .records :: _ => []
  | m :: rest => m :: reached rest

theorem reached_cons {m : Micro} (rest : List Micro) (h : m.stops = false) : reached (m :: rest) = m :: reached rest := by
  cases m <;> first | rfl | cases h

theorem mem_of_mem_reached {l : List Micro} {m : Micro} (h : m ∈ reached l) : m ∈ l := by
  fun_induction reached l with
  | case5 x rest _ _ _ ih =>
    rcases List.mem_cons.mp h with rfl | h
    · exact List.mem_cons_self
    · exact List.mem_cons_of_mem _ (ih h)
  | _ => cases h

/-- A run does not go past a record boundary. -/
theorem mem_of_mem_reached_records {l rest : List Micro} {m : Micro} (h : m ∈ reached (l ++ .records :: rest)) : m ∈ l := by
  fun_induction reached l with
  | case5 x l h1 h2 h3 ih =>
    rw [List.cons_append, reached] at h
    · rcases List.mem_cons.mp h with rfl | h
      · exact List.mem_cons_self
      · exact List.mem_cons_of_mem _ (ih h)
    all_goals assumption
  | _ => cases h

variable {ok : Micro → Prop} {P : State → Prop}

/-- A property of the state that the micro-actions of a kind keep; it does not speak of `todo` and `events`. -/
structure Keeps (ok : Micro → Prop) (P : State → Prop) : Prop where
  inputs : ∀ s l es, P s → P { s with todo := l, events := es }
  micro : ∀ m s, ok m → P s → P (micro m s)
  loop : ∀ a b n, ok (.xferLoop a b n) → (∀ x v, ok (.memRd x v)) ∧ ok .flagClr ∧ ∀ v, ok (.serTx v)

/-- The body of the loop of `XFER` up to its wait. -/
theorem reached_xferByte (a b : Word) (s : State) (rest : List Micro) :
    reached (xferByte a b s ++ rest) = [.memRd (a + s.idx) (s.dmemByte (a + s.idx)), .flagClr, .serTx (s.dmemByte (a + s.idx))] := rfl

theorem Keeps.runInvariant (h : Keeps ok P) : RunInvariant fun l s => (∀ m ∈ reached l, ok m) ∧ P s where
  todo := fun _ l' s ⟨hl, hs⟩ => ⟨hl, h.inputs s l' s.events hs⟩
  micro := by
    rintro m rest s hm ⟨hl, hs⟩
    rw [reached_cons rest hm] at hl
    exact ⟨fun x hx => hl x (List.mem_cons_of_mem _ hx), h.inputs _ _ _ (h.micro m s (hl m List.mem_cons_self) hs)⟩
  loopEnd := fun a b n rest s _ ⟨hl, hs⟩ => ⟨fun x hx => hl x (List.mem_cons_of_mem _ hx), hs⟩
  loopBody := by
    rintro a b n rest s - ⟨hl, hs⟩
    obtain ⟨hread, hclear, hsend⟩ := h.loop a b n (hl _ List.mem_cons_self)
    rw [reached_xferByte]
    exact ⟨by simp [hread, hclear, hsend], hs⟩

/-- A run keeps the property when the micro-actions it can make do. -/
theorem Keeps.run (h : Keeps ok P) {l : List Micro} {s : State} (hl : ∀ m ∈ reached l, ok m) (hs : P s) : P (run l s) :=
  (h.runInvariant.run ⟨hl, hs⟩).2

/-- A host operation keeps the property when acceptance does. -/
theorem Keeps.hostOperation (h : Keeps ok P) {op : BitVec 4} {p : Ports} {prog : List Micro} {s : State}
    (hprog : ∀ m ∈ prog, ok m) (hend : ok (.opEnd op)) (hs : P s) (ha : P (accept op p s)) : P (hostOperation op p prog s) := by
  unfold Machine.hostOperation
  split
  · exact hs
  · refine h.run (fun m hm => ?_) ha
    rcases List.mem_append.mp (mem_of_mem_reached hm) with hm | hm
    · exact hprog m hm
    · rwa [List.mem_singleton.mp hm]

/-! What no run changes. -/

theorem run_constant (l : List Micro) (s : State) :
    (run l s).cfg = s.cfg ∧ (run l s).rom = s.rom ∧ (run l s).cmds = s.cmds ∧ (run l s).rxhold = s.rxhold := by
  have h : Keeps (fun _ => True) fun t => t.cfg = s.cfg ∧ t.rom = s.rom ∧ t.cmds = s.cmds ∧ t.rxhold = s.rxhold :=
    { inputs := fun _ _ _ ht => ht
      micro := fun m t _ ht => by simpa using ht
      loop := by simp }
  exact h.run (by simp) ⟨rfl, rfl, rfl, rfl⟩

@[simp] theorem run_cfg (l : List Micro) (s : State) : (run l s).cfg = s.cfg := (run_constant l s).1
@[simp] theorem run_rom (l : List Micro) (s : State) : (run l s).rom = s.rom := (run_constant l s).2.1
@[simp] theorem run_cmds (l : List Micro) (s : State) : (run l s).cmds = s.cmds := (run_constant l s).2.2.1
@[simp] theorem run_rxhold (l : List Micro) (s : State) : (run l s).rxhold = s.rxhold := (run_constant l s).2.2.2

@[simp] theorem hostOperation_cfg (op : BitVec 4) (p : Ports) (l : List Micro) (s : State) :
    (hostOperation op p l s).cfg = s.cfg := by unfold hostOperation; split <;> simp
@[simp] theorem hostOperation_rom (op : BitVec 4) (p : Ports) (l : List Micro) (s : State) :
    (hostOperation op p l s).rom = s.rom := by unfold hostOperation; split <;> simp
@[simp] theorem hostOperation_cmds (op : BitVec 4) (p : Ports) (l : List Micro) (s : State) :
    (hostOperation op p l s).cmds = s.cmds := by unfold hostOperation; split <;> simp
@[simp] theorem hostOperation_rxhold (op : BitVec 4) (p : Ports) (l : List Micro) (s : State) :
    (hostOperation op p l s).rxhold = s.rxhold := by unfold hostOperation; split <;> simp

/-! Which registers a micro-action can write. -/

/-- The registers of 10_state.md R10 in the groups that micro-actions write. -/
inductive Reg where
  | latch (sig : Signal)
  | direction (sig : Signal)
  /-- `SEQ_STATE`, `PTR`, `RECS`, `ARGS`, `DLY`, `OPC`. -/
  | sequencer
  /-- `BUSY`, `RESULT`. -/
  | control
  /-- `XDONE`, `TXBUF`, `PENDING`, `POLLS`. -/
  | transfer
  | idx
  | dmem

/-- A register has the same value in two states. -/
def Same (s t : State) : Reg → Prop
  | .latch sig => t.out sig = s.out sig
  | .direction sig => t.dir sig = s.dir sig
  | .sequencer => t.seqState = s.seqState ∧ t.ptr = s.ptr ∧ t.recs = s.recs ∧ t.args = s.args ∧ t.dly = s.dly ∧ t.opc = s.opc
  | .control => t.busy = s.busy ∧ t.result = s.result
  | .transfer => t.xdone = s.xdone ∧ t.txbuf = s.txbuf ∧ t.pending = s.pending ∧ t.polls = s.polls
  | .idx => t.idx = s.idx
  | .dmem => t.dmem = s.dmem

/-- The registers a micro-action can write; at the loop test of `XFER`, those a run can write before the next wait. -/
def Micro.writes : Micro → List Reg
  | .pin sig _ => [.latch sig]
  | .dir sig _ => [.direction sig]
  | .bus _ => [.latch .d0, .latch .d1, .latch .d2, .latch .d3, .latch .d4, .latch .d5, .latch .d6, .latch .d7]
  | .seq _ => [.sequencer]
  | .ptrBase => [.sequencer]
  | .romRd _ _ => [.sequencer]
  | .argSent => [.sequencer]
  | .settle => [.sequencer]
  | .settled => [.sequencer]
  | .idxZero => [.idx]
  | .flagClr => [.transfer]
  | .serTx _ => [.transfer]
  | .storeRx _ => [.idx, .dmem]
  | .result _ => [.control]
  | .opEnd _ => [.control]
  | .xferLoop _ _ _ => [.transfer]
  | .delayMs _ => []
  | .delayUs _ => []
  | .memRd _ _ => []
  | .serRx => []
  | .poll _ => []
  | .tableHead => []
  | .records => []

theorem pinWrite_out_ne {sig other : Signal} (v : Level) (s : State) (h : other ≠ sig) :
    (pinWrite sig v s).out other = s.out other := by
  unfold pinWrite; split <;> simp [State.out, h]

theorem dirWrite_dir_ne {sig other : Signal} (d : Bool) (s : State) (h : other ≠ sig) :
    (dirWrite sig d s).dir other = s.dir other := by
  unfold dirWrite; split <;> simp [State.dir, h]

/-- A data write leaves the latches that are no data line (10_state.md R12). -/
theorem busWrite_out {b : Byte} {sig : Signal} (s : State) (h : .latch sig ∉ (Micro.bus b).writes) :
    (busWrite b s).out sig = s.out sig := by
  cases sig <;> simp [Micro.writes] at h <;> simp [State.out]

@[simp] theorem Same.refl (s : State) (r : Reg) : Same s s r := by
  cases r <;> simp [Same]

theorem Same.trans {s t u : State} {r : Reg} (h : Same s t r) (h' : Same t u r) : Same s u r := by
  cases r <;> simp_all [Same]

/-- A micro-action leaves every register it does not write. -/
theorem micro_same {m : Micro} {r : Reg} (s : State) (h : r ∉ m.writes) : Same s (micro m s) r := by
  cases r with
  | latch sig =>
    cases m with
    | pin x v => exact pinWrite_out_ne v s (by rintro rfl; simp [Micro.writes] at h)
    | bus b => exact busWrite_out s h
    | dir x d => simp [Same, micro, State.out]
    | romRd dst v => simp [Same, micro, State.out]
    | _ => rfl
  | direction sig =>
    cases m with
    | dir x d => exact dirWrite_dir_ne d s (by rintro rfl; simp [Micro.writes] at h)
    | pin x v => simp [Same, micro, State.dir]
    | romRd dst v => simp [Same, micro, State.dir]
    | _ => rfl
  | _ => cases m <;> simp [Micro.writes] at h <;> simp [Same, micro]

theorem keeps_same (s : State) (r : Reg) : Keeps (fun m => r ∉ m.writes) fun t => Same s t r where
  inputs := fun t l es ht => by cases r <;> exact ht
  micro := fun m t hm ht => ht.trans (micro_same t hm)
  loop := fun a b n h => ⟨by simp [Micro.writes], h, fun _ => h⟩

/-- A run leaves every register that no micro-action it can make writes. -/
theorem run_same {l : List Micro} {r : Reg} (s : State) (h : ∀ m ∈ reached l, r ∉ m.writes) : Same s (run l s) r :=
  (keeps_same s r).run h (Same.refl s r)

/-- Acceptance writes only `BUSY` and `RESULT` (30_encoding.md R66). -/
theorem accept_same {r : Reg} (op : BitVec 4) (p : Ports) (s : State) (h : r ≠ .control) : Same s (accept op p s) r := by
  cases r <;> simp_all [Same, State.out, State.dir]

/-- A host operation writes only `BUSY`, `RESULT` and what its program writes. -/
theorem hostOperation_same {op : BitVec 4} {p : Ports} {l : List Micro} {r : Reg} (s : State) (h : ∀ m ∈ l, r ∉ m.writes)
    (hr : r ≠ .control) : Same s (hostOperation op p l s) r :=
  (keeps_same s r).hostOperation h (by simp [Micro.writes, hr]) (Same.refl s r) (accept_same op p s hr)

/-! The groups of registers as the statements name them. -/

theorem pinOut_eq_of_same {s t : State} (h : ∀ sig, Same s t (.latch sig)) : t.pinOut = s.pinOut := pinReg_ext h

theorem pinDir_eq_of_same {s t : State} (h : ∀ sig, Same s t (.direction sig)) : t.pinDir = s.pinDir := pinReg_ext h

theorem dmemByte_eq_of_same {s t : State} (h : Same s t .dmem) (a : Word) : t.dmemByte a = s.dmemByte a :=
  congrArg (Memory.read · a.toNat) h

theorem romByte_congr {s t : State} (h : t.rom = s.rom) (a : Word) : t.romByte a = s.romByte a :=
  congrArg (Memory.read · a.toNat) h

/-- The byte on the data lines is told by their eight latches. -/
theorem data_eq_of_same {s t : State} (h : ∀ sig ∈ [Signal.d0, .d1, .d2, .d3, .d4, .d5, .d6, .d7], Same s t (.latch sig)) :
    t.data = s.data := by
  simp only [List.forall_mem_cons, Same, State.out, Signal.id] at h
  obtain ⟨h0, h1, h2, h3, h4, h5, h6, h7, -⟩ := h
  ext i hi
  simp only [State.data, BitVec.getElem_extractLsb']
  interval_cases i <;> assumption

/-! The registers of the framers and of the table program. -/

/-- What a framer call writes (41_framers.md R110, R111, R114). -/
def framerRegs (c : Config) : List Reg :=
  .latch .cs :: .latch .dc ::
    match c.busMode with
    | .parallel => [.latch .wr, .latch .d0, .latch .d1, .latch .d2, .latch .d3, .latch .d4, .latch .d5, .latch .d6, .latch .d7]
    | .serial => [.transfer]

theorem framer_not_writes {c : Config} {who : Waiter} {dc : Level} {b : Byte} {r : Reg} (h : r ∉ framerRegs c) :
    ∀ m ∈ framer c who dc b, r ∉ m.writes := by
  unfold framer
  unfold framerRegs at h
  split <;> simp_all [Micro.writes, serByte, framerRelease]

/-- What holds of every micro-action of a record (40_sequencer.md R84). -/
theorem forall_mem_recordProgram {p : Micro → Prop} {c : Config} {n d o : Byte} {args : List Byte}
    (hframer : ∀ dc b, ∀ m ∈ framer c .init dc b, p m) (hrom : ∀ dst v, p (.romRd dst v)) (hsent : p .argSent)
    (hsettle : p .settle) (hsettled : p .settled) : ∀ m ∈ recordProgram c n d o args, p m := by
  have harg : ∀ a, ∀ m ∈ argProgram c a, p m := by
    intro a m hm
    simp only [argProgram, List.cons_append, List.mem_cons, List.mem_append, List.not_mem_nil, or_false] at hm
    rcases hm with rfl | hm | rfl
    · exact hrom _ _
    · exact hframer _ _ m hm
    · exact hsent
  intro m hm
  simp only [recordProgram, List.cons_append, List.mem_cons, List.mem_append, List.mem_flatMap, List.not_mem_nil, or_false] at hm
  rcases hm with rfl | rfl | rfl | (hm | ⟨a, -, hm⟩) | rfl | rfl
  · exact hrom _ _
  · exact hrom _ _
  · exact hrom _ _
  · exact hframer _ _ m hm
  · exact harg a m hm
  · exact hsettle
  · exact hsettled

theorem recordProgram_not_writes {c : Config} {n d o : Byte} {args : List Byte} {r : Reg} (h : r ∉ framerRegs c)
    (hs : r ≠ .sequencer) : ∀ m ∈ recordProgram c n d o args, r ∉ m.writes :=
  forall_mem_recordProgram (fun _ _ => framer_not_writes h) (by simp [Micro.writes, hs]) (by simp [Micro.writes, hs])
    (by simp [Micro.writes, hs]) (by simp [Micro.writes, hs])

theorem countProgram_not_writes {n : Byte} {r : Reg} (h : r ≠ .sequencer) : ∀ m ∈ countProgram n, r ∉ m.writes := by
  simp [countProgram, Micro.writes, h]

/-- `INIT` writes control latches, directions, the sequencer's registers and `RESULT` (40_sequencer.md R80, R82). -/
theorem initProgram_not_writes {s : State} {r : Reg} (hl : ∀ sig, r ≠ .latch sig) (hd : ∀ sig, r ≠ .direction sig)
    (hs : r ≠ .sequencer) (hc : r ≠ .control) : ∀ m ∈ initProgram s, r ∉ m.writes := by
  unfold initProgram electricalReset lines
  cases s.cfg.hasSte <;> split <;> simp [Micro.writes, hl, hd, hs, hc]

theorem lineAction_not_writes {c : Config} {p : Ports} {act : Signal → Micro} {r : Reg}
    (h : ∀ sig, p.a.toNat % 16 = sig.id → r ∉ (act sig).writes) : ∀ m ∈ lineAction c p act, r ∉ m.writes := by
  intro m hm
  obtain ⟨sig, hsig, rfl⟩ := Option.map_eq_some_iff.mp (Option.mem_toList.mp hm)
  exact h sig (signalOperand_eq_some_iff.mp hsig).1

theorem xferProgram_not_writes {c : Config} {tx rx n : Word} {r : Reg} (hl : r ≠ .latch .msel) (hi : r ≠ .idx)
    (ht : r ≠ .transfer) : ∀ m ∈ xferProgram c tx rx n, r ∉ m.writes := by
  simp [xferProgram, modeRelease, Micro.writes, hl, hi, ht]

/-! Frames. -/

/-- The frame of both framers' host operations. -/
theorem framerOperation_frame {op : BitVec 4} {p : Ports} {who : Waiter} {dc : Level} {b : Byte} {s t : State}
    (ht : t = hostOperation op p (framer s.cfg who dc b) s) :
    t.pinDir = s.pinDir ∧ t.out .reset = s.out .reset ∧ t.out .rd = s.out .rd ∧ t.out .msel = s.out .msel
      ∧ t.seqState = s.seqState ∧ t.ptr = s.ptr ∧ t.recs = s.recs ∧ t.args = s.args ∧ t.dly = s.dly ∧ t.opc = s.opc
      ∧ t.rxhold = s.rxhold ∧ t.idx = s.idx ∧ t.cmds = s.cmds ∧ t.cfg = s.cfg
      ∧ (∀ a, t.dmemByte a = s.dmemByte a) ∧ (∀ a, t.romByte a = s.romByte a)
      ∧ (s.cfg.busMode = .parallel → t.xdone = s.xdone ∧ t.txbuf = s.txbuf ∧ t.pending = s.pending ∧ t.polls = s.polls)
      ∧ (s.cfg.busMode = .serial → t.data = s.data ∧ t.out .wr = s.out .wr) := by
  subst ht
  have hsame : ∀ r, r ∉ framerRegs s.cfg → r ≠ .control → Same s (hostOperation op p (framer s.cfg who dc b) s) r :=
    fun r h hr => hostOperation_same s (framer_not_writes h) hr
  have hother : ∀ r, r ∉ [Reg.latch .cs, .latch .dc, .latch .wr, .latch .d0, .latch .d1, .latch .d2, .latch .d3, .latch .d4,
      .latch .d5, .latch .d6, .latch .d7, .transfer] → r ≠ .control → Same s (hostOperation op p (framer s.cfg who dc b) s) r := by
    intro r hr
    refine hsame r ?_
    unfold framerRegs
    split <;> simp_all
  obtain ⟨hseq, hptr, hrecs, hargs, hdly, hopc⟩ := hother .sequencer (by simp) (by simp)
  refine ⟨pinDir_eq_of_same fun sig => hother _ (by simp) (by simp), hother (.latch .reset) (by simp) (by simp),
    hother (.latch .rd) (by simp) (by simp), hother (.latch .msel) (by simp) (by simp), hseq, hptr, hrecs, hargs, hdly, hopc,
    by simp, hother .idx (by simp) (by simp), by simp, by simp, dmemByte_eq_of_same (hother .dmem (by simp) (by simp)),
    romByte_congr (by simp), fun hm => ?_, fun hm => ?_⟩
  · exact hsame .transfer (by simp [framerRegs, hm]) (by simp)
  · refine ⟨data_eq_of_same ?_, hsame (.latch .wr) (by simp [framerRegs, hm]) (by simp)⟩
    intro sig hsig
    refine hsame _ ?_ (by simp)
    simp only [List.mem_cons, List.not_mem_nil, or_false] at hsig
    rcases hsig with rfl | rfl | rfl | rfl | rfl | rfl | rfl | rfl <;> simp [framerRegs, hm]

/-- Settles O21: both operations are `framerOperation_frame`. -/
theorem framersLeaveTheRestAlone : Obligations.FramersLeaveTheRestAlone := by
  rintro s t p (h | h)
  · cases h; exact framerOperation_frame (dc := Polarity.dcCommand) rfl
  · cases h; exact framerOperation_frame (dc := Polarity.dcData) rfl

/-- Settles O52: `XFER` writes MSEL, `IDX`, the transfer registers and nothing else before its first wait. -/
theorem xferLeavesTheRestAlone : Obligations.XferLeavesTheRestAlone := by
  intro s t p h
  cases h
  have hsame : ∀ r, r ≠ .latch .msel → r ≠ .idx → r ≠ .transfer → r ≠ .control →
      Same s (hostOperation 0x4 p (if s.cfg.hasSte then xferProgram s.cfg p.a p.b p.n else []) s) r := by
    intro r hl hi ht hc
    refine hostOperation_same s ?_ hc
    split
    · exact xferProgram_not_writes hl hi ht
    · simp
  obtain ⟨hseq, hptr, hrecs, hargs, hdly, hopc⟩ := hsame .sequencer (by simp) (by simp) (by simp) (by simp)
  exact ⟨pinDir_eq_of_same fun sig => hsame _ (by simp) (by simp) (by simp) (by simp),
    fun sig hne => hsame (.latch sig) (by simpa using hne) (by simp) (by simp) (by simp), hseq, hptr, hrecs, hargs, hdly, hopc,
    by simp, by simp, by simp, dmemByte_eq_of_same (hsame .dmem (by simp) (by simp) (by simp) (by simp)), romByte_congr (by simp)⟩

/-- The program of `COUNT` or `REC` before what `INIT` has still to do. -/
def tableProgram (c : Config) : Instr → List Micro
  | .count n => countProgram n
  | .record n d o args => recordProgram c n d o args
  | _ => []

/-- What `COUNT` and `REC` leave unchanged, in front of a record boundary or of nothing. -/
theorem tableProgram_same {s : State} {i : Instr} {r : Reg} (hst : s.todo = [] ∨ ∃ rest, s.todo = .records :: rest)
    (hr : r ∉ framerRegs s.cfg) (hs : r ≠ .sequencer) : Same s (run (tableProgram s.cfg i ++ s.todo) s) r := by
  have hprog : ∀ m ∈ tableProgram s.cfg i, r ∉ m.writes := by
    cases i with
    | count n => exact countProgram_not_writes hs
    | record n d o args => exact recordProgram_not_writes hr hs
    | _ => simp [tableProgram]
  refine run_same s fun m hm => hprog m ?_
  rcases hst with ht | ⟨rest, ht⟩
  · rw [ht, List.append_nil] at hm; exact mem_of_mem_reached hm
  · rw [ht] at hm; exact mem_of_mem_reached_records hm

end Sys2Proof.Machine
end

section
/-! PROOFS. The frames of the table program (40_sequencer.md) and of the line operations (42_pins_delay.md). -/

namespace Sys2Proof.Machine

/-- Every run leaves what `SequencerLeavesTheRestAlone` names for all three instructions, if no micro-action writes it. -/
theorem sequencer_frame {s t : State} (hconst : t.cfg = s.cfg ∧ t.rom = s.rom ∧ t.cmds = s.cmds ∧ t.rxhold = s.rxhold)
    (hidx : Same s t .idx) (hdmem : Same s t .dmem) (htransfer : s.cfg.busMode = .parallel → Same s t .transfer) :
    (∀ a, t.dmemByte a = s.dmemByte a) ∧ (∀ a, t.romByte a = s.romByte a) ∧ t.cfg = s.cfg ∧ t.cmds = s.cmds
      ∧ t.rxhold = s.rxhold ∧ t.idx = s.idx
      ∧ (s.cfg.busMode = .parallel → t.xdone = s.xdone ∧ t.txbuf = s.txbuf ∧ t.pending = s.pending ∧ t.polls = s.polls) := by
  obtain ⟨hcfg, hrom, hcmds, hrx⟩ := hconst
  exact ⟨dmemByte_eq_of_same hdmem, romByte_congr hrom, hcfg, hcmds, hrx, hidx, htransfer⟩

/-- The frame of `INIT`. -/
theorem initOperation_frame (p : Ports) (s : State) :
    let t := hostOperation 0x0 p (initProgram s) s
    (∀ a, t.dmemByte a = s.dmemByte a) ∧ (∀ a, t.romByte a = s.romByte a) ∧ t.cfg = s.cfg ∧ t.cmds = s.cmds
      ∧ t.rxhold = s.rxhold ∧ t.idx = s.idx
      ∧ (s.cfg.busMode = .parallel → t.xdone = s.xdone ∧ t.txbuf = s.txbuf ∧ t.pending = s.pending ∧ t.polls = s.polls) := by
  have hsame : ∀ r, r = .idx ∨ r = .dmem ∨ r = .transfer → Same s (hostOperation 0x0 p (initProgram s) s) r := by
    rintro r (rfl | rfl | rfl) <;>
      exact hostOperation_same s (initProgram_not_writes (by simp) (by simp) (by simp) (by simp)) (by simp)
  exact sequencer_frame (by simp) (hsame _ (by simp)) (hsame _ (by simp)) fun _ => hsame _ (by simp)

/-- The frame of `COUNT` and `REC`. -/
theorem tableProgram_frame (i : Instr) {s : State} (hst : s.todo = [] ∨ ∃ rest, s.todo = .records :: rest) :
    let t := run (tableProgram s.cfg i ++ s.todo) s
    ((∀ a, t.dmemByte a = s.dmemByte a) ∧ (∀ a, t.romByte a = s.romByte a) ∧ t.cfg = s.cfg ∧ t.cmds = s.cmds
      ∧ t.rxhold = s.rxhold ∧ t.idx = s.idx
      ∧ (s.cfg.busMode = .parallel → t.xdone = s.xdone ∧ t.txbuf = s.txbuf ∧ t.pending = s.pending ∧ t.polls = s.polls))
    ∧ t.pinDir = s.pinDir ∧ t.out .reset = s.out .reset ∧ t.out .rd = s.out .rd ∧ t.out .msel = s.out .msel
      ∧ t.busy = s.busy ∧ t.result = s.result := by
  have hsame : ∀ r, r ∉ framerRegs s.cfg → r ≠ .sequencer → Same s (run (tableProgram s.cfg i ++ s.todo) s) r :=
    fun r => tableProgram_same hst
  have hother : ∀ r, r ∉ [Reg.latch .cs, .latch .dc, .latch .wr, .latch .d0, .latch .d1, .latch .d2, .latch .d3, .latch .d4,
      .latch .d5, .latch .d6, .latch .d7, .transfer] → r ∉ framerRegs s.cfg := by
    intro r hr
    unfold framerRegs
    split <;> simp_all
  obtain ⟨hbusy, hresult⟩ := hsame .control (hother _ (by simp)) (by simp)
  exact ⟨sequencer_frame (run_constant _ _) (hsame _ (hother _ (by simp)) (by simp)) (hsame _ (hother _ (by simp)) (by simp))
      fun hm => hsame _ (by simp [framerRegs, hm]) (by simp),
    pinDir_eq_of_same fun sig => hsame _ (hother _ (by simp)) (by simp), hsame (.latch .reset) (hother _ (by simp)) (by simp),
    hsame (.latch .rd) (hother _ (by simp)) (by simp), hsame (.latch .msel) (hother _ (by simp)) (by simp), hbusy, hresult⟩

/-- Settles O42: `INIT` is `initOperation_frame`, the two table instructions are `tableProgram_frame`. -/
theorem sequencerLeavesTheRestAlone : Obligations.SequencerLeavesTheRestAlone := by
  rintro s t i hst hi h
  rcases hi with ⟨p, rfl⟩ | ⟨c, rfl⟩ | ⟨n, d, o, args, rfl⟩
  · cases h
    obtain ⟨hd, hr, hcfg, hcmds, hrx, hidx, htr⟩ := initOperation_frame p s
    exact ⟨hd, hr, hcfg, hcmds, hrx, hidx, htr, fun hp => absurd rfl (hp p)⟩
  · cases h
    obtain ⟨⟨hd, hr, hcfg, hcmds, hrx, hidx, htr⟩, hlines⟩ := tableProgram_frame (.count c) hst
    exact ⟨hd, hr, hcfg, hcmds, hrx, hidx, htr, fun _ => hlines⟩
  · cases h
    obtain ⟨⟨hd, hr, hcfg, hcmds, hrx, hidx, htr⟩, hlines⟩ := tableProgram_frame (.record n d o args) hst
    exact ⟨hd, hr, hcfg, hcmds, hrx, hidx, htr, fun _ => hlines⟩

/-! The line operations and `DELAY`. -/

/-- The micro-actions of the line operations and of `DELAY`. -/
def Micro.onLine : Micro → Prop
  | .pin _ _ => True
  | .dir _ _ => True
  | .delayMs _ => True
  | .opEnd _ => True
  | _ => False

/-- Two states differ in nothing but `BUSY`, `RESULT`, the pin registers, the trace and the model's own `todo` and `events`. -/
def SameButLines (s t : State) : Prop :=
  ∃ b r out dir tr l es,
    t = { s with busy := b, result := r, pinOut := out, pinDir := dir, trace := tr, todo := l, events := es }

theorem SameButLines.refl (s : State) : SameButLines s s := ⟨_, _, _, _, _, _, _, rfl⟩

theorem keeps_sameButLines (s : State) : Keeps Micro.onLine (SameButLines s) where
  inputs := by rintro _ l es ⟨b, r, out, dir, tr, _, _, rfl⟩; exact ⟨_, _, _, _, _, _, _, rfl⟩
  micro := by
    rintro m _ hm ⟨b, r, out, dir, tr, l, es, rfl⟩
    cases m with
    | pin sig v => rw [micro, pinWrite]; split <;> exact ⟨_, _, _, _, _, _, _, rfl⟩
    | dir sig d => rw [micro, dirWrite]; split <;> exact ⟨_, _, _, _, _, _, _, rfl⟩
    | delayMs n => exact ⟨_, _, _, _, _, _, _, rfl⟩
    | opEnd op => exact ⟨_, _, _, _, _, _, _, rfl⟩
    | _ => exact hm.elim
  loop := fun _ _ _ h => h.elim

/-- A host operation of such micro-actions. -/
theorem hostOperation_sameButLines {op : BitVec 4} {p : Ports} {prog : List Micro} (s : State) (h : ∀ m ∈ prog, m.onLine) :
    SameButLines s (hostOperation op p prog s) :=
  (keeps_sameButLines s).hostOperation h trivial (SameButLines.refl s) ⟨_, _, _, _, _, _, _, rfl⟩

theorem lineAction_onLine {c : Config} {p : Ports} {act : Signal → Micro} (h : ∀ sig, (act sig).onLine) :
    ∀ m ∈ lineAction c p act, m.onLine := by
  intro m hm
  obtain ⟨sig, -, rfl⟩ := Option.map_eq_some_iff.mp (Option.mem_toList.mp hm)
  exact h sig

theorem SameButLines.of_latches {s t : State} (h : SameButLines s t) (hdir : t.pinDir = s.pinDir) :
    t = { s with busy := t.busy, result := t.result, pinOut := t.pinOut, trace := t.trace, todo := t.todo, events := t.events } := by
  obtain ⟨b, r, out, dir, tr, l, es, rfl⟩ := h
  cases hdir
  rfl

theorem SameButLines.of_directions {s t : State} (h : SameButLines s t) (hout : t.pinOut = s.pinOut) :
    t = { s with busy := t.busy, result := t.result, pinDir := t.pinDir, trace := t.trace, todo := t.todo, events := t.events } := by
  obtain ⟨b, r, out, dir, tr, l, es, rfl⟩ := h
  cases hout
  rfl

/-- The frame of a host operation that is one latch write: `SETLN` and `CLRLN`. -/
theorem latchOperation_frame {op : BitVec 4} {p : Ports} {v : Level} {s t : State}
    (ht : t = hostOperation op p (lineAction s.cfg p fun sig => .pin sig v) s) :
    t = { s with busy := t.busy, result := t.result, pinOut := t.pinOut, trace := t.trace, todo := t.todo, events := t.events }
      ∧ ∀ sig, p.a.toNat % 16 ≠ sig.id → t.out sig = s.out sig := by
  have hlines : SameButLines s t := ht ▸ hostOperation_sameButLines s (lineAction_onLine fun _ => trivial)
  have hsame : ∀ r, (∀ sig, p.a.toNat % 16 = sig.id → r ≠ .latch sig) → r ≠ .control → Same s t r :=
    fun r h hr => ht ▸ hostOperation_same s (lineAction_not_writes fun sig hid => by simpa [Micro.writes] using h sig hid) hr
  refine ⟨hlines.of_latches (pinDir_eq_of_same fun sig => hsame _ (by simp) (by simp)), fun sig hne => ?_⟩
  exact hsame (.latch sig) (fun x hx => by simp; rintro rfl; exact hne hx) (by simp)

/-- Settles O27: the latch operations by `latchOperation_frame`; `CFGDIR` and `DELAY` write no latch, `DELAY` no direction either. -/
theorem lineOperationsLeaveTheRestAlone : Obligations.LineOperationsLeaveTheRestAlone := by
  intro s t p
  refine ⟨?_, fun h => ?_, fun h => ?_⟩
  · rintro (h | h) <;> cases h <;> exact latchOperation_frame rfl
  · cases h
    have hsame : ∀ r, (∀ sig, p.a.toNat % 16 = sig.id → r ≠ .direction sig) → r ≠ .control →
        Same s (hostOperation 0x7 p (lineAction s.cfg p fun sig => .dir sig (asOutputOperand p)) s) r :=
      fun r h hr => hostOperation_same s (lineAction_not_writes fun sig hid => by simpa [Micro.writes] using h sig hid) hr
    have hlines := hostOperation_sameButLines (op := 0x7) (p := p) s
      (lineAction_onLine (c := s.cfg) (p := p) (act := fun sig => .dir sig (asOutputOperand p)) fun _ => trivial)
    refine ⟨hlines.of_directions (pinOut_eq_of_same fun sig => hsame _ (by simp) (by simp)), fun sig hne => ?_⟩
    exact hsame (.direction sig) (fun x hx => by simp; rintro rfl; exact hne hx) (by simp)
  · cases h
    have hsame : ∀ r, r ≠ .control → Same s (hostOperation 0x3 p [.delayMs (millisOperand p)] s) r :=
      fun r hr => hostOperation_same s (by simp [Micro.writes]) hr
    have hdir := pinDir_eq_of_same fun sig => hsame (.direction sig) (by simp)
    have hout := pinOut_eq_of_same fun sig => hsame (.latch sig) (by simp)
    have hlines := hostOperation_sameButLines (op := 0x3) (p := p) (prog := [.delayMs (millisOperand p)]) s
      (by simp [Micro.onLine])
    rw [← hout]
    exact hlines.of_latches hdir

end Sys2Proof.Machine
end

section
/-! PROOFS. What a step of the whole machine keeps: the ROM, the parameters, the trace, the directions, the cell of the serial engine and the
bytes of DMEM (10_state.md, 20_memory.md). `StepKeeps.step` says it once: a property that CORE's micro-actions keep holds after the step, or an
agent of its own has moved. -/

namespace Sys2Proof.Machine

variable {ok : Micro → Prop} {P : State → Prop}

/-- The agents' moves that change registers by themselves: the completion, block reset and the host's store. -/
inductive AgentMoved (s : State) : State → Prop where
  | completion (r : Byte) (rest : List Timed) : s.events = ⟨0, .cpl r⟩ :: rest →
      AgentMoved s (completion r { s with events := rest })
  | reset (rest : List Timed) : s.events = ⟨0, .rst⟩ :: rest → AgentMoved s (blockReset { s with events := rest })
  | store (a : Word) (v : Byte) (rest : List Timed) : s.events = ⟨0, .hostStore a v⟩ :: rest →
      AgentMoved s (hostStore a v { s with events := rest })

/-- The host issues or presents the command next. -/
def HostCommands (s : State) (c : HostCmd) : Prop :=
  (∃ cs, s.cmds = c :: cs) ∨ ∃ rest, s.events = ⟨0, .present c⟩ :: rest

/-- A property of the registers that every micro-action of a kind keeps, at least each that writes neither a direction nor DMEM, and that
does not speak of the model's own fields, `BUSY`, `RESULT`, `POLLS` or the last event. -/
structure StepKeeps (ok : Micro → Prop) (P : State → Prop) : Prop extends Keeps ok P where
  other : ∀ m, (∀ sig, .direction sig ∉ m.writes) → .dmem ∉ m.writes → ok m
  commands : ∀ s cs, P s → P { s with cmds := cs }
  accept : ∀ op p s, P s → P (accept op p s)
  timeout : ∀ s, P s → P (emit .timeout s)
  polled : ∀ s, P s → P { s with polls := s.polls + 1 }

theorem StepKeeps.events (h : StepKeeps ok P) {s : State} (es : List Timed) (hs : P s) : P { s with events := es } :=
  h.inputs s s.todo es hs

theorem StepKeeps.ok_errorPath (h : StepKeeps ok P) (c : Config) (who : Waiter) (x : Result) (op : BitVec 4) :
    ∀ m ∈ errorPath (waitCleanup c who) x op, ok m := by
  intro m hm
  cases who <;> simp [errorPath, waitCleanup, framerRelease, modeRelease] at hm <;> rcases hm with rfl | rfl | rfl | rfl | rfl <;>
    exact h.other _ (by simp [Micro.writes]) (by simp [Micro.writes])

theorem framerRegs_control (c : Config) : (∀ sig, Reg.direction sig ∉ framerRegs c) ∧ Reg.dmem ∉ framerRegs c := by
  unfold framerRegs
  split <;> simp

theorem StepKeeps.ok_record (h : StepKeeps ok P) (c : Config) (n d o : Byte) (args : List Byte) :
    ∀ m ∈ recordProgram c n d o args, ok m := fun m hm =>
  h.other m (fun sig => recordProgram_not_writes ((framerRegs_control c).1 sig) (by simp) m hm)
    (recordProgram_not_writes (framerRegs_control c).2 (by simp) m hm)

theorem StepKeeps.ok_count (h : StepKeeps ok P) (n : Byte) : ∀ m ∈ countProgram n, ok m := fun m hm =>
  h.other m (fun _ => countProgram_not_writes (by simp) m hm) (countProgram_not_writes (by simp) m hm)

/-- After a step the property holds still, or an agent has moved; the programs that can run are CORE's remaining actions and that of
the host's command. -/
theorem StepKeeps.step (h : StepKeeps ok P) {s t : State} (he : step s = .next t) (hs : P s) (htodo : ∀ m ∈ s.todo, ok m)
    (hcmd : ∀ c, HostCommands s c → ∀ u : State, ∀ m ∈ commandProgram c u, ok m) : P t ∨ AgentMoved s t := by
  have hrun : ∀ (l : List Micro) (u : State), (∀ m ∈ l, ok m) → P u → P (run l u) :=
    fun l u hl hu => h.run (fun m hm => hl m (mem_of_mem_reached hm)) hu
  have hend : ∀ op, ok (.opEnd op) := fun op => h.other _ (by simp [Micro.writes]) (by simp [Micro.writes])
  have hrest : ∀ {m rest}, s.todo = m :: rest → ∀ x ∈ rest, ok x :=
    fun ht x hx => htodo x (ht ▸ List.mem_cons_of_mem _ hx)
  have happend : ∀ {l l' : List Micro}, (∀ m ∈ l, ok m) → (∀ m ∈ l', ok m) → ∀ m ∈ l ++ l', ok m :=
    fun hl hl' m hm => (List.mem_append.mp hm).elim (hl m) (hl' m)
  have htick : ∀ u, P u → P (tick u) := fun u hu => h.events (tickEvents u.events) hu
  cases step_moved he with
  | completion r rest hev => exact .inr (.completion r rest hev)
  | reset rest hev => exact .inr (.reset rest hev)
  | store a v rest hev => exact .inr (.store a v rest hev)
  | look rest hev => exact .inl (h.events rest hs)
  | ignored c rest hev => exact .inl (h.events rest hs)
  | presented c rest hev =>
    have hs' := h.events rest hs
    exact .inl (h.hostOperation (hcmd c (.inr ⟨rest, hev⟩) _) (hend _) hs' (h.accept _ _ _ hs'))
  | issued c cs _ _ _ hc =>
    have hs' := h.commands s cs hs
    exact .inl (h.hostOperation (hcmd c (.inl ⟨cs, hc⟩) _) (hend _) hs' (h.accept _ _ _ hs'))
  | answered who rest _ ht => exact .inl (hrun _ _ (hrest ht) (htick s hs))
  | gaveUp who rest _ ht => exact .inl (hrun _ _ (h.ok_errorPath _ _ _ _) (htick _ (h.timeout s hs)))
  | polled who rest => exact .inl (htick _ (h.polled s hs))
  | count rest _ ht => exact .inl (hrun _ _ (happend (h.ok_count _) (hrest ht)) (h.inputs s rest s.events hs))
  | record rest args _ ht => exact .inl (hrun _ _ (happend (h.ok_record _ _ _ _ _) (ht ▸ htodo)) hs)
  | recordsEnd rest _ ht => exact .inl (hrun _ _ (hrest ht) hs)
  | resumed m rest _ ht => exact .inl (hrun _ _ (ht ▸ htodo) hs)
  | idle => exact .inl (htick s hs)

/-- The same for a property that every micro-action keeps. -/
theorem StepKeeps.step_all (h : StepKeeps (fun _ => True) P) {s t : State} (he : Machine.step s = .next t) (hs : P s) :
    P t ∨ AgentMoved s t := h.step he hs (by simp) (by simp)

/-! Reset, completion and store. -/

/-- Settles O2: `State.reset` is one state. -/
theorem resetStateMeetsInvariants : Obligations.ResetStateMeetsInvariants := by
  refine ⟨?_, ?_, ?_, rfl⟩ <;> decide

/-- Settles O1: the step is `blockReset`, whose directions are all 0. -/
theorem blockResetLoadsEveryRegister : Obligations.BlockResetLoadsEveryRegister := by
  intro s rest hev
  have hstep : step s = .next (blockReset { s with events := rest }) := by simp only [step, agentsStep, hev, agentMove]
  have hfloat : ∀ sig, (blockReset { s with events := rest }).level sig = none := by
    intro sig
    have hdir : (blockReset { s with events := rest }).dir sig = false := by simp [State.dir, blockReset, State.resetWith]
    rw [State.level, hdir]
    rfl
  exact ⟨_, hstep, rfl, rfl, rfl, rfl, rfl, rfl, rfl, rfl, rfl, rfl, rfl, rfl, rfl, rfl, rfl, rfl, rfl, hfloat, rfl, rfl, rfl, rfl,
    rfl, rfl, rfl⟩

/-- Settles O50: the step is `completion`, which looks at `PENDING` first. -/
theorem completionFillsTheCell : Obligations.CompletionFillsTheCell := by
  intro s r rest hev
  have hstep : step s = .next (completion r { s with events := rest }) := by simp only [step, agentsStep, hev, agentMove]
  refine ⟨fun hp => ?_, fun hp => ?_⟩
  · rw [hstep, completion, if_pos hp]; rfl
  · rw [hstep, completion, if_neg (by simp [hp])]

/-- Settles O59: `Memory.read_write_same` and `Memory.read_write_other` at 16-bit addresses. -/
theorem memoryReadsBack : Obligations.MemoryReadsBack := by
  intro s a b v hwf
  by_cases hba : b = a
  · rw [if_pos hba, hba]
    exact Memory.read_write_same v hwf
  · rw [if_neg hba]
    exact Memory.read_write_other _ _ _ v (Word.toNat_ne hba)

/-! Properties of every step. -/

/-- Settles O56: no micro-action and no agent changes the ROM or the parameters. -/
theorem romAndParametersNeverChange : Obligations.RomAndParametersNeverChange := by
  intro s t he
  have hkeeps : StepKeeps (fun _ => True) fun u => u.rom = s.rom ∧ u.cfg = s.cfg :=
    { inputs := fun _ _ _ h => h
      micro := fun m u _ h => by simpa using h
      loop := by simp
      other := by simp
      commands := fun _ _ h => h
      accept := fun _ _ _ h => h
      timeout := fun _ h => h
      polled := fun _ h => h }
  rcases hkeeps.step_all he ⟨rfl, rfl⟩ with h | h
  · exact h
  · cases h with
    | completion r rest => simp
    | reset rest => exact ⟨rfl, rfl⟩
    | store a v rest => simp

/-- A micro-action only appends to the trace. -/
theorem micro_trace_prefix (m : Micro) (s : State) : s.trace <+: (micro m s).trace := by
  cases m with
  | pin sig v => rw [micro, pinWrite]; split <;> simp
  | dir sig d => rw [micro, dirWrite]; split <;> simp
  | storeRx a => simp [micro]
  | _ => simp [micro]

/-- Settles O57: every micro-action and the completion append (`micro_trace_prefix`); `rst` empties. -/
theorem traceOnlyGrows : Obligations.TraceOnlyGrows := by
  intro s t he
  have hkeeps : StepKeeps (fun _ => True) fun u => s.trace <+: u.trace :=
    { inputs := fun _ _ _ h => h
      micro := fun m u _ h => h.trans (micro_trace_prefix m u)
      loop := by simp
      other := by simp
      commands := fun _ _ h => h
      accept := fun op p u h => h.trans (List.prefix_append _ _)
      timeout := fun u h => h.trans (List.prefix_append _ _)
      polled := fun _ h => h }
  have hgrows : ∀ {u : State}, s.trace <+: u.trace → ∃ es, u.trace = s.trace ++ es := fun ⟨es, h⟩ => ⟨es, h.symm⟩
  rcases hkeeps.step_all he List.prefix_rfl with h | h
  · exact .inr (hgrows h)
  · cases h with
    | completion r rest =>
      refine .inr (hgrows ?_)
      unfold completion
      split <;> simp
    | reset rest hev => exact .inl ⟨rest, hev, rfl⟩
    | store a v rest =>
      refine .inr (hgrows ?_)
      unfold hostStore
      split <;> simp

/-- CORE never sets `XDONE`, never clears `PENDING` and never writes `RXHOLD`. -/
theorem stepKeeps_cell (s : State) : StepKeeps (fun _ => True) fun u =>
    (s.xdone = false → u.xdone = false) ∧ u.rxhold = s.rxhold ∧ (s.pending = true → u.pending = true) where
  inputs := fun _ _ _ h => h
  micro := by
    rintro m u - ⟨hx, hr, hp⟩
    cases m <;> simp_all [micro]
  loop := by simp
  other := by simp
  commands := fun _ _ h => h
  accept := fun _ _ _ h => h
  timeout := fun _ h => h
  polled := fun _ h => h

/-- Settles O51: `stepKeeps_cell` for CORE; of the agents the completion sets the flag and the holder, when a transfer is pending, and `rst`
clears. -/
theorem onlyCompletionFillsTheCell : Obligations.OnlyCompletionFillsTheCell := by
  intro s t he
  rcases (stepKeeps_cell s).step_all he ⟨id, rfl, id⟩ with ⟨hx, hr, hp⟩ | h
  · exact ⟨fun h0 h1 => by simp [hx h0] at h1, fun hne => absurd hr hne, fun h1 h0 => by simp [hp h1] at h0⟩
  · cases h with
    | completion r rest hev =>
      by_cases hpend : s.pending = true
      · have hfill : completion r { s with events := rest } =
            emit (.cpl r) { s with events := rest, rxhold := r, xdone := true, pending := false } := if_pos hpend
        rw [hfill]
        exact ⟨fun _ _ => ⟨hpend, r, rest, hev⟩, fun _ => ⟨rest, .inl hev⟩, fun _ _ => ⟨rest, .inl ⟨r, hev⟩⟩⟩
      · have hskip : completion r { s with events := rest } = { s with events := rest } := if_neg hpend
        rw [hskip]
        exact ⟨fun h0 h1 => by simp [h0] at h1, fun hne => absurd rfl hne, fun h1 => absurd h1 hpend⟩
    | reset rest hev => exact ⟨fun _ h1 => Bool.noConfusion h1, fun _ => ⟨rest, .inr hev⟩, fun _ _ => ⟨rest, .inr hev⟩⟩
    | store a v rest =>
      unfold hostStore
      split <;> exact ⟨fun h0 h1 => by simp [h0] at h1, fun hne => absurd rfl hne, fun h1 h0 => by simp [h1] at h0⟩

/-- `XFER`'s store is the only micro-action that changes a byte of DMEM, the one at its own address. -/
theorem micro_dmemByte {m : Micro} {a : Word} (s : State) (h : m ≠ .storeRx a) : (micro m s).dmemByte a = s.dmemByte a := by
  by_cases hm : .dmem ∈ m.writes
  · cases m with
    | storeRx b => exact Memory.read_write_other _ _ _ _ (Word.toNat_ne fun hab => h (by rw [hab]))
    | _ => simp [Micro.writes] at hm
  · exact dmemByte_eq_of_same (micro_same s hm) a

theorem stepKeeps_dmemByte (s : State) (a : Word) :
    StepKeeps (fun m => m ≠ .storeRx a) fun u => u.dmemByte a = s.dmemByte a where
  inputs := fun _ _ _ h => h
  micro := fun m u hm h => (micro_dmemByte u hm).trans h
  loop := by simp
  other := by rintro m - hm rfl; simp [Micro.writes] at hm
  commands := fun _ _ h => h
  accept := fun _ _ _ h => h
  timeout := fun _ h => h
  polled := fun _ h => h

/-- The program of a host command holds no store of a received byte before its first wait. -/
theorem commandProgram_not_stores (c : HostCmd) (s : State) (a : Word) : ∀ m ∈ commandProgram c s, m ≠ .storeRx a := by
  have hprog : ∀ i, ∀ m ∈ hostProgram s i, .dmem ∉ m.writes := by
    intro i
    cases i with
    | count n => simp [hostProgram]
    | record n d o args => simp [hostProgram]
    | init p => exact initProgram_not_writes (by simp) (by simp) (by simp) (by simp)
    | txcmd p => exact framer_not_writes (framerRegs_control _).2
    | txdat p => exact framer_not_writes (framerRegs_control _).2
    | delay p => simp [hostProgram, Micro.writes]
    | xfer p =>
      simp only [hostProgram]
      split
      · exact xferProgram_not_writes (by simp) (by simp) (by simp)
      · simp
    | setln p => exact lineAction_not_writes (by simp [Micro.writes])
    | clrln p => exact lineAction_not_writes (by simp [Micro.writes])
    | cfgdir p => exact lineAction_not_writes (by simp [Micro.writes])
  rintro m hm rfl
  unfold commandProgram at hm
  split at hm
  · exact hprog _ _ hm (by simp [Micro.writes])
  · simp at hm

/-- Settles O58: CORE's only store is `storeRx`, which no command's program brings (`commandProgram_not_stores`); of the agents only the
host stores, with BUSY 0, and block reset keeps DMEM. -/
theorem dmemChangesOnlyByStores : Obligations.DmemChangesOnlyByStores := by
  intro s t a he hne
  by_cases htodo : Micro.storeRx a ∈ s.todo
  · exact .inr htodo
  · have hother : ∀ m ∈ s.todo, m ≠ .storeRx a := fun m hm h => htodo (h ▸ hm)
    rcases (stepKeeps_dmemByte s a).step he rfl hother (fun c _ u => commandProgram_not_stores c u a) with h | h
    · exact absurd h hne
    · cases h with
      | completion r rest => exact absurd (by simp [State.dmemByte]) hne
      | reset rest => exact absurd rfl hne
      | store b v rest hev =>
        refine .inl ?_
        by_cases hb : s.busy = true
        · exact absurd (by simp [hostStore, hb, State.dmemByte]) hne
        · have hab : a = b := by
            by_contra hab
            refine hne ?_
            simp only [hostStore, hb, State.dmemByte]
            exact Memory.read_write_other _ _ _ _ (Word.toNat_ne hab)
          exact ⟨by simpa using hb, v, rest, hab ▸ hev⟩

/-- A direction bit that is 1 falls only by a write of 0 to it. -/
theorem micro_dir_true {m : Micro} {sig : Signal} {s : State} (h : m ≠ .dir sig false) (hs : s.dir sig = true) :
    (micro m s).dir sig = true := by
  by_cases hm : .direction sig ∈ m.writes
  · cases m with
    | dir x d =>
      obtain rfl : sig = x := by simpa [Micro.writes] using hm
      have hd : d = true := by simpa using h
      rw [micro, dirWrite]
      split <;> simp_all [State.dir]
    | _ => simp [Micro.writes] at hm
  · have hsame : (micro m s).dir sig = s.dir sig := micro_same s hm
    rw [hsame, hs]

theorem stepKeeps_dir_true (sig : Signal) : StepKeeps (fun m => m ≠ .dir sig false) fun u => u.dir sig = true where
  inputs := fun _ _ _ h => h
  micro := fun m u hm h => micro_dir_true hm h
  loop := by simp
  other := by rintro m hm - rfl; simp [Micro.writes] at hm
  commands := fun _ _ h => h
  accept := fun _ _ _ h => h
  timeout := fun _ h => h
  polled := fun _ h => h

/-- Of the programs of the host's commands only that of a `CFGDIR` of the signal with `asOutput` 0 clears a direction. -/
theorem commandProgram_clears {c : HostCmd} {s : State} {sig : Signal} (h : Micro.dir sig false ∈ commandProgram c s) :
    c.op = 0x7 ∧ c.ports.a.toNat % 16 = sig.id ∧ c.ports.b.toNat % 2 = 0 := by
  obtain ⟨op, p⟩ := c
  have hwrites : .direction sig ∈ (Micro.dir sig false).writes := by simp [Micro.writes]
  unfold commandProgram at h
  split at h
  · rename_i i rest hd
    obtain ⟨hwf, henc⟩ := decodeCommand_eq_instr hd
    cases i with
    | count n => cases henc
    | record n d o args => cases henc
    | init q =>
      simp only [hostProgram, initProgram, electricalReset, lines] at h
      split at h <;> simp at h
    | txcmd q => exact absurd hwrites (framer_not_writes ((framerRegs_control _).1 sig) _ h)
    | txdat q => exact absurd hwrites (framer_not_writes ((framerRegs_control _).1 sig) _ h)
    | delay q => simp [hostProgram] at h
    | xfer q =>
      simp only [hostProgram] at h
      split at h
      · exact absurd hwrites (xferProgram_not_writes (by simp) (by simp) (by simp) _ h)
      · simp at h
    | setln q => exact absurd hwrites (lineAction_not_writes (by simp [Micro.writes]) _ h)
    | clrln q => exact absurd hwrites (lineAction_not_writes (by simp [Micro.writes]) _ h)
    | cfgdir q =>
      cases henc
      obtain ⟨x, hx, hact⟩ := Option.map_eq_some_iff.mp (Option.mem_toList.mp h)
      obtain ⟨rfl, hout⟩ := Micro.dir.inj hact
      rw [asOutputOperand_eq] at hout
      exact ⟨rfl, (signalOperand_eq_some_iff.mp hx).1, by simpa using hout⟩
  · simp at h

/-- Settles O28: a write of 0 to the direction comes from `todo` or from a `CFGDIR` (`commandProgram_clears`); of the agents only `rst` clears
directions. -/
theorem onlyCfgdirClearsADirection : Obligations.OnlyCfgdirClearsADirection := by
  intro s t sig he h1 h0
  by_cases htodo : Micro.dir sig false ∈ s.todo
  · exact .inr (.inl htodo)
  by_cases hcmd : ∃ c, HostCommands s c ∧ ∃ u, Micro.dir sig false ∈ commandProgram c u
  · obtain ⟨⟨op, p⟩, hhost, u, hm⟩ := hcmd
    obtain ⟨rfl, hid, hb⟩ := commandProgram_clears hm
    exact .inr (.inr ⟨p, hid, hb, hhost⟩)
  · refine .inl ?_
    have hkept := (stepKeeps_dir_true sig).step he h1 (fun m hm h => htodo (h ▸ hm))
      (fun c hc u m hm h => hcmd ⟨c, hc, u, h ▸ hm⟩)
    rcases hkept with h | h
    · simp [h] at h0
    · cases h with
      | completion r rest => simp_all [State.dir]
      | reset rest hev => exact ⟨rest, hev⟩
      | store a v rest =>
        unfold hostStore at h0
        split at h0 <;> simp_all [State.dir]

end Sys2Proof.Machine
end

section
/-! PROOFS. The three invariants of the machine: canonical memories (20_memory.md), the control invariant (10_state.md R21, 40_sequencer.md R85,
R94) and the build invariant (00_scope.md D33, 60_exceptions.md R180). -/

namespace Sys2Proof.Machine

/-! Memories. -/

/-- Only `XFER`'s store writes a memory, through a 16-bit address. -/
theorem micro_memoriesOk {s : State} (m : Micro) (h : s.memoriesOk = true) : (micro m s).memoriesOk = true := by
  simp only [State.memoriesOk, Bool.and_eq_true] at h ⊢
  obtain ⟨hrom, hdmem⟩ := h
  refine ⟨by simpa using hrom, ?_⟩
  cases m with
  | storeRx a => exact Memory.wf_write hdmem a _
  | _ => simpa [micro] using hdmem

/-- Settles O53: `micro_memoriesOk` for CORE; of the agents the host's store writes DMEM, through a 16-bit address. -/
theorem memoriesStayCanonical : Obligations.MemoriesStayCanonical := by
  intro s t hs he
  have hkeeps : StepKeeps (fun _ => True) fun u => u.memoriesOk = true :=
    { inputs := fun _ _ _ h => h
      micro := fun m u _ h => micro_memoriesOk m h
      loop := by simp
      other := by simp
      commands := fun _ _ h => h
      accept := fun _ _ _ h => h
      timeout := fun _ h => h
      polled := fun _ h => h }
  rcases hkeeps.step_all he hs with h | h
  · exact h
  · cases h with
    | completion r rest => simpa [State.memoriesOk] using hs
    | reset rest => exact hs
    | store a v rest =>
      unfold hostStore
      split
      · exact hs
      · simp only [State.memoriesOk, Bool.and_eq_true] at hs ⊢
        obtain ⟨hrom, hdmem⟩ := hs
        exact ⟨hrom, Memory.wf_write hdmem a v⟩

/-! The control invariant. -/

/-- The micro-action is the end step. -/
def Micro.isEnd : Micro → Bool
  | .opEnd _ => true
  | _ => false

theorem endsOnce_cons {m : Micro} (l : List Micro) (h : m.isEnd = false) : endsOnce (m :: l) = endsOnce l := by
  cases m <;> first | rfl | cases h

theorem endsOnce_append {l : List Micro} (l' : List Micro) (h : ∀ m ∈ l, m.isEnd = false) : endsOnce (l ++ l') = endsOnce l' := by
  induction l with
  | nil => rfl
  | cons m l ih =>
    rw [List.cons_append, endsOnce_cons _ (h m List.mem_cons_self), ih fun x hx => h x (List.mem_cons_of_mem _ hx)]

/-- An end step that is made was the last micro-action. -/
theorem endsOnce_opEnd {op : BitVec 4} {l : List Micro} (h : endsOnce (.opEnd op :: l) = true) : l = [] := by
  cases l with
  | nil => rfl
  | cons m l => cases h

/-- The control invariant of a state with a program still to be made. -/
structure ControlLegal (l : List Micro) (s : State) : Prop where
  ends : if s.busy then endsOnce l = true else l = []
  seq : seqLegal s.seqState l = true
  counters : countersLegal s.recs.toNat s.args.toNat l = true

theorem controlOk_iff (s : State) : s.controlOk = true ↔ ControlLegal s.todo s := by
  have hends : (if s.busy then endsOnce s.todo else decide (s.todo = [])) = true
      ↔ (if s.busy then endsOnce s.todo = true else s.todo = []) := by
    split <;> simp
  simp only [State.controlOk, Bool.and_eq_true, hends]
  exact ⟨fun ⟨⟨h1, h2⟩, h3⟩ => ⟨h1, h2, h3⟩, fun ⟨h1, h2, h3⟩ => ⟨⟨h1, h2⟩, h3⟩⟩

/-- Where something is left to do, BUSY is 1. -/
theorem ControlLegal.busy {m : Micro} {l : List Micro} {s : State} (h : ControlLegal (m :: l) s) : s.busy = true := by
  by_contra hb
  have := h.ends
  simp [hb] at this

theorem ControlLegal.endsOnce {m : Micro} {l : List Micro} {s : State} (h : ControlLegal (m :: l) s) :
    endsOnce (m :: l) = true := by
  have := h.ends
  rwa [if_pos h.busy] at this

/-- A program that starts as one with BUSY 1 does. -/
theorem ControlLegal.of_busy {l : List Micro} {s : State} (hb : s.busy = true) (he : Machine.endsOnce l = true)
    (hs : seqLegal s.seqState l = true) (hc : countersLegal s.recs.toNat s.args.toNat l = true) : ControlLegal l s :=
  ⟨by rwa [if_pos hb], hs, hc⟩

/-- With larger counters fewer decrements meet a zero. -/
theorem countersLegal_mono {l : List Micro} {n n' a a' : Nat} (hn : n ≤ n') (ha : a ≤ a') (h : countersLegal n a l = true) :
    countersLegal n' a' l = true := by
  fun_induction countersLegal n a l generalizing n' a' with
  | case1 => rfl
  | case2 n a v rest ih => exact ih le_rfl ha h
  | case3 n a v rest ih => exact ih hn le_rfl h
  | case4 n a rest ih =>
    simp only [countersLegal, Bool.and_eq_true, decide_eq_true_eq] at h ⊢
    exact ⟨by omega, ih hn (by omega) h.2⟩
  | case5 n a rest ih =>
    simp only [countersLegal, Bool.and_eq_true, decide_eq_true_eq] at h ⊢
    exact ⟨by omega, ih (by omega) ha h.2⟩
  | case6 => exact h
  | case7 => exact h
  | case8 n a m rest h1 h2 h3 h4 h5 h6 ih =>
    rw [countersLegal] <;> try assumption
    exact ih hn ha h

/-- A decrement of a byte that is not 0. -/
theorem Byte.toNat_sub_one {x : Byte} (h : x.toNat ≠ 0) : (x - 1).toNat = x.toNat - 1 := by
  have := x.isLt
  rw [BitVec.toNat_sub, show (1 : Byte).toNat = 1 from rfl]
  omega

/-- The transitions of `SEQ_STATE` along one micro-action (40_sequencer.md R85). -/
theorem seqLegal_micro {m : Micro} {rest : List Micro} {s : State} (hm : m.stops = false)
    (h : seqLegal s.seqState (m :: rest) = true) : seqLegal (micro m s).seqState rest = true := by
  cases m with
  | seq x => exact (Bool.and_eq_true _ _ ▸ h).2
  | settle => exact (Bool.and_eq_true _ _ ▸ h).2
  | settled => exact (Bool.and_eq_true _ _ ▸ h).2
  | poll who => cases hm
  | tableHead => cases hm
  | records => cases hm
  | xferLoop a b n => cases hm
  | _ => simpa [seqLegal, micro] using h

/-- The counters along one micro-action (40_sequencer.md R94). -/
theorem countersLegal_micro {m : Micro} {rest : List Micro} {s : State} (hm : m.stops = false)
    (h : countersLegal s.recs.toNat s.args.toNat (m :: rest) = true) :
    countersLegal (micro m s).recs.toNat (micro m s).args.toNat rest = true := by
  cases m with
  | romRd dst v => cases dst <;> exact h
  | argSent =>
    simp only [countersLegal, Bool.and_eq_true, decide_eq_true_eq] at h
    rw [← Byte.toNat_sub_one h.1] at h
    exact h.2
  | settled =>
    simp only [countersLegal, Bool.and_eq_true, decide_eq_true_eq] at h
    rw [← Byte.toNat_sub_one h.1] at h
    exact h.2
  | poll who => cases hm
  | tableHead => cases hm
  | records => cases hm
  | xferLoop a b n => cases hm
  | _ => simpa [countersLegal, micro] using h

/-- BUSY falls with the end step and with nothing else. -/
theorem micro_busy {m : Micro} (s : State) (h : m.isEnd = false) : (micro m s).busy = s.busy := by
  cases m with
  | opEnd op => cases h
  | _ => simp [micro]

theorem ControlLegal.micro {m : Micro} {rest : List Micro} {s : State} (hm : m.stops = false) (h : ControlLegal (m :: rest) s) :
    ControlLegal rest (micro m s) where
  seq := seqLegal_micro hm h.seq
  counters := countersLegal_micro hm h.counters
  ends := by
    by_cases hend : m.isEnd = true
    · cases m with
      | opEnd op => exact endsOnce_opEnd h.endsOnce
      | _ => cases hend
    · have hend : m.isEnd = false := by simpa using hend
      rw [micro_busy s hend, if_pos h.busy, ← endsOnce_cons rest hend]
      exact h.endsOnce

/-! What the programs add in front of a legal rest. -/

/-- A framer leaves `SEQ_STATE`; its wait lies in `INIT` or in a resting state. -/
theorem seqLegal_framer {st : SeqState} {who : Waiter} (c : Config) (dc : Level) (b : Byte) (rest : List Micro)
    (h : who = .init ∨ st.resting = true) : seqLegal st (framer c who dc b ++ rest) = seqLegal st rest := by
  unfold framer
  split <;> simp [seqLegal, serByte, framerRelease, h]

theorem countersLegal_framer (n a : Nat) (c : Config) (who : Waiter) (dc : Level) (b : Byte) (rest : List Micro) :
    countersLegal n a (framer c who dc b ++ rest) = countersLegal n a rest := by
  unfold framer
  split <;> rfl

theorem framer_isEnd (c : Config) (who : Waiter) (dc : Level) (b : Byte) : ∀ m ∈ framer c who dc b, m.isEnd = false := by
  unfold framer
  split <;> simp [Micro.isEnd, serByte, framerRelease]

theorem seqLegal_args (st : SeqState) (c : Config) (args : List Byte) (rest : List Micro) :
    seqLegal st (args.flatMap (argProgram c) ++ rest) = seqLegal st rest := by
  induction args with
  | nil => rfl
  | cons x args ih =>
    have hx : seqLegal st (argProgram c x ++ (args.flatMap (argProgram c) ++ rest))
        = seqLegal st (args.flatMap (argProgram c) ++ rest) := by
      simp only [argProgram, List.cons_append, List.append_assoc, seqLegal, txData]
      rw [seqLegal_framer _ _ _ _ (.inl rfl)]
      rfl
    rw [List.flatMap_cons, List.append_assoc, hx, ih]

/-- `ARGS` counts the arguments down to 0. -/
theorem countersLegal_args (n : Nat) (c : Config) (args : List Byte) (rest : List Micro) :
    countersLegal n args.length (args.flatMap (argProgram c) ++ rest) = countersLegal n 0 rest := by
  induction args with
  | nil => rfl
  | cons x args ih =>
    have hx : countersLegal n (args.length + 1) (argProgram c x ++ (args.flatMap (argProgram c) ++ rest))
        = countersLegal n args.length (args.flatMap (argProgram c) ++ rest) := by
      simp only [argProgram, List.cons_append, List.append_assoc, countersLegal, txData]
      rw [countersLegal_framer]
      simp [countersLegal]
    rw [List.flatMap_cons, List.append_assoc, List.length_cons, hx, ih]

theorem recordProgram_isEnd (c : Config) (n d o : Byte) (args : List Byte) : ∀ m ∈ recordProgram c n d o args, m.isEnd = false :=
  forall_mem_recordProgram (fun dc b => framer_isEnd c .init dc b) (fun _ _ => rfl) rfl rfl rfl

/-- A record from `ApplyingRecord` comes back to it. -/
theorem seqLegal_record (c : Config) (n d o : Byte) (args : List Byte) (rest : List Micro) :
    seqLegal .applyingRecord (recordProgram c n d o args ++ rest) = seqLegal .applyingRecord rest := by
  simp only [recordProgram, List.cons_append, List.append_assoc, seqLegal, txCommand]
  rw [seqLegal_framer _ _ _ _ (.inl rfl), seqLegal_args]
  simp [seqLegal]

theorem countersLegal_record {n : Byte} {args : List Byte} {r a : Nat} (c : Config) (d o : Byte) (rest : List Micro)
    (hlen : args.length = n.toNat) (hr : r ≠ 0) :
    countersLegal r a (recordProgram c n d o args ++ rest) = countersLegal (r - 1) 0 rest := by
  simp only [recordProgram, List.cons_append, List.append_assoc, countersLegal, txCommand]
  rw [countersLegal_framer, ← hlen, countersLegal_args]
  simp [countersLegal, hr]

/-- The program of a host operation, begun in a resting state, ends in one. -/
theorem seqLegal_hostProgram {st : SeqState} (s : State) (i : Instr) (op : BitVec 4) (h : st.resting = true) :
    seqLegal st (hostProgram s i ++ [Micro.opEnd op]) = true := by
  cases i with
  | count _ | record _ _ _ _ => exact h
  | init p =>
    simp only [hostProgram, initProgram, electricalReset, lines]
    cases s.cfg.hasSte <;> split <;> simp [seqLegal, seqTransition, SeqState.resting]
  | txcmd p => exact (seqLegal_framer _ _ _ _ (.inr h)).trans h
  | txdat p => exact (seqLegal_framer _ _ _ _ (.inr h)).trans h
  | delay p => exact h
  | xfer p =>
    simp only [hostProgram]
    split <;> simp [xferProgram, modeRelease, seqLegal, h]
  | setln p | clrln p | cfgdir p => simp only [hostProgram, lineAction]; cases signalOperand s.cfg p <;> exact h

theorem countersLegal_hostProgram (n a : Nat) (s : State) (i : Instr) (op : BitVec 4) :
    countersLegal n a (hostProgram s i ++ [Micro.opEnd op]) = true := by
  cases i with
  | count _ | record _ _ _ _ => rfl
  | init p =>
    simp only [hostProgram, initProgram, electricalReset, lines]
    cases s.cfg.hasSte <;> split <;> simp [countersLegal]
  | txcmd p => exact countersLegal_framer ..
  | txdat p => exact countersLegal_framer ..
  | delay p => rfl
  | xfer p => simp only [hostProgram]; split <;> rfl
  | setln p | clrln p | cfgdir p => simp only [hostProgram, lineAction]; cases signalOperand s.cfg p <;> rfl

theorem hostProgram_isEnd (s : State) (i : Instr) : ∀ m ∈ hostProgram s i, m.isEnd = false := by
  cases i with
  | count _ | record _ _ _ _ => simp [hostProgram]
  | init p =>
    simp only [hostProgram, initProgram, electricalReset, lines]
    cases s.cfg.hasSte <;> split <;> simp [Micro.isEnd]
  | txcmd p => exact framer_isEnd _ _ _ _
  | txdat p => exact framer_isEnd _ _ _ _
  | delay p => simp [hostProgram, Micro.isEnd]
  | xfer p => simp only [hostProgram]; split <;> simp [xferProgram, modeRelease, Micro.isEnd]
  | setln p | clrln p | cfgdir p => simp only [hostProgram, lineAction]; cases signalOperand s.cfg p <;> simp [Micro.isEnd]

/-- The error path of a wait that `SEQ_STATE` allows ends in a resting state (60_exceptions.md R184, 40_sequencer.md R88). -/
theorem seqLegal_errorPath {st : SeqState} {who : Waiter} (c : Config) (x : Result) (op : BitVec 4)
    (h : who = .init ∨ st.resting = true) : seqLegal st (errorPath (waitCleanup c who) x op) = true := by
  cases who <;>
    simp_all [errorPath, waitCleanup, framerRelease, modeRelease, seqLegal, seqTransition, SeqState.resting]

theorem countersLegal_errorPath (n a : Nat) (c : Config) (who : Waiter) (x : Result) (op : BitVec 4) :
    countersLegal n a (errorPath (waitCleanup c who) x op) = true := by
  cases who <;> rfl

theorem endsOnce_errorPath (c : Config) (who : Waiter) (x : Result) (op : BitVec 4) :
    endsOnce (errorPath (waitCleanup c who) x op) = true := by
  cases who <;> rfl

/-- With BUSY 0 nothing is left to do and `SEQ_STATE` rests (10_state.md R21, 40_sequencer.md R85). -/
theorem ControlLegal.resting {l : List Micro} {s : State} (h : ControlLegal l s) (hb : s.busy = false) :
    l = [] ∧ s.seqState.resting = true := by
  have hl : l = [] := by simpa [hb] using h.ends
  subst hl
  exact ⟨rfl, h.seq⟩

theorem ControlLegal.step_poll {who : Waiter} {rest : List Micro} {s : State} (h : ControlLegal (.poll who :: rest) s) :
    (who = .init ∨ s.seqState.resting = true) ∧ ControlLegal rest s := by
  have hseq := h.seq
  simp only [seqLegal, Bool.and_eq_true, Bool.or_eq_true, decide_eq_true_eq] at hseq
  exact ⟨hseq.1, .of_busy h.busy h.endsOnce hseq.2 h.counters⟩

/-- Every micro-action, stop and agent's move carries the control invariant on. -/
theorem controlLegal_stepInvariant : StepInvariant ControlLegal where
  todo := fun _ _ _ h => ⟨h.ends, h.seq, h.counters⟩
  inputs := fun _ _ _ _ h => ⟨h.ends, h.seq, h.counters⟩
  micro := fun m rest s hm h => ⟨(h.micro hm).ends, (h.micro hm).seq, (h.micro hm).counters⟩
  loopEnd := by
    intro a b n rest s _ h
    exact .of_busy h.busy h.endsOnce (by simpa [seqLegal] using (Bool.and_eq_true _ _ ▸ h.seq).2) h.counters
  loopBody := by
    intro a b n rest s _ h
    refine .of_busy h.busy h.endsOnce ?_ h.counters
    have hseq := h.seq
    simp_all [seqLegal, xferByte, serByte]
  issue := by
    intro s i op p h hb
    obtain ⟨-, hrest⟩ := h.resting hb
    exact .of_busy rfl (endsOnce_append _ (hostProgram_isEnd s i)) (seqLegal_hostProgram s i op hrest)
      (countersLegal_hostProgram _ _ s i op)
  reserved := by
    intro s op p h hb
    exact .of_busy rfl rfl (h.resting hb).2 rfl
  answered := fun _ _ _ h _ => h.step_poll.2
  gaveUp := fun _ _ s h _ => .of_busy h.busy (endsOnce_errorPath _ _ _ _) (seqLegal_errorPath _ _ _ h.step_poll.1)
    (countersLegal_errorPath _ _ _ _ _ _)
  polled := fun _ _ _ h => ⟨h.ends, h.seq, h.counters⟩
  count := by
    intro rest s c h
    have hseq := h.seq
    simp only [seqLegal, Bool.and_eq_true, decide_eq_true_eq] at hseq
    have hcounters : countersLegal c.toNat s.args.toNat rest = true :=
      countersLegal_mono (Nat.zero_le _) (Nat.zero_le _) h.counters
    refine .of_busy h.busy h.endsOnce ?_ hcounters
    simpa [countProgram, seqLegal, seqTransition, hseq.1] using hseq.2
  record := by
    intro rest s n d o args h hr hlen
    have hseq := h.seq
    simp only [seqLegal, Bool.and_eq_true, decide_eq_true_eq] at hseq
    refine .of_busy h.busy ?_ ?_ ?_
    · rw [endsOnce_append _ (recordProgram_isEnd _ _ _ _ _)]
      exact h.endsOnce
    · rw [hseq.1, seqLegal_record, ← hseq.1]
      exact h.seq
    · rw [countersLegal_record _ _ _ _ hlen fun h0 => hr (BitVec.eq_of_toNat_eq h0)]
      exact h.counters
  recordsEnd := by
    intro rest s h _
    refine .of_busy h.busy h.endsOnce (Bool.and_eq_true _ _ ▸ h.seq).2 ?_
    exact countersLegal_mono (Nat.zero_le _) (Nat.zero_le _) h.counters
  completion := fun s r h => ⟨by simpa using h.ends, by simpa using h.seq, by simpa using h.counters⟩
  reset := fun _ _ => ⟨rfl, rfl, rfl⟩
  store := by
    intro s a v h
    unfold hostStore
    split
    · exact h
    · exact ⟨h.ends, h.seq, h.counters⟩

/-- Settles O54: `controlLegal_stepInvariant` through `StepInvariant.step`; with BUSY 0 the state rests. -/
theorem controlStaysLegal : Obligations.ControlStaysLegal := by
  intro s t hs he
  have ht := controlLegal_stepInvariant.step ((controlOk_iff s).mp hs) he
  refine ⟨(controlOk_iff t).mpr ht, fun hb => ?_⟩
  have hrest := (ht.resting hb).2
  cases hst : t.seqState with
  | notStarted => exact .inl rfl
  | done => exact .inr rfl
  | applyingRecord => rw [hst] at hrest; cases hrest
  | awaitingSettle => rw [hst] at hrest; cases hrest

end Sys2Proof.Machine
end

section
/-! PROOFS. The build invariant (00_scope.md D33, 10_state.md R12, 60_exceptions.md R180): what a configuration lacks stays at its reset value. -/

namespace Sys2Proof.Machine

theorem hasSte_of_serial {c : Config} (h : c.busMode = .serial) : c.hasSte = true := by
  simp [Config.hasSte, h]

/-! The engine that a build lacks. -/

/-- Without the engine nothing that could write its registers fits into the build. -/
theorem microFits_not_writes {c : Config} {rom : Memory} {m : Micro} (hste : c.hasSte = false) (h : microFits c rom m = true) :
    .transfer ∉ m.writes ∧ .idx ∉ m.writes := by
  cases m <;> simp_all [microFits, Micro.writes]

/-- `MSEL`, which does not exist without the engine, is never written then (10_state.md R12). -/
theorem micro_msel_absent {s : State} (m : Micro) (hste : s.cfg.hasSte = false) :
    (micro m s).out .msel = s.out .msel ∧ (micro m s).dir .msel = s.dir .msel := by
  have hout : ∀ v, pinWrite .msel v s = s := fun v => by simp [pinWrite, hste]
  have hdir : ∀ d, dirWrite .msel d s = s := fun d => by simp [dirWrite, hste]
  refine ⟨?_, ?_⟩
  · by_cases hm : .latch .msel ∈ m.writes
    · cases m with
      | pin sig v =>
        obtain rfl : .msel = sig := by simpa [Micro.writes] using hm
        rw [micro, hout]
      | _ => simp [Micro.writes] at hm
    · exact micro_same s hm
  · by_cases hm : .direction .msel ∈ m.writes
    · cases m with
      | dir sig d =>
        obtain rfl : .msel = sig := by simpa [Micro.writes] using hm
        rw [micro, hdir]
      | _ => simp [Micro.writes] at hm
    · exact micro_same s hm

/-- The engine's absence is told by the registers it would write. -/
theorem engineAbsent_congr {s t : State} (h : s.engineAbsent = true) (hout : t.out .msel = s.out .msel)
    (hdir : t.dir .msel = s.dir .msel) (htransfer : Same s t .transfer) (hidx : t.idx = s.idx) (hrx : t.rxhold = s.rxhold) :
    t.engineAbsent = true := by
  obtain ⟨hx, hb, hp, hn⟩ := htransfer
  rwa [State.engineAbsent, hout, hdir, hx, hb, hp, hn, hidx, hrx]

theorem micro_engineAbsent {m : Micro} {s : State} (hste : s.cfg.hasSte = false) (hfit : microFits s.cfg s.rom m = true)
    (h : s.engineAbsent = true) : (micro m s).engineAbsent = true := by
  obtain ⟨htransfer, hidx⟩ := microFits_not_writes hste hfit
  obtain ⟨hout, hdir⟩ := micro_msel_absent m hste
  exact engineAbsent_congr h hout hdir (micro_same s htransfer) (micro_same s hidx) (micro_rxhold s m)

/-! The invariant along a program. -/

/-- The build invariant of a state with a program still to be made. -/
structure BuildLegal (l : List Micro) (s : State) : Prop where
  fits : ∀ m ∈ l, microFits s.cfg s.rom m = true
  result : resultFits s.cfg s.rom s.result = true
  engine : s.cfg.hasSte = false → s.engineAbsent = true

theorem buildOk_iff (s : State) : s.buildOk = true ↔ BuildLegal s.todo s := by
  simp only [State.buildOk, Bool.and_eq_true, List.all_eq_true, Bool.or_eq_true]
  refine ⟨fun ⟨⟨h1, h2⟩, h3⟩ => ⟨h1, h2, fun hste => h3.resolve_left (by simp [hste])⟩, fun h => ⟨⟨h.fits, h.result⟩, ?_⟩⟩
  by_cases hste : s.cfg.hasSte = true
  · exact .inl hste
  · exact .inr (h.engine (by simpa using hste))

theorem BuildLegal.head {m : Micro} {l : List Micro} {s : State} (h : BuildLegal (m :: l) s) :
    microFits s.cfg s.rom m = true := h.fits m List.mem_cons_self

/-- Another program in the same state. -/
theorem BuildLegal.program {l l' : List Micro} {s : State} (h : BuildLegal l s)
    (hl : ∀ m ∈ l', microFits s.cfg s.rom m = true) : BuildLegal l' s := ⟨hl, h.result, h.engine⟩

theorem BuildLegal.tail {m : Micro} {l : List Micro} {s : State} (h : BuildLegal (m :: l) s) : BuildLegal l s :=
  h.program fun x hx => h.fits x (List.mem_cons_of_mem _ hx)

/-- A program put in front of what was left. -/
theorem BuildLegal.append {l l' : List Micro} {s : State} (h : BuildLegal l' s)
    (hl : ∀ m ∈ l, microFits s.cfg s.rom m = true) : BuildLegal (l ++ l') s :=
  h.program fun m hm => (List.mem_append.mp hm).elim (hl m) (h.fits m)

/-- `RESULT` is written with a condition that exists in the configuration, or not at all. -/
theorem micro_resultFits {m : Micro} {s : State} (hfit : microFits s.cfg s.rom m = true)
    (h : resultFits s.cfg s.rom s.result = true) : resultFits s.cfg s.rom (micro m s).result = true := by
  cases m with
  | result r => exact hfit
  | _ => simpa [micro] using h

theorem BuildLegal.micro {m : Micro} {rest : List Micro} {s : State} (h : BuildLegal (m :: rest) s) :
    BuildLegal rest (micro m s) where
  fits := by simpa using h.tail.fits
  result := by simpa using micro_resultFits h.head h.result
  engine := fun hste => micro_engineAbsent (by simpa using hste) h.head (h.engine (by simpa using hste))

/-! The programs of a build fit into it. -/

theorem framer_fits {c : Config} {who : Waiter} (rom : Memory) (dc : Level) (b : Byte) :
    ∀ m ∈ framer c who dc b, microFits c rom m = true := by
  unfold framer
  split
  · simp [microFits]
  · rename_i hm
    simp [microFits, serByte, framerRelease, hasSte_of_serial hm, hm]

theorem recordProgram_fits (c : Config) (rom : Memory) (n d o : Byte) (args : List Byte) :
    ∀ m ∈ recordProgram c n d o args, microFits c rom m = true :=
  forall_mem_recordProgram (fun dc b => framer_fits rom dc b) (fun _ _ => rfl) rfl rfl rfl

theorem lineAction_fits {c : Config} {rom : Memory} {p : Ports} {act : Signal → Micro}
    (h : ∀ sig, microFits c rom (act sig) = true) : ∀ m ∈ lineAction c p act, microFits c rom m = true := by
  intro m hm
  obtain ⟨sig, -, rfl⟩ := Option.map_eq_some_iff.mp (Option.mem_toList.mp hm)
  exact h sig

theorem hostProgram_fits (s : State) (i : Instr) : ∀ m ∈ hostProgram s i, microFits s.cfg s.rom m = true := by
  cases i with
  | count _ | record _ _ _ _ => simp [hostProgram]
  | init p =>
    simp only [hostProgram, initProgram, electricalReset, lines]
    split
    · simp_all [microFits, resultFits]
    · cases s.cfg.hasSte <;> simp [microFits]
  | txcmd p => exact framer_fits _ _ _
  | txdat p => exact framer_fits _ _ _
  | delay p => simp [hostProgram, microFits]
  | xfer p =>
    simp only [hostProgram]
    split
    · simp_all [xferProgram, modeRelease, microFits]
    · simp
  | setln p | clrln p | cfgdir p => exact lineAction_fits fun _ => rfl

/-- A wait that fits lies in a build with the engine. -/
theorem BuildLegal.hasSte_of_poll {who : Waiter} {rest : List Micro} {s : State} (h : BuildLegal (.poll who :: rest) s) :
    s.cfg.hasSte = true := by
  have hfit := h.head
  simp only [microFits] at hfit
  split at hfit
  · exact hfit
  · exact hasSte_of_serial (by simpa using hfit)

theorem errorPath_fits {c : Config} (rom : Memory) (who : Waiter) (op : BitVec 4) (hste : c.hasSte = true)
    (hlimit : c.timeoutPolls.isSome = true) :
    ∀ m ∈ errorPath (waitCleanup c who) .transportTimeout op, microFits c rom m = true := by
  cases who <;> simp [errorPath, waitCleanup, framerRelease, modeRelease, microFits, resultFits, hste, hlimit]

theorem timeoutPolls_isSome {s : State} (h : pollLimitReached s = true) : s.cfg.timeoutPolls.isSome = true := by
  unfold pollLimitReached at h
  split at h
  · cases h
  · simp [*]

/-- There is no spurious completion: without the engine `PENDING` is 0 and the step of CPL is not enabled. -/
theorem completion_absent {s : State} (r : Byte) (h : s.engineAbsent = true) : completion r s = s := by
  have hp : s.pending = false := by simp_all [State.engineAbsent]
  simp [completion, hp]

/-- Block reset leaves the engine as a build without it has it. -/
theorem engineAbsent_reset {s : State} (hste : s.cfg.hasSte = false) : (blockReset s).engineAbsent = true := by
  simp [blockReset, State.engineAbsent, State.resetWith, State.out, State.dir, resetPinOut, hste, Signal.id]

/-- Every micro-action, stop and agent's move carries the build invariant on. -/
theorem buildLegal_stepInvariant : StepInvariant BuildLegal where
  todo := fun _ _ _ h => ⟨h.fits, h.result, h.engine⟩
  inputs := fun _ _ _ _ h => ⟨h.fits, h.result, h.engine⟩
  micro := fun m rest s _ h => ⟨h.micro.fits, h.micro.result, h.micro.engine⟩
  loopEnd := fun _ _ _ _ _ _ h => h.tail
  loopBody := by
    intro a b n rest s _ h
    have hste : s.cfg.hasSte = true := h.head
    exact h.append (by simp [xferByte, serByte, microFits, hste])
  issue := by
    intro s i op p h hb
    refine ⟨fun m hm => ?_, rfl, h.engine⟩
    rcases List.mem_append.mp hm with hm | hm
    · exact hostProgram_fits s i m hm
    · rw [List.mem_singleton.mp hm]; rfl
  reserved := fun s op p h _ => ⟨by simp [microFits], rfl, h.engine⟩
  answered := fun _ _ _ h _ => h.tail
  gaveUp := fun who rest s h hl =>
    ⟨errorPath_fits s.rom who _ h.hasSte_of_poll (timeoutPolls_isSome hl), h.result, h.engine⟩
  polled := fun who rest s h => ⟨h.fits, h.result, fun hste => by simp [h.hasSte_of_poll] at hste⟩
  count := fun rest s c h => h.tail.append (by simp [countProgram, microFits])
  record := fun rest s n d o args h _ _ => h.append (recordProgram_fits s.cfg s.rom n d o args)
  recordsEnd := fun _ _ h _ => h.tail
  completion := by
    intro s r h
    refine ⟨by simpa using h.fits, by simpa using h.result, fun hste => ?_⟩
    have habsent := h.engine (by simpa using hste)
    rwa [completion_absent r habsent]
  reset := fun s _ => ⟨by simp, rfl, engineAbsent_reset⟩
  store := by
    intro s a v h
    unfold hostStore
    split
    · exact h
    · exact ⟨h.fits, h.result, h.engine⟩

/-- Settles O55: `buildLegal_stepInvariant` through `StepInvariant.step`. -/
theorem buildStaysConsistent : Obligations.BuildStaysConsistent := fun s t hs he =>
  (buildOk_iff t).mpr (buildLegal_stepInvariant.step ((buildOk_iff s).mp hs) he)

end Sys2Proof.Machine
end

section
/-! PROOFS. Runs in which no other agent's move falls due, and the completion wait (43_serial_transport.md R152, R160, 60_exceptions.md R184). -/

namespace Sys2Proof.Machine

/-! Time passes: `Clear n` says that the next `n` micro-actions are undisturbed, `passed n` what is then left of the moves to come. -/

/-- No move of another agent falls before one of the next `n` micro-actions (log 4). -/
def Clear (n : Nat) : List Timed → Prop
  | [] => True
  | e :: _ => n ≤ e.after

/-- The other agents' moves once `n` micro-actions have passed. -/
def passed (n : Nat) : List Timed → List Timed
  | [] => []
  | e :: rest => ⟨e.after - n, e.move⟩ :: rest

@[simp] theorem clear_nil (n : Nat) : Clear n [] := trivial
@[simp] theorem passed_nil (n : Nat) : passed n [] = [] := rfl
@[simp] theorem clear_cons (n : Nat) (e : Timed) (rest : List Timed) : Clear n (e :: rest) ↔ n ≤ e.after := Iff.rfl
@[simp] theorem passed_cons (n : Nat) (e : Timed) (rest : List Timed) :
    passed n (e :: rest) = ⟨e.after - n, e.move⟩ :: rest := rfl

theorem clear_of_quiet {s : State} (n : Nat) (h : Quiet s) : Clear n s.events := by
  rw [show s.events = [] from h]
  exact clear_nil n

theorem passed_of_quiet {s : State} (n : Nat) (h : Quiet s) : passed n s.events = s.events := by
  rw [show s.events = [] from h]
  rfl

theorem passed_zero (es : List Timed) : passed 0 es = es := by
  cases es <;> rfl

theorem passed_succ {n : Nat} {es : List Timed} (h : Clear (n + 1) es) : passed n (tickEvents es) = passed (n + 1) es := by
  cases es with
  | nil => rfl
  | cons e rest =>
    obtain ⟨k, m⟩ := e
    cases k with
    | zero => exact absurd h (by simp)
    | succ k => simp [tickEvents]

theorem Clear.tick {n : Nat} {es : List Timed} (h : Clear (n + 1) es) : Clear n (tickEvents es) := by
  cases es with
  | nil => trivial
  | cons e rest =>
    obtain ⟨k, m⟩ := e
    cases k with
    | zero => exact absurd h (by simp)
    | succ k => simpa [tickEvents] using h

theorem Clear.not_due {n : Nat} {s : State} (h : Clear (n + 1) s.events) : due s = false := by
  unfold due
  split
  · rename_i he
    rw [he] at h
    exact absurd h (by simp)
  · rfl

theorem tickEvents_eq_passed {es : List Timed} (h : Clear 1 es) : tickEvents es = passed 1 es := by
  rw [← passed_succ h, passed_zero]

/-- No micro-action reads or writes what the other agents are going to do. -/
theorem micro_with_events (m : Micro) (s : State) (es : List Timed) :
    micro m { s with events := es } = { micro m s with events := es } := by
  cases m with
  | pin sig v => simp only [micro, pinWrite]; split <;> rfl
  | dir sig d => simp only [micro, dirWrite]; split <;> rfl
  | romRd dst v => cases dst <;> rfl
  | _ => rfl

theorem straight_with_events (l : List Micro) (s : State) (es : List Timed) :
    straight l { s with events := es } = { straight l s with events := es } := by
  induction l generalizing s with
  | nil => rfl
  | cons m l ih => rw [straight_cons, micro_with_events, ih, straight_cons]

/-- A run goes through a program without stops while no other agent's move falls due. -/
theorem runMicros_clear {prog : List Micro} (rest : List Micro) {s : State} (hp : ∀ m ∈ prog, m.stops = false)
    (hs : Clear prog.length s.events) :
    runMicros (prog ++ rest) s = runMicros rest { straight prog s with events := passed prog.length s.events } := by
  induction prog generalizing s with
  | nil => rw [List.length_nil, passed_zero]; rfl
  | cons m l ih =>
    rw [List.length_cons] at hs ⊢
    have hm : (m.stops || due s) = false := by simp [hp m List.mem_cons_self, hs.not_due]
    have htick : tick (micro m s) = { micro m s with events := tickEvents s.events } := by simp [tick]
    rw [List.cons_append, runMicros, hm, if_neg Bool.false_ne_true, htick,
      ih (fun x hx => hp x (List.mem_cons_of_mem _ hx)) hs.tick, straight_cons, straight_with_events, passed_succ hs]

/-- Such a run up to a stop other than the loop of `XFER`. -/
theorem run_clear_stop {prog : List Micro} {m : Micro} (rest : List Micro) {s : State} (hp : ∀ x ∈ prog, x.stops = false)
    (hm : m.stops = true) (hx : ∀ a b n, m ≠ .xferLoop a b n) (hs : Clear prog.length s.events) :
    run (prog ++ m :: rest) s =
      { straight prog s with events := passed prog.length s.events, todo := m :: rest } := by
  rw [run, runMicros_clear _ hp hs, runMicros_stop _ _ hm, passLoop_other]
  intro a b n r h
  exact hx a b n (List.cons.inj h).1

/-- A host operation up to its first stop, while no other agent's move falls due. -/
theorem hostOperation_clear_stop {op : BitVec 4} {p : Ports} {prog rest : List Micro} {m : Micro} {s : State}
    (hb : s.busy = false) (hp : ∀ m ∈ prog, m.stops = false) (hm : m.stops = true) (hx : ∀ a b n, m ≠ .xferLoop a b n)
    (hs : Clear (prog.length + 1) s.events) :
    hostOperation op p (prog ++ m :: rest) s =
      { straight prog (emit (.opStart op p.a p.b p.n) { s with busy := true, result := .ok }) with
        events := passed (prog.length + 1) s.events, todo := m :: (rest ++ [.opEnd op]) } := by
  have haccept : accept op p s =
      { emit (.opStart op p.a p.b p.n) { s with busy := true, result := .ok } with events := tickEvents s.events } := rfl
  rw [hostOperation, if_neg (by simp [hb]), List.append_assoc, List.cons_append, run_clear_stop _ hp hm hx hs.tick,
    haccept, straight_with_events, passed_succ hs]

/-! Runs of several steps. -/

/-- `n` steps lead from one state to another. -/
def Steps (n : Nat) (s t : State) : Prop := Host.Core.run core n s = .next t

theorem Steps.refl (s : State) : Steps 0 s s := rfl

theorem Steps.cons {n : Nat} {s t u : State} (h : step s = .next t) (h' : Steps n t u) : Steps (n + 1) s u :=
  (run_succ h).trans h'

theorem Steps.one {s t : State} (h : step s = .next t) : Steps 1 s t := Steps.cons h (Steps.refl t)

/-- The first of some steps that go on. -/
theorem Steps.exists_cons {n : Nat} {s u : State} (h : Steps (n + 1) s u) : ∃ t, step s = .next t ∧ Steps n t u := by
  cases hs : step s with
  | next t => exact ⟨t, rfl, (run_succ hs).symm.trans h⟩
  | fault f => cases f
  | refused r =>
    have hrefused : Host.Core.run core (n + 1) s = .refused r := by simp [Host.Core.run, core, hs]
    cases hrefused.symm.trans h

theorem Steps.trans {m n : Nat} {s t u : State} (h : Steps m s t) (h' : Steps n t u) : Steps (m + n) s u := by
  induction m generalizing s with
  | zero => cases h; rwa [Nat.zero_add]
  | succ m ih =>
    obtain ⟨r, hstep, hrest⟩ := h.exists_cons
    rw [Nat.add_right_comm]
    exact Steps.cons hstep (ih hrest)

/-! The completion wait. -/

/-- A wait that is answered in time: `d` polls that find the flag 0, then the completion (43_serial_transport.md R152, R154). -/
theorem steps_wait {d : Nat} {s : State} {who : Waiter} {rest : List Micro} {r : Byte} {es : List Timed}
    (ht : s.todo = .poll who :: rest) (hx : s.xdone = false) (hp : s.pending = true) (hz : s.polls = 0)
    (he : s.events = ⟨d, .cpl r⟩ :: es) (hd : ∀ n, s.cfg.timeoutPolls = some n → d ≤ n) :
    Steps (d + 1) s { s with
      polls := d, rxhold := r, xdone := true, pending := false, trace := s.trace ++ [.cpl r], events := es } := by
  have h := run_wait 0 ht hx hp he (by rwa [hz, Nat.zero_add])
  rw [hz, Nat.zero_add] at h
  exact h

theorem step_poll {s : State} {who : Waiter} {rest : List Micro} (hd : due s = false) (ht : s.todo = .poll who :: rest) :
    step s = .next (pollWait who rest s) := by
  rw [step_not_due hd]
  simp only [coreMove, ht]

/-- The step that leaves the wait (43_serial_transport.md R152). -/
theorem step_answered {s : State} {who : Waiter} {rest : List Micro} (hs : Clear 1 s.events) (ht : s.todo = .poll who :: rest)
    (hx : s.xdone = true) : step s = .next (run rest { s with events := passed 1 s.events }) := by
  rw [step_poll hs.not_due ht, pollWait, if_pos hx, tick, tickEvents_eq_passed hs]

/-- The step that gives up (60_exceptions.md R184). -/
theorem step_timeout {s : State} {who : Waiter} {rest : List Micro} {n : Nat} (hs : Quiet s) (ht : s.todo = .poll who :: rest)
    (hx : s.xdone = false) (hn : s.cfg.timeoutPolls = some n) (hp : n ≤ s.polls) :
    step s = .next { endOperation who.op
      { straight (waitCleanup s.cfg who) (emit .timeout s) with result := .transportTimeout } with todo := [] } := by
  have hstraight : ∀ m ∈ waitCleanup s.cfg who, m.stops = false := by
    cases who <;> simp [waitCleanup, framerRelease, modeRelease, Micro.stops]
  rw [step_poll (due_quiet hs) ht, pollWait_timeout rest hs hx hn hp hstraight]

theorem pollLimitReached_of_lt {s : State} (h : ∀ n, s.cfg.timeoutPolls = some n → s.polls < n) :
    pollLimitReached s = false := by
  unfold pollLimitReached
  split
  · rfl
  · exact decide_eq_false (Nat.not_le.mpr (h _ ‹_›))

/-- Settles O48: neither branch of the wait is taken, so the poll is counted. -/
theorem unsuccessfulPollCounts : Obligations.UnsuccessfulPollCounts := by
  intro s who rest hq ht hx hn
  rw [step_poll (due_quiet hq) ht, pollWait, if_neg (by simp [hx]), if_neg (by simp [pollLimitReached_of_lt hn]), ← ht]
  exact congrArg _ (tick_quiet hq)

/-- Settles O49, by induction on the steps: each is a poll that counts. -/
theorem missingCompletionHangs : Obligations.MissingCompletionHangs := by
  intro s who rest k hq ht hx hn
  induction k generalizing s with
  | zero => rfl
  | succ k ih =>
    have hstep : step s = .next { s with polls := s.polls + 1 } :=
      unsuccessfulPollCounts s who rest hq ht hx (by simp [hn])
    rw [run_succ hstep, ih { s with polls := s.polls + 1 } hq ht hx hn]
    simp only [Nat.add_assoc, Nat.add_comm 1 k]

/-! The clean-up of a wait. -/

/-- The latches after a serial framer has let the panel go (41_framers.md R114, R115). -/
def releasedLines (x : BitVec 14) : BitVec 14 := setBit (setBit x Signal.dc.id true) Signal.cs.id true

@[simp] theorem releasedLines_cs (x : BitVec 14) : (releasedLines x).getLsbD Signal.cs.id = true := by simp [releasedLines]
@[simp] theorem releasedLines_dc (x : BitVec 14) : (releasedLines x).getLsbD Signal.dc.id = true := by simp [releasedLines]
@[simp] theorem releasedLines_other (x : BitVec 14) {sig : Signal} (hc : sig ≠ .cs) (hd : sig ≠ .dc) :
    (releasedLines x).getLsbD sig.id = x.getLsbD sig.id := by simp [releasedLines, hc, hd]

theorem straight_framerRelease (s : State) :
    straight framerRelease s = { s with
      pinOut := releasedLines s.pinOut, trace := s.trace ++ [.pin .dc true, .pin .cs true] } := by
  simp [framerRelease, micro, pinWrite_eq, emit, releasedLines, Polarity.dcData, Polarity.csAsserted]

/-- A host framer that gives up (41_framers.md R115). -/
theorem step_framer_timeout {s : State} {who : Waiter} {rest : List Micro} {n : Nat} (hs : Quiet s)
    (ht : s.todo = .poll who :: rest) (hx : s.xdone = false) (hn : s.cfg.timeoutPolls = some n) (hp : n ≤ s.polls)
    (hc : waitCleanup s.cfg who = framerRelease) :
    step s = .next { s with
      busy := false, result := .transportTimeout, pinOut := releasedLines s.pinOut, todo := [],
      trace := s.trace ++ [.timeout, .pin .dc true, .pin .cs true, .opEnd who.op .transportTimeout] } := by
  rw [step_timeout hs ht hx hn hp, hc, straight_framerRelease]
  simp [endOperation, emit]

/-- Settles O19: `step_framer_timeout` for both framers. -/
theorem serialFramerTimeout : Obligations.SerialFramerTimeout := by
  intro s rest n hq hx hn hp
  have hlines : ∀ sig, sig ≠ .cs → sig ≠ .dc → (releasedLines s.pinOut).getLsbD sig.id = s.out sig :=
    fun sig hc hd => releasedLines_other s.pinOut hc hd
  constructor
  · intro ht
    exact ⟨_, step_framer_timeout hq ht hx hn hp rfl, rfl, releasedLines_cs _, releasedLines_dc _, hlines⟩
  · intro ht
    exact ⟨_, step_framer_timeout hq ht hx hn hp rfl, rfl, releasedLines_cs _, releasedLines_dc _, hlines⟩

/-- Settles O41: the clean-up of `INIT` is that of a framer and the return to `NotStarted`. -/
theorem initTimeout : Obligations.InitTimeout := by
  intro s rest n hq hx hn hp ht
  have hstep : step s = .next { s with
      busy := false, result := .transportTimeout, seqState := .notStarted, pinOut := releasedLines s.pinOut, todo := [],
      trace := s.trace ++ [.timeout, .pin .dc true, .pin .cs true, .opEnd 0x0 .transportTimeout] } := by
    rw [step_timeout hq ht hx hn hp, waitCleanup, straight_append, straight_framerRelease]
    simp [endOperation, emit, micro, Waiter.op]
  exact ⟨_, hstep, rfl, releasedLines_cs _, releasedLines_dc _, fun sig hc hd => releasedLines_other s.pinOut hc hd⟩

/-- The end of a block, in a build with the engine (43_serial_transport.md R150). -/
theorem straight_modeRelease {s : State} (hste : s.cfg.hasSte = true) :
    straight (modeRelease s.cfg) s = { s with
      pinOut := setBit s.pinOut Signal.msel.id true, trace := s.trace ++ [.pin .msel true, .delayUs s.cfg.tMselUs] } := by
  simp [modeRelease, micro, pinWrite_eq, emit, hste, Polarity.mselAsserted]

/-- Settles O47: the clean-up of `XFER` is the end of a block. -/
theorem xferTimeout : Obligations.XferTimeout := by
  intro s rest n hq hste hx hn hp ht
  have hstep : step s = .next { s with
      busy := false, result := .transportTimeout, pinOut := setBit s.pinOut Signal.msel.id true, todo := [],
      trace := s.trace ++ [.timeout, .pin .msel true, .delayUs s.cfg.tMselUs, .opEnd 0x4 .transportTimeout] } := by
    have hcleanup : straight (waitCleanup s.cfg .xfer) (emit .timeout s) = _ := straight_modeRelease (s := emit .timeout s) hste
    rw [step_timeout hq ht hx hn hp, hcleanup]
    simp [endOperation, emit, Waiter.op]
  exact ⟨_, hstep, rfl, by simp [State.out], fun sig hne => by simp [State.out, hne]⟩

end Sys2Proof.Machine
end

section
/-! PROOFS. The Transmit Protocol (41_framers.md): what a framer call does on either substrate, and what the panel sees of it. -/

namespace Sys2Proof.Machine

/-- Two pin registers with the same control latches and the same `DATA` are equal (10_state.md R12). -/
theorem pinReg_ext_control {x y : BitVec 14}
    (hline : ∀ sig ∈ [Signal.reset, .cs, .dc, .wr, .rd, .msel], x.getLsbD sig.id = y.getLsbD sig.id)
    (hdata : x.extractLsb' 5 8 = y.extractLsb' 5 8) : x = y := by
  have hbit : ∀ i, i < 8 → x.getLsbD (5 + i) = y.getLsbD (5 + i) := by
    intro i hi
    have h := congrArg (BitVec.getLsbD · i) hdata
    simpa [BitVec.getLsbD_extractLsb', hi] using h
  apply pinReg_ext
  intro sig
  cases sig with
  | d0 => exact hbit 0 (by omega)
  | d1 => exact hbit 1 (by omega)
  | d2 => exact hbit 2 (by omega)
  | d3 => exact hbit 3 (by omega)
  | d4 => exact hbit 4 (by omega)
  | d5 => exact hbit 5 (by omega)
  | d6 => exact hbit 6 (by omega)
  | d7 => exact hbit 7 (by omega)
  | _ => exact hline _ (by simp)

/-! The parallel bus. -/

/-- The latches after a framer call on the parallel bus, whatever they were before: the byte on `DATA`; WR, DC, CS idle. -/
def framedLines (x : BitVec 14) (b : Byte) : BitVec 14 :=
  setBit (setBit (setBit (setData x b) Signal.wr.id true) Signal.dc.id true) Signal.cs.id true

@[simp] theorem framedLines_cs (x : BitVec 14) (b : Byte) : (framedLines x b).getLsbD Signal.cs.id = true := by simp [framedLines]
@[simp] theorem framedLines_dc (x : BitVec 14) (b : Byte) : (framedLines x b).getLsbD Signal.dc.id = true := by simp [framedLines]
@[simp] theorem framedLines_wr (x : BitVec 14) (b : Byte) : (framedLines x b).getLsbD Signal.wr.id = true := by simp [framedLines]
@[simp] theorem framedLines_reset (x : BitVec 14) (b : Byte) :
    (framedLines x b).getLsbD Signal.reset.id = x.getLsbD Signal.reset.id := by simp [framedLines]
@[simp] theorem framedLines_rd (x : BitVec 14) (b : Byte) :
    (framedLines x b).getLsbD Signal.rd.id = x.getLsbD Signal.rd.id := by simp [framedLines]
@[simp] theorem framedLines_msel (x : BitVec 14) (b : Byte) :
    (framedLines x b).getLsbD Signal.msel.id = x.getLsbD Signal.msel.id := by simp [framedLines]
@[simp] theorem framedLines_data (x : BitVec 14) (b : Byte) : (framedLines x b).extractLsb' 5 8 = b := by simp [framedLines]

/-- The seven writes of a framer come to the levels of the last write of each line. -/
theorem framerWrites_eq (x : BitVec 14) (dc : Level) (b : Byte) :
    setBit (setBit (setBit (setBit (setData (setBit (setBit x Signal.cs.id false) Signal.dc.id dc) b) Signal.wr.id false)
      Signal.wr.id true) Signal.dc.id true) Signal.cs.id true = framedLines x b := by
  apply pinReg_ext_control <;> simp [framedLines]

/-- The effect of a framer on the parallel bus (41_framers.md R110, R111). -/
theorem straight_framer_parallel {s : State} (who : Waiter) (dc : Level) (b : Byte) (hm : s.cfg.busMode = .parallel) :
    straight (framer s.cfg who dc b) s =
      { s with pinOut := framedLines s.pinOut b, trace := s.trace ++ framerEvents dc b } := by
  rw [← framerWrites_eq s.pinOut dc b]
  simp [framer, hm, micro, pinWrite_eq, busWrite, emit, framerEvents, Polarity.csAsserted, Polarity.wrIdle, Polarity.dcData]

theorem framer_parallel_stops {c : Config} (who : Waiter) (dc : Level) (b : Byte) (hm : c.busMode = .parallel) :
    ∀ m ∈ framer c who dc b, m.stops = false := by
  simp [framer, hm, Micro.stops]

/-- A framer's host operation on the parallel bus, complete. -/
theorem hostOperation_framer_parallel {op : BitVec 4} {p : Ports} {s : State} (who : Waiter) (dc : Level) (b : Byte) (hi : Idle s)
    (hq : Quiet s) (hm : s.cfg.busMode = .parallel) :
    hostOperation op p (framer s.cfg who dc b) s = { s with
      result := .ok, pinOut := framedLines s.pinOut b,
      trace := s.trace ++ .opStart op p.a p.b p.n :: framerEvents dc b ++ [.opEnd op .ok] } := by
  obtain ⟨hb, ht⟩ := hi
  have hstraight := straight_framer_parallel
    (s := emit (.opStart op p.a p.b p.n) { s with busy := true, result := .ok }) who dc b hm
  rw [hostOperation_straight hb hq (framer_parallel_stops who dc b hm)]
  rw [show (emit (.opStart op p.a p.b p.n) { s with busy := true, result := .ok }).cfg = s.cfg from rfl] at hstraight
  rw [hstraight]
  simp [endOperation, emit, hb, ht]

/-- The byte operand is the lower half of `host_a` (30_encoding.md R63). -/
theorem byteOperand_eq (p : Ports) : byteOperand p = p.a.setWidth 8 :=
  BitVec.eq_of_toNat_eq (by simp [byteOperand, BitVec.extractLsb'_toNat])

theorem exec_txcmd (p : Ports) (s : State) :
    exec (.txcmd p) s = .next (hostOperation 0x1 p (framer s.cfg .txcmd false (p.a.setWidth 8)) s) := by
  rw [← byteOperand_eq]; rfl

theorem exec_txdat (p : Ports) (s : State) :
    exec (.txdat p) s = .next (hostOperation 0x2 p (framer s.cfg .txdat true (p.a.setWidth 8)) s) := by
  rw [← byteOperand_eq]; rfl

/-- Settles O15: `hostOperation_framer_parallel`, and the levels of `framedLines`. -/
theorem txcmdSendsCommandByte : Obligations.TxcmdSendsCommandByte := by
  intro s p hi hq hm
  rw [exec_txcmd, hostOperation_framer_parallel _ _ _ hi hq hm]
  exact ⟨_, rfl, rfl, framedLines_cs _ _, framedLines_dc _ _, framedLines_wr _ _, framedLines_data _ _, framedLines_reset _ _,
    framedLines_rd _ _, framedLines_msel _ _⟩

/-- Settles O16: as O15. -/
theorem txdatSendsDataByte : Obligations.TxdatSendsDataByte := by
  intro s p hi hq hm
  rw [exec_txdat, hostOperation_framer_parallel _ _ _ hi hq hm]
  exact ⟨_, rfl, rfl, framedLines_cs _ _, framedLines_dc _ _, framedLines_wr _ _, framedLines_data _ _, framedLines_reset _ _,
    framedLines_rd _ _, framedLines_msel _ _⟩

/-! The panel's view of a framer call. -/

theorem panelFrom_append (c : Config) (v : PinView) (es es' : List Event) :
    panelFrom c v (es ++ es') = panelFrom c v es ++ panelFrom c (es.foldl PinView.after v) es' := by
  induction es generalizing v with
  | nil => rfl
  | cons e es ih => simp [panelFrom, ih]

/-- On the parallel bus the panel latches at the rising edge of WR, with DC as the framer set it (10_state.md R31, 41_framers.md R117). -/
theorem panelFrom_framerEvents {c : Config} (v : PinView) (dc : Level) (b : Byte) (hm : c.busMode = .parallel) :
    panelFrom c v (framerEvents dc b) = if v.busDriven then [.lat dc b] else [.latAny] := by
  simp [framerEvents, panelFrom, panelItems, hm, PinView.after, PinView.latched, PinView.busDriven, PinView.outBit, PinView.dirBit,
    Polarity.csAsserted]

/-- `OpStart` and `OpEnd` are nothing to the panel. -/
theorem panelFrom_operation (c : Config) (v : PinView) (op : BitVec 4) (p : Ports) (r : Result) (es : List Event) :
    panelFrom c v (.opStart op p.a p.b p.n :: es ++ [Event.opEnd op r]) = panelFrom c v es := by
  have hend : ∀ w, panelFrom c w [.opEnd op r] = [] := fun w => rfl
  rw [List.cons_append, panelFrom, panelFrom_append, hend, List.append_nil]
  rfl

/-- Settles O20: the events of O15 and O16 through `panelFrom_framerEvents`. -/
theorem panelReceivesExactlyOneByte : Obligations.PanelReceivesExactlyOneByte := by
  intro s p hi hq hm
  have hview : ∀ op dc, panelFrom s.cfg s.pinView
      (.opStart op p.a p.b p.n :: framerEvents dc (p.a.setWidth 8) ++ [.opEnd op .ok])
        = if s.busDriven then [.lat dc (p.a.setWidth 8)] else [.latAny] := fun op dc => by
    rw [panelFrom_operation, panelFrom_framerEvents _ _ _ hm]; rfl
  constructor
  · rw [exec_txcmd, hostOperation_framer_parallel _ _ _ hi hq hm]
    exact ⟨_, _, rfl, List.append_assoc _ _ _, hview 0x1 false⟩
  · rw [exec_txdat, hostOperation_framer_parallel _ _ _ hi hq hm]
    exact ⟨_, _, rfl, List.append_assoc _ _ _, hview 0x2 true⟩

/-! The serial substrate. -/

/-- The latches while a byte is under way: the panel selected, DC as the framer set it. -/
def selectedLines (x : BitVec 14) (dc : Level) : BitVec 14 := setBit (setBit x Signal.cs.id false) Signal.dc.id dc

@[simp] theorem selectedLines_cs (x : BitVec 14) (dc : Level) : (selectedLines x dc).getLsbD Signal.cs.id = false := by
  simp [selectedLines]
@[simp] theorem selectedLines_dc (x : BitVec 14) (dc : Level) : (selectedLines x dc).getLsbD Signal.dc.id = dc := by
  simp [selectedLines]
@[simp] theorem selectedLines_other (x : BitVec 14) (dc : Level) {sig : Signal} (hc : sig ≠ .cs) (hd : sig ≠ .dc) :
    (selectedLines x dc).getLsbD sig.id = x.getLsbD sig.id := by simp [selectedLines, hc, hd]

/-- Releasing the panel undoes what selecting it did to other lines: nothing. -/
@[simp] theorem releasedLines_selectedLines (x : BitVec 14) (dc : Level) :
    releasedLines (selectedLines x dc) = releasedLines x := by
  apply pinReg_ext_control <;> simp [releasedLines, selectedLines]

@[simp] theorem releasedLines_releasedLines (x : BitVec 14) : releasedLines (releasedLines x) = releasedLines x := by
  apply pinReg_ext_control <;> simp [releasedLines]

/-- A serial framer up to its wait (41_framers.md R114). -/
def framerSend (dc : Level) (b : Byte) : List Micro := [.pin .cs false, .pin .dc dc, .flagClr, .serTx b]

/-- What follows the wait of a serial framer: the answer discarded, the panel released. -/
def framerFinish : List Micro := [.serRx, .pin .dc true, .pin .cs true]

theorem framer_serial {c : Config} (who : Waiter) (dc : Level) (b : Byte) (hm : c.busMode = .serial) :
    framer c who dc b = framerSend dc b ++ .poll who :: framerFinish := by
  simp [framer, hm, serByte, framerSend, framerFinish, framerRelease, Polarity.csAsserted, Polarity.dcData]

theorem framerSend_stops (dc : Level) (b : Byte) : ∀ m ∈ framerSend dc b, m.stops = false := by
  simp [framerSend, Micro.stops]

theorem framerFinish_stops : ∀ m ∈ framerFinish, m.stops = false := by
  simp [framerFinish, Micro.stops]

theorem straight_framerSend (s : State) (dc : Level) (b : Byte) :
    straight (framerSend dc b) s = { s with
      pinOut := selectedLines s.pinOut dc, xdone := false, txbuf := b, pending := true, polls := 0,
      trace := s.trace ++ [.pin .cs false, .pin .dc dc, .flagClr, .serTx b] } := by
  simp [framerSend, micro, pinWrite_eq, flagClear, serialSend, emit, selectedLines]

theorem straight_framerFinish (s : State) :
    straight framerFinish s = { s with
      pinOut := releasedLines s.pinOut, trace := s.trace ++ [.serRx s.rxhold, .pin .dc true, .pin .cs true] } := by
  simp [framerFinish, micro, pinWrite_eq, serialReceive, emit, releasedLines]

/-- A framer's host operation in serial mode, up to its wait, while no other agent's move falls due. -/
theorem hostOperation_framer_serial {op : BitVec 4} {p : Ports} {s : State} (who : Waiter) (dc : Level) (b : Byte)
    (hb : s.busy = false) (hm : s.cfg.busMode = .serial) (hs : Clear 5 s.events) :
    hostOperation op p (framer s.cfg who dc b) s = { s with
      busy := true, result := .ok, pinOut := selectedLines s.pinOut dc, xdone := false, txbuf := b, pending := true, polls := 0,
      todo := .poll who :: (framerFinish ++ [Micro.opEnd op]), events := passed 5 s.events,
      trace := s.trace ++ [.opStart op p.a p.b p.n, .pin .cs false, .pin .dc dc, .flagClr, .serTx b] } := by
  rw [framer_serial who dc b hm, hostOperation_clear_stop hb (framerSend_stops dc b) rfl (by simp) hs, straight_framerSend]
  simp [emit, framerSend]

/-- Settles O17: `hostOperation_framer_serial` of an undisturbed block. -/
theorem serialFramersSendAndWait : Obligations.SerialFramersSendAndWait := by
  intro s p hi hq hm
  have hlines : ∀ dc sig, sig ≠ .cs → sig ≠ .dc → (selectedLines s.pinOut dc).getLsbD sig.id = s.out sig :=
    fun dc sig hc hd => selectedLines_other s.pinOut dc hc hd
  constructor
  · rw [exec_txcmd, hostOperation_framer_serial _ _ _ hi.1 hm (clear_of_quiet 5 hq), passed_of_quiet 5 hq]
    exact ⟨_, rfl, rfl, selectedLines_cs _ _, selectedLines_dc _ _, hlines false, rfl⟩
  · rw [exec_txdat, hostOperation_framer_serial _ _ _ hi.1 hm (clear_of_quiet 5 hq), passed_of_quiet 5 hq]
    exact ⟨_, rfl, rfl, selectedLines_cs _ _, selectedLines_dc _ _, hlines true, rfl⟩

/-- The end of a serial framer's host operation: the step that finds the flag set. -/
theorem step_framerFinish {s : State} {who : Waiter} {op : BitVec 4} (hq : Quiet s) (hx : s.xdone = true)
    (ht : s.todo = .poll who :: (framerFinish ++ [Micro.opEnd op])) :
    step s = .next { s with
      busy := false, pinOut := releasedLines s.pinOut, todo := [],
      trace := s.trace ++ [.serRx s.rxhold, .pin .dc true, .pin .cs true, .opEnd op s.result] } := by
  have hstops : ∀ m ∈ framerFinish ++ [Micro.opEnd op], m.stops = false := by simp [framerFinish, Micro.stops]
  rw [step_answered (clear_of_quiet 1 hq) ht hx, passed_of_quiet 1 hq, run_straight_end hstops hq, straight_append,
    straight_framerFinish]
  simp [micro, endOperation, emit]

/-- The wait of a serial framer's host operation and its end: `d` polls, the completion, the last step. -/
theorem steps_framer_wait {s : State} {who : Waiter} {op : BitVec 4} {d : Nat} {r : Byte} (hx : s.xdone = false)
    (hp : s.pending = true) (hz : s.polls = 0) (ht : s.todo = .poll who :: (framerFinish ++ [Micro.opEnd op]))
    (he : s.events = [⟨d, .cpl r⟩]) (hin : inTime s.cfg [(d, r)]) :
    Steps (d + 2) s { s with
      busy := false, pinOut := releasedLines s.pinOut, todo := [], polls := d, rxhold := r, xdone := true, pending := false,
      events := [], trace := s.trace ++ [.cpl r, .serRx r, .pin .dc true, .pin .cs true, .opEnd op s.result] } := by
  have hwait := steps_wait ht hx hp hz he fun n hn => hin n hn (d, r) (by simp)
  refine hwait.trans (Steps.one ((step_framerFinish rfl rfl (by exact ht)).trans ?_))
  simp

/-- The two framers are the host operations 0x1 and 0x2. -/
theorem commandProgram_framer {c : HostCmd} (s : State) (h : c.op = 0x1 ∨ c.op = 0x2) :
    ∃ who, commandProgram c s = framer s.cfg who (decide (c.op = 0x2)) (c.ports.a.setWidth 8) := by
  obtain ⟨op, p⟩ := c
  rw [← byteOperand_eq]
  rcases h with rfl | rfl
  · exact ⟨.txcmd, rfl⟩
  · exact ⟨.txdat, rfl⟩

/-- Settles O18: the acceptance step is `hostOperation_framer_serial`, the rest `steps_framer_wait`. -/
theorem serialFramersCompleteWhenAnswered : Obligations.SerialFramersCompleteWhenAnswered := by
  intro s c cs d r hi he hc hm hoff hin hop
  obtain ⟨hb, ht⟩ := hi
  have hclear : Clear 5 s.events := by rw [he]; simp
  have hpassed : passed 5 s.events = [⟨d, .cpl r⟩] := by rw [he]; simp
  obtain ⟨who, hprog⟩ := commandProgram_framer { s with cmds := cs } hop
  have hstep : step s = .next (hostOperation c.op c.ports (framer s.cfg who (decide (c.op = 0x2)) (c.ports.a.setWidth 8))
      { s with cmds := cs }) := by
    rw [step_issue ⟨hb, ht⟩ hclear.not_due hc, issue_off c (s := { s with cmds := cs }) hoff, hprog]
  have hsent := hostOperation_framer_serial (op := c.op) (p := c.ports) (s := { s with cmds := cs }) who (decide (c.op = 0x2))
    (c.ports.a.setWidth 8) hb hm hclear
  have hrun := Steps.cons (hstep.trans (congrArg _ hsent)) (steps_framer_wait rfl rfl rfl rfl hpassed hin)
  refine ⟨_, hrun, ?_, ?_, ?_, fun sig hcs hdc => ?_⟩
  · simp only [hb, ht, List.append_assoc, List.cons_append, List.nil_append]
    rfl
  · simp [State.out]
  · simp [State.out]
  · simp [State.out, hcs, hdc]

end Sys2Proof.Machine
end

section
/-! PROOFS. The Command Sequencer (40_sequencer.md), instruction by instruction: the electrical reset and the table head of `INIT`, the record on
either substrate, the end of the loop. -/

namespace Sys2Proof.Machine

/-! The electrical reset (R82). -/

/-- Every line of a list made an output. -/
def drivenLines (ls : List Signal) (x : BitVec 14) : BitVec 14 := ls.foldl (fun y sig => setBit y sig.id true) x

theorem drivenLines_line (ls : List Signal) (x : BitVec 14) (sig : Signal) :
    (drivenLines ls x).getLsbD sig.id = (decide (sig ∈ ls) || x.getLsbD sig.id) := by
  induction ls generalizing x with
  | nil => simp [drivenLines]
  | cons l ls ih =>
    have h := ih (setBit x l.id true)
    rw [line_setBit] at h
    by_cases hl : sig = l <;> simp_all [drivenLines]

theorem mem_lines {c : Config} {sig : Signal} : sig ∈ lines c ↔ lineExists c sig = true := by
  cases sig <;> by_cases h : c.hasSte = true <;> simp [lines, h]

theorem straight_drive {ls : List Signal} {s : State} (h : ∀ sig ∈ ls, lineExists s.cfg sig = true) :
    straight (ls.map fun sig => .dir sig true) s = { s with
      pinDir := drivenLines ls s.pinDir, trace := s.trace ++ ls.map fun sig => .dir sig true } := by
  induction ls generalizing s with
  | nil => simp [drivenLines]
  | cons l ls ih =>
    obtain ⟨hl, hls⟩ := List.forall_mem_cons.mp h
    rw [List.map_cons, straight_cons, micro, dirWrite_eq _ _ hl, ih (by simpa using hls)]
    simp [drivenLines, emit]

/-- The latches after the electrical reset: every control line idle, RESET deasserted, `DATA` as before. -/
def idleLines (c : Config) (x : BitVec 14) : BitVec 14 :=
  let y := setBit (setBit (setBit (setBit (setBit x Signal.reset.id true) Signal.cs.id true) Signal.dc.id true) Signal.wr.id true)
    Signal.rd.id true
  if c.hasSte then setBit y Signal.msel.id true else y

@[simp] theorem idleLines_reset (c : Config) (x : BitVec 14) : (idleLines c x).getLsbD Signal.reset.id = true := by
  unfold idleLines; split <;> simp
@[simp] theorem idleLines_cs (c : Config) (x : BitVec 14) : (idleLines c x).getLsbD Signal.cs.id = true := by
  unfold idleLines; split <;> simp
@[simp] theorem idleLines_dc (c : Config) (x : BitVec 14) : (idleLines c x).getLsbD Signal.dc.id = true := by
  unfold idleLines; split <;> simp
@[simp] theorem idleLines_wr (c : Config) (x : BitVec 14) : (idleLines c x).getLsbD Signal.wr.id = true := by
  unfold idleLines; split <;> simp
@[simp] theorem idleLines_rd (c : Config) (x : BitVec 14) : (idleLines c x).getLsbD Signal.rd.id = true := by
  unfold idleLines; split <;> simp
@[simp] theorem idleLines_msel (c : Config) (x : BitVec 14) :
    (idleLines c x).getLsbD Signal.msel.id = (c.hasSte || x.getLsbD Signal.msel.id) := by
  by_cases h : c.hasSte = true <;> simp [idleLines, h]
@[simp] theorem idleLines_data (c : Config) (x : BitVec 14) : (idleLines c x).extractLsb' 5 8 = x.extractLsb' 5 8 := by
  unfold idleLines; split <;> simp

/-- The events of the two holds of the panel's reset (R80). -/
def resetHolds (c : Config) : List Event :=
  [.delayMs c.tRstMs, .pin .reset false, .delayMs c.tRstMs, .pin .reset true, .delayMs c.tRstMs]

/-- The events of the electrical reset after the directions: the idle levels and the pulse. -/
def resetPulse (c : Config) : List Event :=
  .pin .reset true :: .pin .cs true :: .pin .dc true :: .pin .wr true :: .pin .rd true ::
    if c.hasSte then .pin .msel true :: resetHolds c else resetHolds c

theorem resetEvents_eq (c : Config) : resetEvents c = (lines c).map (fun sig => Event.dir sig true) ++ resetPulse c := by
  unfold resetEvents lines resetPulse
  split <;> rfl

theorem electricalReset_stops (c : Config) : ∀ m ∈ electricalReset c, m.stops = false := by
  unfold electricalReset
  simp only [List.forall_mem_append]
  refine ⟨⟨⟨List.forall_mem_map.mpr fun _ _ => rfl, ?_⟩, ?_⟩, ?_⟩
  · simp [Micro.stops]
  · split <;> simp [Micro.stops]
  · simp [Micro.stops]

theorem straight_electricalReset (s : State) :
    straight (electricalReset s.cfg) s = { s with
      pinDir := drivenLines (lines s.cfg) s.pinDir, pinOut := idleLines s.cfg s.pinOut, trace := s.trace ++ resetEvents s.cfg } := by
  have hdrive := straight_drive (s := s) fun sig => mem_lines.mp
  have hpulse : setBit (setBit (idleLines s.cfg s.pinOut) Signal.reset.id false) Signal.reset.id true = idleLines s.cfg s.pinOut := by
    apply pinReg_ext_control <;> simp
  rw [electricalReset, List.append_assoc, List.append_assoc, straight_append, hdrive, resetEvents_eq]
  unfold resetPulse resetHolds
  by_cases h : s.cfg.hasSte = true <;> simp only [idleLines, h, if_true, Bool.false_eq_true, if_false] at hpulse ⊢ <;>
    simp [h, hpulse, micro, pinWrite_eq, emit, Polarity.resetAsserted, Polarity.csAsserted, Polarity.dcData, Polarity.wrIdle,
      Polarity.rdIdle, Polarity.mselAsserted]

/-! `INIT` up to the table head, and its rejection (R80, R81). -/

theorem exec_init (p : Ports) (s : State) : exec (.init p) s = .next (hostOperation 0x0 p (initProgram s) s) := rfl

/-- The table is not turned away by the validator. -/
abbrev Accepted (s : State) : Prop := s.cfg.validate = true → tableWellFormed s.rom s.cfg = true

theorem initProgram_accepted {s : State} (h : Accepted s) :
    initProgram s = (Micro.seq .notStarted :: electricalReset s.cfg ++ [Micro.ptrBase]) ++ Micro.tableHead :: [.records, .seq .done] := by
  have hno : (s.cfg.validate && !tableWellFormed s.rom s.cfg) = false := by
    cases hv : s.cfg.validate with
    | false => rfl
    | true => simp [h hv]
  simp [initProgram, hno]

/-- The state at the table head of an undisturbed `INIT`. -/
def atTableHead (s : State) (p : Ports) : State :=
  { s with
    busy := true, result := .ok, seqState := .notStarted, ptr := s.cfg.tblBase, pinDir := drivenLines (lines s.cfg) s.pinDir,
    pinOut := idleLines s.cfg s.pinOut, todo := [.tableHead, .records, .seq .done, .opEnd 0x0],
    trace := s.trace ++ .opStart 0x0 p.a p.b p.n :: resetEvents s.cfg }

theorem hostOperation_init {s : State} (p : Ports) (hi : Idle s) (hq : Quiet s) (h : Accepted s) :
    hostOperation 0x0 p (initProgram s) s = atTableHead s p := by
  have hstops : ∀ m ∈ Micro.seq .notStarted :: electricalReset s.cfg ++ [Micro.ptrBase], m.stops = false := by
    intro m hm
    simp only [List.cons_append, List.mem_cons, List.mem_append, List.not_mem_nil, or_false] at hm
    rcases hm with rfl | hm | rfl
    · rfl
    · exact electricalReset_stops _ m hm
    · rfl
  have hreset := straight_electricalReset
    { s with busy := true, result := .ok, seqState := .notStarted, trace := s.trace ++ [.opStart 0x0 p.a p.b p.n] }
  rw [initProgram_accepted h, hostOperation_stop hi.1 hq hstops rfl (by simp), straight_append,
    straight_cons (.seq .notStarted)]
  have hfirst : micro (.seq .notStarted) (emit (.opStart 0x0 p.a p.b p.n) { s with busy := true, result := .ok })
      = { s with busy := true, result := .ok, seqState := .notStarted, trace := s.trace ++ [.opStart 0x0 p.a p.b p.n] } := rfl
  rw [hfirst, hreset]
  simp [micro, atTableHead]

/-- Settles O29: `hostOperation_init`, and the levels of `drivenLines` and `idleLines`. -/
theorem initResetsThePanel : Obligations.InitResetsThePanel := by
  intro s p hi hq h
  rw [exec_init, hostOperation_init p hi hq h]
  refine ⟨_, rfl, rfl, fun sig hsig => ?_, idleLines_data _ _, idleLines_reset _ _, idleLines_cs _ _, idleLines_dc _ _,
    idleLines_wr _ _, idleLines_rd _ _, fun hste => ?_, rfl⟩
  · simp [State.dir, atTableHead, drivenLines_line, mem_lines, hsig]
  · simp [State.out, atTableHead, hste]

/-- Settles O30: the program of a rejected table is `NotStarted` and the result. -/
theorem initRejectsIllFormedTable : Obligations.InitRejectsIllFormedTable := by
  intro s p hi hq hv hill
  obtain ⟨hb, ht⟩ := hi
  have hprog : initProgram s = [.seq .notStarted, .result .tableFormat] := by simp [initProgram, hv, hill]
  rw [exec_init, hprog, hostOperation_straight hb hq (by simp [Micro.stops])]
  simp [micro, emit, endOperation, hb, ht]

/-! A record on the parallel bus (R84). -/

/-- A framer call takes no trace of the one before it. -/
@[simp] theorem framedLines_framedLines (x : BitVec 14) (b b' : Byte) : framedLines (framedLines x b) b' = framedLines x b' := by
  apply pinReg_ext_control <;> simp

theorem foldl_framedLines (x : BitVec 14) (bytes : List Byte) :
    bytes.foldl framedLines x = (bytes.getLast?.map (framedLines x)).getD x := by
  induction bytes generalizing x with
  | nil => rfl
  | cons b bytes ih =>
    rw [List.foldl_cons, ih, List.getLast?_cons]
    cases bytes.getLast? <;> simp

theorem Word.add_two (a : Word) : a + 1#16 + 1#16 = a + 2#16 := BitVec.add_assoc ..

theorem Word.add_three (a : Word) : a + 2#16 + 1#16 = a + 3#16 := BitVec.add_assoc ..

theorem Word.add_one_ofNat (a : Word) (n : Nat) : a + 1#16 + BitVec.ofNat 16 n = a + BitVec.ofNat 16 (n + 1) := by
  rw [Nat.add_comm n 1, Word.add_ofNat_add]

theorem Byte.sub_one_ofNat (a : Byte) (n : Nat) : a - 1#8 - BitVec.ofNat 8 n = a - BitVec.ofNat 8 (n + 1) := by
  rw [BitVec.sub_sub, Nat.add_comm n 1, BitVec.ofNat_add]

theorem straight_argProgram {s : State} (a : Byte) (hm : s.cfg.busMode = .parallel) :
    straight (argProgram s.cfg a) s = { s with
      ptr := s.ptr + 1, args := s.args - 1, pinOut := framedLines s.pinOut a,
      trace := s.trace ++ .romRd s.ptr a :: framerEvents true a } := by
  have hframer := straight_framer_parallel (s := micro (.romRd .arg a) s) .init true a (by simpa using hm)
  rw [micro_cfg] at hframer
  rw [argProgram, List.cons_append, straight_cons, straight_append, txData, Polarity.dcData, hframer]
  simp [micro, romRead, setRomDst, emit]

theorem straight_args {s : State} (args : List Byte) (hm : s.cfg.busMode = .parallel) :
    straight (args.flatMap (argProgram s.cfg)) s = { s with
      ptr := s.ptr + BitVec.ofNat 16 args.length, args := s.args - BitVec.ofNat 8 args.length,
      pinOut := args.foldl framedLines s.pinOut, trace := s.trace ++ argEvents s.ptr args } := by
  induction args generalizing s with
  | nil => simp [argEvents]
  | cons a args ih =>
    have hrest := ih (s := { s with
      ptr := s.ptr + 1, args := s.args - 1, pinOut := framedLines s.pinOut a,
      trace := s.trace ++ .romRd s.ptr a :: framerEvents true a }) hm
    rw [List.flatMap_cons, straight_append, straight_argProgram a hm]
    refine hrest.trans ?_
    simp [argEvents, Word.add_one_ofNat, Byte.sub_one_ofNat]

theorem recordProgram_parallel_stops {c : Config} (n d o : Byte) (args : List Byte) (hm : c.busMode = .parallel) :
    ∀ m ∈ recordProgram c n d o args, m.stops = false :=
  forall_mem_recordProgram (fun dc b => framer_parallel_stops .init dc b hm) (fun _ _ => rfl) rfl rfl rfl

/-- The state after a record that has been applied (R84). -/
def recordApplied (s : State) (r : TableRecord) : State :=
  { s with
    ptr := s.ptr + 3 + BitVec.ofNat 16 r.args.length, args := 0, dly := r.delayMs, opc := r.opcode, recs := s.recs - 1,
    seqState := .applyingRecord, pinOut := (r.opcode :: r.args).foldl framedLines s.pinOut,
    trace := s.trace ++ recordEvents s.ptr r }

theorem straight_recordProgram {s : State} {n : Byte} {args : List Byte} (d o : Byte) (hm : s.cfg.busMode = .parallel)
    (hlen : args.length = n.toNat) : straight (recordProgram s.cfg n d o args) s = recordApplied s ⟨n, d, o, args⟩ := by
  have hhead : micro (.romRd .opc o) (micro (.romRd .dly d) (micro (.romRd .args n) s)) = { s with
      ptr := s.ptr + 3, args := n, dly := d, opc := o,
      trace := s.trace ++ [.romRd s.ptr n, .romRd (s.ptr + 1) d, .romRd (s.ptr + 2) o] } := by
    simp [micro, romRead, setRomDst, emit, Word.add_two, Word.add_three]
  have hzero : n - BitVec.ofNat 8 args.length = 0 := by simp [hlen]
  have hframer := straight_framer_parallel (s := { s with
      ptr := s.ptr + 3, args := n, dly := d, opc := o,
      trace := s.trace ++ [.romRd s.ptr n, .romRd (s.ptr + 1) d, .romRd (s.ptr + 2) o] }) .init false o hm
  have hargs := straight_args (s := { s with
      ptr := s.ptr + 3, args := n, dly := d, opc := o, pinOut := framedLines s.pinOut o,
      trace := s.trace ++ [.romRd s.ptr n, .romRd (s.ptr + 1) d, .romRd (s.ptr + 2) o] ++ framerEvents false o }) args hm
  have hshape : recordProgram s.cfg n d o args = .romRd .args n :: .romRd .dly d :: .romRd .opc o ::
      (framer s.cfg .init false o ++ (args.flatMap (argProgram s.cfg) ++ [Micro.settle, Micro.settled])) := by
    simp [recordProgram, txCommand, Polarity.dcCommand]
  rw [hshape, straight_cons, straight_cons, straight_cons, hhead, straight_append, hframer, straight_append, hargs]
  simp [micro, emit, recordApplied, recordEvents, hzero]

/-- `REC` on the parallel bus, undisturbed, in front of a record boundary. -/
theorem exec_record_parallel {s : State} {n : Byte} {args : List Byte} {rest : List Micro} (d o : Byte) (hq : Quiet s)
    (hm : s.cfg.busMode = .parallel) (hlen : args.length = n.toNat) (ht : s.todo = .records :: rest) :
    exec (.record n d o args) s = .next (recordApplied s ⟨n, d, o, args⟩) := by
  calc exec (.record n d o args) s
      = .next (run (recordProgram s.cfg n d o args ++ .records :: rest) s) := by rw [← ht]; rfl
    _ = .next { recordApplied s ⟨n, d, o, args⟩ with todo := .records :: rest } := by
        rw [run_straight_stop rest (recordProgram_parallel_stops n d o args hm) rfl (by simp) hq,
          straight_recordProgram d o hm hlen]
    _ = .next (recordApplied s ⟨n, d, o, args⟩) := by rw [← ht]; rfl

/-- Settles O32: `exec_record_parallel`; the latches are those of the last framer call (`foldl_framedLines`). -/
theorem recordIsApplied : Obligations.RecordIsApplied := by
  intro s n d o args rest hq hm hlen ht
  have hlines : (o :: args).foldl framedLines s.pinOut = framedLines s.pinOut ((o :: args).getLast (by simp)) := by
    rw [foldl_framedLines, List.getLast?_eq_some_getLast (by simp)]
    rfl
  refine ⟨_, exec_record_parallel d o hq hm hlen ht, rfl, ?_⟩
  simp only [State.out, State.data, recordApplied, hlines]
  exact ⟨framedLines_cs _ _, framedLines_dc _ _, framedLines_wr _ _, framedLines_data _ _, framedLines_reset _ _,
    framedLines_rd _ _, framedLines_msel _ _⟩

/-! The delay of a record and the end of the loop. -/

/-- Settles O36: the step makes `settle` and stops, because the host's look is then due. -/
theorem awaitingSettleShowsDuringTheDelay : Obligations.AwaitingSettleShowsDuringTheDelay := by
  intro s rest es ht he
  have hstep : step s = .next (run (.settle :: .settled :: rest) s) := by
    rw [step_not_due (by simp [due, he])]
    simp only [coreMove, ht]
  have hfirst : runMicros (.settle :: .settled :: rest) s =
      runMicros (.settled :: rest) (tick (micro .settle s)) := by simp [runMicros, Micro.stops, due, he]
  have hdue : due (tick (micro .settle s)) = true := by simp [due, he, tickEvents]
  have hstop : runMicros (.settled :: rest) (tick (micro .settle s)) =
      { tick (micro .settle s) with todo := .settled :: rest } := by simp [runMicros, hdue]
  rw [hstep, run, hfirst, hstop, passLoop_other (by simp)]
  simp [tick, micro, emit, he, tickEvents]

/-- Settles O35: what is left is `Done` and the end step. -/
theorem loopEndsInDone : Obligations.LoopEndsInDone := by
  intro s hq ht hr
  have hstep : step s = .next (run [.seq .done, .opEnd 0x0] s) := by
    rw [step_quiet hq]
    simp only [coreMove, ht, if_pos hr]
  rw [hstep, run_straight_end (by simp [Micro.stops]) hq]
  rfl

/-! A record in serial mode, up to the opcode's wait. -/

/-- The head of a record and its opcode on the wire. -/
def recordSend (n d o : Byte) : List Micro := .romRd .args n :: .romRd .dly d :: .romRd .opc o :: framerSend false o

theorem recordProgram_serial {c : Config} (n d o : Byte) (args : List Byte) (hm : c.busMode = .serial) :
    recordProgram c n d o args =
      recordSend n d o ++ Micro.poll .init :: (framerFinish ++ args.flatMap (argProgram c) ++ [Micro.settle, Micro.settled]) := by
  simp [recordProgram, recordSend, txCommand, Polarity.dcCommand, framer_serial _ _ _ hm]

theorem recordSend_stops (n d o : Byte) : ∀ m ∈ recordSend n d o, m.stops = false := by
  simp [recordSend, framerSend, Micro.stops]

theorem straight_recordSend (s : State) (n d o : Byte) :
    straight (recordSend n d o) s = { s with
      ptr := s.ptr + 3, args := n, dly := d, opc := o, pinOut := selectedLines s.pinOut false, xdone := false, txbuf := o,
      pending := true, polls := 0,
      trace := s.trace ++ [.romRd s.ptr n, .romRd (s.ptr + 1) d, .romRd (s.ptr + 2) o, .pin .cs false, .pin .dc false,
        .flagClr, .serTx o] } := by
  rw [recordSend, straight_cons, straight_cons, straight_cons, straight_framerSend]
  simp [micro, romRead, setRomDst, emit, Word.add_two, Word.add_three]

/-- `REC` in serial mode up to its first wait, while no other agent's move falls due. -/
theorem exec_record_serial {s : State} (n d o : Byte) (args : List Byte) (hm : s.cfg.busMode = .serial) (hs : Clear 7 s.events) :
    exec (.record n d o args) s = .next { s with
      ptr := s.ptr + 3, args := n, dly := d, opc := o, pinOut := selectedLines s.pinOut false, xdone := false, txbuf := o,
      pending := true, polls := 0, events := passed 7 s.events,
      todo := .poll .init :: (framerFinish ++ args.flatMap (argProgram s.cfg) ++ [.settle, .settled] ++ s.todo),
      trace := s.trace ++ [.romRd s.ptr n, .romRd (s.ptr + 1) d, .romRd (s.ptr + 2) o, .pin .cs false, .pin .dc false,
        .flagClr, .serTx o] } := by
  calc exec (.record n d o args) s
      = .next (run (recordProgram s.cfg n d o args ++ s.todo) s) := rfl
    _ = _ := by
      rw [recordProgram_serial n d o args hm, List.append_assoc, List.cons_append,
        run_clear_stop _ (recordSend_stops n d o) rfl (by simp) hs, straight_recordSend]
      simp [recordSend, framerSend]

/-- Settles O33: `exec_record_serial`, undisturbed. -/
theorem serialRecordSendsItsOpcode : Obligations.SerialRecordSendsItsOpcode := by
  intro s n d o args hq hm
  rw [exec_record_serial n d o args hm (clear_of_quiet 7 hq), passed_of_quiet 7 hq]
  exact ⟨_, rfl, rfl, selectedLines_cs _ _, selectedLines_dc _ _, fun sig hc hd => selectedLines_other _ _ hc hd, rfl⟩

end Sys2Proof.Machine
end

section
/-! PROOFS. An undisturbed `INIT` on the parallel bus from its acceptance to its end (40_sequencer.md R80, R86, R87, R91, R95, R97). -/

namespace Sys2Proof.Machine

/-! The records of a table depend on the ROM alone. -/

theorem romBytes_congr {s t : State} (h : t.rom = s.rom) (a : Word) (n : Nat) : romBytes t a n = romBytes s a n := by
  induction n generalizing a with
  | zero => rfl
  | succ n ih => rw [romBytes, romBytes, ih, romByte_congr h]

theorem recordAt_congr {s t : State} (h : t.rom = s.rom) (a : Word) : recordAt t a = recordAt s a := by
  simp only [recordAt, romByte_congr h, romBytes_congr h]

theorem recordsFrom_congr {s t : State} (h : t.rom = s.rom) (n : Nat) (a : Word) : recordsFrom t n a = recordsFrom s n a := by
  induction n generalizing a with
  | zero => rfl
  | succ n ih => simp only [recordsFrom, recordAt_congr h, afterRecord, romByte_congr h, ih]

theorem tableRecords_congr {s t : State} (hr : t.rom = s.rom) (hc : t.cfg = s.cfg) : tableRecords t = tableRecords s := by
  rw [tableRecords, tableRecords, hc, romByte_congr hr, recordsFrom_congr hr]

@[simp] theorem recordsFrom_length (s : State) (n : Nat) (a : Word) : (recordsFrom s n a).length = n := by
  induction n generalizing a with
  | zero => rfl
  | succ n ih => simp [recordsFrom, ih]

@[simp] theorem recordAt_args_length (s : State) (a : Word) : (recordAt s a).args.length = (s.romByte a).toNat := by
  simp [recordAt]

theorem recordsFrom_succ_ne_nil (s : State) (n : Nat) (a : Word) : recordsFrom s (n + 1) a ≠ [] := by
  simp [recordsFrom]

/-- The walk of the validator passes the same addresses (30_encoding.md R62). -/
theorem afterRecord_add (s : State) (n : Nat) (a : Word) :
    afterRecord s a + BitVec.ofNat 16 (recordsLen s.rom n (afterRecord s a)) = a + BitVec.ofNat 16 (recordsLen s.rom (n + 1) a) := by
  have hnext : a + BitVec.ofNat 16 (3 + (s.romByte a).toNat) = afterRecord s a := by
    rw [Word.add_ofNat_add]; rfl
  rw [recordsLen, Word.add_ofNat_add]
  change _ = a + BitVec.ofNat 16 (3 + (s.romByte a).toNat)
    + BitVec.ofNat 16 (recordsLen s.rom n (a + BitVec.ofNat 16 (3 + (s.romByte a).toNat)))
  rw [hnext]

/-! The loop over the records (R80). -/

/-- The bytes a record transmits. -/
def TableRecord.bytes (r : TableRecord) : List Byte := r.opcode :: r.args

/-- The state after the `n` records from the cursor on. -/
def recordsApplied (s : State) (n : Nat) : State :=
  let rs := recordsFrom s n s.ptr
  { s with
    ptr := s.ptr + BitVec.ofNat 16 (recordsLen s.rom n s.ptr), recs := 0, args := if rs = [] then s.args else 0,
    dly := (rs.getLast?.map fun x => x.2.delayMs).getD s.dly, opc := (rs.getLast?.map fun x => x.2.opcode).getD s.opc,
    pinOut := (rs.flatMap fun x => x.2.bytes).foldl framedLines s.pinOut,
    trace := s.trace ++ rs.flatMap fun x => recordEvents x.1 x.2 }

theorem recordsApplied_zero {s : State} (h : s.recs = 0) : recordsApplied s 0 = s := by
  simp [recordsApplied, recordsFrom, recordsLen, ← h]

/-- One record, then the others. -/
theorem recordsApplied_succ {s : State} (n : Nat) (h : s.seqState = .applyingRecord) :
    recordsApplied (recordApplied s (recordAt s s.ptr)) n = recordsApplied s (n + 1) := by
  have hptr : (recordApplied s (recordAt s s.ptr)).ptr = afterRecord s s.ptr := by simp [recordApplied, afterRecord]
  have hrs : recordsFrom (recordApplied s (recordAt s s.ptr)) n (afterRecord s s.ptr) = recordsFrom s n (afterRecord s s.ptr) :=
    recordsFrom_congr (s := s) (by rfl) _ _
  have hrom : (recordApplied s (recordAt s s.ptr)).rom = s.rom := rfl
  simp only [recordsApplied, hptr, hrs, hrom, afterRecord_add, recordsFrom]
  simp only [List.flatMap_cons, List.foldl_append, List.getLast?_cons, Option.map_some, Option.getD_some, reduceCtorEq, if_false]
  cases hl : (recordsFrom s n (afterRecord s s.ptr)).getLast? <;>
    simp [recordApplied, TableRecord.bytes, h]

/-- A record at the cursor is one step. -/
theorem step_record_parallel {s : State} {rest : List Micro} (hq : Quiet s) (hm : s.cfg.busMode = .parallel)
    (ht : s.todo = .records :: rest) (hr : s.recs ≠ 0) : step s = .next (recordApplied s (recordAt s s.ptr)) := by
  rw [step_records (due_quiet hq) ht hr]
  exact exec_record_parallel _ _ hq hm (romBytes_length _ _ _) ht

theorem steps_records {n : Nat} {s : State} {rest : List Micro} (hq : Quiet s) (hm : s.cfg.busMode = .parallel)
    (ht : s.todo = .records :: rest) (hst : s.seqState = .applyingRecord) (hn : s.recs.toNat = n) :
    Steps n s (recordsApplied s n) := by
  induction n generalizing s with
  | zero =>
    rw [recordsApplied_zero (BitVec.eq_of_toNat_eq hn)]
    exact Steps.refl s
  | succ n ih =>
    have hne : s.recs ≠ 0 := by
      intro h0
      rw [h0] at hn
      cases hn
    have hdec : (recordApplied s (recordAt s s.ptr)).recs.toNat = n := by
      change (s.recs - 1).toNat = n
      rw [Byte.toNat_sub_one (by omega), hn, Nat.add_sub_cancel]
    rw [← recordsApplied_succ n hst]
    exact Steps.cons (step_record_parallel hq hm ht hne) (ih hq hm ht rfl hdec)

/-! The whole operation. -/

/-- The latches after the records of a table: the idle levels of the electrical reset and the last byte on `DATA`. -/
theorem foldl_framedLines_idle (c : Config) (x : BitVec 14) (bytes : List Byte) :
    bytes.foldl framedLines (idleLines c x) = setData (idleLines c x) (bytes.getLast?.getD (x.extractLsb' 5 8)) := by
  rw [foldl_framedLines]
  cases bytes.getLast? <;> apply pinReg_ext_control <;> simp

/-- The state after a whole undisturbed `INIT`. -/
def initDone (s : State) (p : Ports) (cs : List HostCmd) : State :=
  let rs := tableRecords s
  { s with
    cmds := cs, busy := false, result := .ok, seqState := .done, todo := [],
    ptr := s.cfg.tblBase + BitVec.ofNat 16 (tableLen s.rom s.cfg.tblBase), recs := 0, args := if rs = [] then s.args else 0,
    dly := (rs.getLast?.map fun x => x.2.delayMs).getD s.dly, opc := (rs.getLast?.map fun x => x.2.opcode).getD s.opc,
    pinDir := drivenLines (lines s.cfg) s.pinDir,
    pinOut := setData (idleLines s.cfg s.pinOut) (lastByte s.data (rs.map Prod.snd)),
    trace := s.trace ++ initEvents s p }

/-- The state at the first record boundary. -/
def atFirstRecord (s : State) (p : Ports) : State :=
  { atTableHead s p with
    recs := s.romByte s.cfg.tblBase, ptr := s.cfg.tblBase + 1, seqState := .applyingRecord,
    trace := (atTableHead s p).trace ++ [.romRd s.cfg.tblBase (s.romByte s.cfg.tblBase)],
    todo := [.records, .seq .done, .opEnd 0x0] }

theorem step_count {s : State} (p : Ports) (hq : Quiet s) : step (atTableHead s p) = .next (atFirstRecord s p) :=
  (countLoadsRecs (atTableHead s p) 0 [.seq .done, .opEnd 0x0] hq).2 rfl

/-- The acceptance step. -/
theorem step_init {s : State} {p : Ports} {cs : List HostCmd} (hi : Idle s) (hq : Quiet s) (hc : s.cmds = ⟨0x0, p⟩ :: cs)
    (hm : s.cfg.busMode = .parallel) (h : Accepted s) : step s = .next (atTableHead { s with cmds := cs } p) := by
  have hadm : admission { s with cmds := cs } (.init p) = none := by
    simp [admission, reservedUse, startsSerial, hm]
  rw [step_issue hi (due_quiet hq) hc, issue_decoded (i := .init p) (rest := []) rfl hadm, exec_init]
  exact congrArg _ (hostOperation_init (s := { s with cmds := cs }) p hi hq h)

theorem afterTable_eq (c : Config) (rom : Memory) :
    c.tblBase + 1 + BitVec.ofNat 16 (recordsLen rom (Memory.read rom c.tblBase.toNat).toNat (c.tblBase + 1))
      = c.tblBase + BitVec.ofNat 16 (tableLen rom c.tblBase) := by
  rw [tableLen, Word.add_ofNat_add]
  rfl

/-- The records applied, then `Done` and the end step. -/
theorem endOfTable_eq (s : State) (p : Ports) (cs : List HostCmd) :
    let u := recordsApplied (atFirstRecord { s with cmds := cs } p) (s.romByte s.cfg.tblBase).toNat
    { u with seqState := .done, busy := false, todo := [], trace := u.trace ++ [.opEnd 0x0 u.result] } = initDone s p cs := by
  have hrs : recordsFrom (atFirstRecord { s with cmds := cs } p) (s.romByte s.cfg.tblBase).toNat (s.cfg.tblBase + 1)
      = tableRecords s := recordsFrom_congr (s := s) (by rfl) _ _
  have hptr : (atFirstRecord { s with cmds := cs } p).ptr = s.cfg.tblBase + 1 := rfl
  have hlen := afterTable_eq s.cfg s.rom
  have hbytes : ∀ rs : List (Word × TableRecord), (rs.map Prod.snd).flatMap (fun r => r.opcode :: r.args) =
      rs.flatMap fun x => x.2.bytes := fun rs => by rw [List.flatMap_map]; rfl
  simp only [recordsApplied, hptr, hrs, initDone, lastByte, hbytes]
  simp [atFirstRecord, atTableHead, foldl_framedLines_idle, initEvents, State.data, ← hlen, State.romByte]

/-- An undisturbed `INIT` on the parallel bus: the acceptance, the table head, a step a record, the end (log 5). -/
theorem steps_init {s : State} {p : Ports} {cs : List HostCmd} (hi : Idle s) (hq : Quiet s) (hc : s.cmds = ⟨0x0, p⟩ :: cs)
    (hm : s.cfg.busMode = .parallel) (h : Accepted s) : Steps (initSteps s) s (initDone s p cs) := by
  let t : State := { s with cmds := cs }
  have hrecords : Steps (s.romByte s.cfg.tblBase).toNat (atFirstRecord t p)
      (recordsApplied (atFirstRecord t p) (s.romByte s.cfg.tblBase).toNat) := steps_records hq hm rfl rfl rfl
  have hend := Steps.one (loopEndsInDone (recordsApplied (atFirstRecord t p) (s.romByte s.cfg.tblBase).toNat) hq rfl rfl)
  rw [endOfTable_eq] at hend
  have hsteps : initSteps s = (s.romByte s.cfg.tblBase).toNat + 1 + 1 + 1 := by unfold initSteps; omega
  rw [hsteps]
  exact Steps.cons (step_init hi hq hc hm h) (Steps.cons (step_count p hq) (hrecords.trans hend))

/-- Settles O37: the fields of `initDone`. -/
theorem initAppliesTheWholeTable : Obligations.InitAppliesTheWholeTable := by
  intro s p cs hi hq hc hm h
  refine ⟨_, steps_init hi hq hc hm h, rfl, rfl, rfl, rfl, rfl, rfl, rfl, rfl, rfl, fun sig hsig => ?_, ?_, ?_, ?_, ?_, ?_,
    fun hste => ?_, ?_, rfl, rfl, rfl⟩
  · simp [State.dir, initDone, drivenLines_line, mem_lines, hsig]
  · simp [State.out, initDone]
  · simp [State.out, initDone]
  · simp [State.out, initDone]
  · simp [State.out, initDone]
  · simp [State.out, initDone]
  · simp [State.out, initDone, hste]
  · simp [State.data, initDone]

/-- Making every line an output twice is making it once. -/
theorem drivenLines_drivenLines (ls : List Signal) (x : BitVec 14) : drivenLines ls (drivenLines ls x) = drivenLines ls x := by
  apply pinReg_ext
  intro sig
  simp only [drivenLines_line]
  by_cases h : sig ∈ ls <;> simp [h]

theorem lastByte_lastByte (b : Byte) (rs : List TableRecord) : lastByte (lastByte b rs) rs = lastByte b rs := by
  unfold lastByte
  cases (rs.flatMap fun r => r.opcode :: r.args).getLast? <;> rfl

/-- The latches of a second electrical reset and table are those of the first. -/
theorem idleLines_setData (c : Config) (x : BitVec 14) (b b' : Byte) :
    setData (idleLines c (setData (idleLines c x) b)) b' = setData (idleLines c x) b' := by
  apply pinReg_ext_control <;> simp

/-- Settles O40: every field of `initDone` of `initDone` is that of `initDone`, but the trace. -/
theorem initIsIdempotent : Obligations.InitIsIdempotent := by
  intro s p q cs hi hq hc hm h
  have hfirst := steps_init (cs := ⟨0x0, q⟩ :: cs) hi hq hc hm h
  have hsecond : Steps (initSteps s) (initDone s p (⟨0x0, q⟩ :: cs)) (initDone (initDone s p (⟨0x0, q⟩ :: cs)) q cs) :=
    steps_init (s := initDone s p (⟨0x0, q⟩ :: cs)) ⟨rfl, rfl⟩ hq rfl hm h
  refine ⟨_, _, hfirst, hsecond, ?_⟩
  have hrs : tableRecords (initDone s p (⟨0x0, q⟩ :: cs)) = tableRecords s := tableRecords_congr rfl rfl
  have hdata : (initDone s p (⟨0x0, q⟩ :: cs)).data = lastByte s.data ((tableRecords s).map Prod.snd) := by
    simp [State.data, initDone]
  have hargs : (if tableRecords s = [] then (if tableRecords s = [] then s.args else 0) else 0)
      = if tableRecords s = [] then s.args else 0 := by split <;> rfl
  have hlast : ∀ (f : TableRecord → Byte) (b : Byte), ((tableRecords s).getLast?.map fun x => f x.2).getD
      (((tableRecords s).getLast?.map fun x => f x.2).getD b) = ((tableRecords s).getLast?.map fun x => f x.2).getD b := by
    intro f b
    cases (tableRecords s).getLast? <;> rfl
  rw [initDone, hrs, hdata, lastByte_lastByte]
  simp only [initDone, hargs, hlast TableRecord.delayMs, hlast TableRecord.opcode, drivenLines_drivenLines, idleLines_setData]
  rfl

end Sys2Proof.Machine
end

section
/-! PROOFS. What the event list of an undisturbed `INIT` shows: its delays and their sum (40_sequencer.md R95), and what the panel sees of it
(R91, 10_state.md R31). -/

namespace Sys2Proof.Machine

/-! Delays. -/

/-- The milliseconds of a delay event. -/
def Event.delay? : Event → Option Nat
  | .delayMs n => some n
  | _ => none

/-- The total is the sum of the delays. -/
theorem totalDelayMs_eq_sum (es : List Event) : totalDelayMs es = (es.filterMap Event.delay?).sum := by
  induction es with
  | nil => rfl
  | cons e es ih =>
    have htotal : totalDelayMs (e :: es) = e.millis + totalDelayMs es := by simp [totalDelayMs]
    rw [htotal, ih, List.filterMap_cons]
    cases e <;> simp [Event.delay?, Event.millis]

theorem delays_framerEvents (dc : Level) (b : Byte) : (framerEvents dc b).filterMap Event.delay? = [] := rfl

theorem delays_argEvents (a : Word) (args : List Byte) : (argEvents a args).filterMap Event.delay? = [] := by
  induction args generalizing a with
  | nil => rfl
  | cons x args ih => rw [argEvents, List.filterMap_append, ih]; rfl

/-- A record makes its one delay (40_sequencer.md R84). -/
theorem delays_recordEvents (a : Word) (r : TableRecord) :
    (recordEvents a r).filterMap Event.delay? = [r.delayMs.toNat] := by
  rw [recordEvents, List.filterMap_append, List.filterMap_append, List.filterMap_append, delays_framerEvents, delays_argEvents]
  rfl

theorem delays_resetEvents (c : Config) : (resetEvents c).filterMap Event.delay? = List.replicate 3 c.tRstMs := by
  unfold resetEvents
  split <;> rfl

theorem delays_records (rs : List (Word × TableRecord)) :
    (rs.flatMap fun x => recordEvents x.1 x.2).filterMap Event.delay? = rs.map fun x => x.2.delayMs.toNat := by
  induction rs with
  | nil => rfl
  | cons r rs ih => rw [List.flatMap_cons, List.filterMap_append, delays_recordEvents, ih]; rfl

theorem delays_initEvents (s : State) (p : Ports) :
    (initEvents s p).filterMap Event.delay?
      = List.replicate 3 s.cfg.tRstMs ++ (tableRecords s).map fun x => x.2.delayMs.toNat := by
  have hopen : initEvents s p = .opStart 0 p.a p.b p.n :: (resetEvents s.cfg
      ++ Event.romRd s.cfg.tblBase (s.romByte s.cfg.tblBase) :: ((tableRecords s).flatMap (fun x => recordEvents x.1 x.2)
      ++ [Event.opEnd 0 .ok])) := by simp [initEvents]
  rw [hopen]
  simp [List.filterMap_cons, Event.delay?, delays_resetEvents, delays_records]

/-- Settles O38: `delays_initEvents`, and the total is their sum. -/
theorem initDelaysAddUp : Obligations.InitDelaysAddUp := by
  intro s p cs hi hq hc hm h
  refine ⟨_, initEvents s p, steps_init hi hq hc hm h, rfl, ?_, ?_, ?_⟩
  · exact delays_initEvents s p
  · exact recordsFrom_length _ _ _
  · rw [totalDelayMs_eq_sum, delays_initEvents, List.sum_append, List.sum_replicate]
    rfl

/-! The panel's view. -/

theorem latches_append (xs ys : List PanelItem) : latches (xs ++ ys) = latches xs ++ latches ys := List.filter_append ..

/-- What the panel sees of a run of events, waits apart, and then of the events after it. -/
theorem latches_panelFrom_append (c : Config) (v : PinView) (es es' : List Event) :
    latches (panelFrom c v (es ++ es')) =
      latches (panelFrom c v es) ++ latches (panelFrom c (es.foldl PinView.after v) es') := by
  rw [panelFrom_append, latches_append]

/-- A framer call leaves the directions. -/
theorem foldl_framerEvents_dir (v : PinView) (dc : Level) (b : Byte) : ((framerEvents dc b).foldl PinView.after v).dir = v.dir := rfl

theorem busDriven_congr {v w : PinView} (h : w.dir = v.dir) : w.busDriven = v.busDriven := by
  have hdir : w.dirBit = v.dirBit := funext fun sig => congrArg (BitVec.getLsbD · sig.id) h
  rw [PinView.busDriven, hdir, PinView.busDriven]

theorem latches_framerEvents {c : Config} {v : PinView} (dc : Level) (b : Byte) (hm : c.busMode = .parallel)
    (hv : v.busDriven = true) : latches (panelFrom c v (framerEvents dc b)) = [.lat dc b] := by
  rw [panelFrom_framerEvents v dc b hm, if_pos hv]
  rfl

/-- The arguments of a record reach the panel as data, in order, and leave the directions. -/
theorem latches_argEvents {c : Config} {v : PinView} (a : Word) (args : List Byte) (hm : c.busMode = .parallel)
    (hv : v.busDriven = true) :
    latches (panelFrom c v (argEvents a args)) = args.map (.lat true) ∧ ((argEvents a args).foldl PinView.after v).dir = v.dir := by
  induction args generalizing a v with
  | nil => exact ⟨rfl, rfl⟩
  | cons x args ih =>
    have hdir : ((framerEvents true x).foldl PinView.after v).dir = v.dir := foldl_framerEvents_dir v true x
    obtain ⟨hseen, hkept⟩ := ih (a + 1) ((busDriven_congr hdir).trans hv)
    have hread : ∀ es, panelFrom c v (.romRd a x :: es) = panelFrom c v es := fun es => rfl
    have hview : ∀ es, (Event.romRd a x :: es).foldl PinView.after v = es.foldl PinView.after v := fun es => rfl
    rw [argEvents, List.cons_append, hread, hview, latches_panelFrom_append, latches_framerEvents true x hm hv, hseen,
      List.foldl_append, hkept]
    exact ⟨rfl, hdir⟩

/-- A record reaches the panel as its opcode and its arguments (40_sequencer.md R91). -/
theorem latches_recordEvents {c : Config} {v : PinView} (a : Word) (r : TableRecord) (hm : c.busMode = .parallel)
    (hv : v.busDriven = true) :
    latches (panelFrom c v (recordEvents a r)) = recordLatches r ∧ ((recordEvents a r).foldl PinView.after v).dir = v.dir := by
  have hdir : ((framerEvents false r.opcode).foldl PinView.after v).dir = v.dir := foldl_framerEvents_dir v false r.opcode
  obtain ⟨hseen, hkept⟩ := latches_argEvents (a + 3) r.args hm ((busDriven_congr hdir).trans hv)
  have hshape : recordEvents a r = .romRd a r.argCount :: .romRd (a + 1) r.delayMs :: .romRd (a + 2) r.opcode ::
      (framerEvents false r.opcode ++ (argEvents (a + 3) r.args ++ [Event.delayMs r.delayMs.toNat])) := by simp [recordEvents]
  have hread : ∀ es, panelFrom c v (.romRd a r.argCount :: .romRd (a + 1) r.delayMs :: .romRd (a + 2) r.opcode :: es)
      = panelFrom c v es := fun es => rfl
  have hview : ∀ es, (Event.romRd a r.argCount :: .romRd (a + 1) r.delayMs :: .romRd (a + 2) r.opcode :: es).foldl PinView.after v
      = es.foldl PinView.after v := fun es => rfl
  have hwait : ∀ w, latches (panelFrom c w [.delayMs r.delayMs.toNat]) = [] := by
    intro w
    simp only [panelFrom, panelItems]
    split <;> rfl
  rw [hshape, hread, hview, latches_panelFrom_append, latches_framerEvents false r.opcode hm hv, latches_panelFrom_append, hseen,
    hwait, List.foldl_append, List.foldl_append]
  exact ⟨by simp [recordLatches], hkept.trans hdir⟩

theorem latches_records {c : Config} {v : PinView} (rs : List (Word × TableRecord)) (hm : c.busMode = .parallel)
    (hv : v.busDriven = true) :
    latches (panelFrom c v (rs.flatMap fun x => recordEvents x.1 x.2)) = rs.flatMap fun x => recordLatches x.2 := by
  induction rs generalizing v with
  | nil => rfl
  | cons r rs ih =>
    obtain ⟨hseen, hkept⟩ := latches_recordEvents r.1 r.2 hm hv
    rw [List.flatMap_cons, latches_panelFrom_append, hseen, ih ((busDriven_congr hkept).trans hv), List.flatMap_cons]

/-- Driving lines is nothing to the panel; the lines are outputs afterwards. -/
theorem panelFrom_drive (c : Config) (v : PinView) (ls : List Signal) :
    panelFrom c v (ls.map fun sig => .dir sig true) = []
      ∧ (ls.map fun sig => Event.dir sig true).foldl PinView.after v = { v with dir := drivenLines ls v.dir } := by
  induction ls generalizing v with
  | nil => exact ⟨rfl, rfl⟩
  | cons l ls ih =>
    obtain ⟨hseen, hview⟩ := ih (v.after (.dir l true))
    exact ⟨hseen, hview⟩

theorem busDriven_drivenLines (c : Config) (out x : BitVec 14) : (PinView.mk out (drivenLines (lines c) x)).busDriven = true := by
  simp [PinView.busDriven, PinView.dirBit, drivenLines_line, mem_lines]

/-- With every line an output the rest of the electrical reset shows the panel one hardware reset: WR rises, if it does, with CS deasserted. -/
theorem latches_resetPulse {c : Config} {v : PinView} (hm : c.busMode = .parallel) (hv : v.busDriven = true)
    (hr : v.dirBit .reset = true) :
    latches (panelFrom c v (resetPulse c)) = [.hwReset] := by
  have hwait : ∀ n, latches (if 0 < n then [.wait n] else []) = [] := fun n => by split <;> rfl
  have hdriven : ∀ out, (PinView.mk out v.dir).busDriven = true := fun out => hv
  have hreset : v.dir.getLsbD Signal.reset.id = true := hr
  have hpulse : ∀ items, latches (.hwReset :: items) = .hwReset :: latches items := fun items => rfl
  by_cases hste : c.hasSte = true <;>
    simp [resetPulse, resetHolds, hste, panelFrom, panelItems, PinView.after, PinView.latched, PinView.outBit, PinView.dirBit, hm, hdriven, hreset,
      Polarity.csAsserted, Polarity.resetAsserted, latches_append, hpulse, hwait]

/-- The electrical reset shows the panel one hardware reset and leaves the bus driven. -/
theorem latches_resetEvents {c : Config} (v : PinView) (hm : c.busMode = .parallel) :
    latches (panelFrom c v (resetEvents c)) = [.hwReset] ∧ ((resetEvents c).foldl PinView.after v).busDriven = true := by
  obtain ⟨hseen, hview⟩ := panelFrom_drive c v (lines c)
  have hdriven := busDriven_drivenLines c v.out v.dir
  have hreset : (PinView.mk v.out (drivenLines (lines c) v.dir)).dirBit .reset = true := by
    simp [PinView.dirBit, drivenLines_line, mem_lines]
  rw [resetEvents_eq, latches_panelFrom_append, hseen, hview, latches_resetPulse hm hdriven hreset, List.foldl_append, hview]
  refine ⟨rfl, (busDriven_congr ?_).trans hdriven⟩
  unfold resetPulse
  split <;> rfl

/-- Settles O39: `latches_resetEvents`, then `latches_records`. -/
theorem panelSeesTheTableInOrder : Obligations.PanelSeesTheTableInOrder := by
  intro s p cs hi hq hc hm h
  refine ⟨_, initEvents s p, steps_init hi hq hc hm h, rfl, ?_⟩
  obtain ⟨hseen, hdriven⟩ := latches_resetEvents s.pinView hm
  have hrecords := latches_records (tableRecords s) hm hdriven
  have hshape : initEvents s p = .opStart 0 p.a p.b p.n :: (resetEvents s.cfg
      ++ Event.romRd s.cfg.tblBase (s.romByte s.cfg.tblBase) :: (tableRecords s).flatMap (fun x => recordEvents x.1 x.2))
      ++ [Event.opEnd 0 .ok] := by simp [initEvents]
  have hread : ∀ v es, panelFrom s.cfg v (.romRd s.cfg.tblBase (s.romByte s.cfg.tblBase) :: es) = panelFrom s.cfg v es :=
    fun v es => rfl
  rw [hshape, panelFrom_operation, latches_panelFrom_append, hread, hseen, hrecords]
  rfl

end Sys2Proof.Machine
end

section
/-! PROOFS. A serial record whose bytes are all answered in time (40_sequencer.md R84, 41_framers.md R114, 43_serial_transport.md R152). -/

namespace Sys2Proof.Machine

/-- A run goes through a program without stops while no other agent's move falls due. -/
theorem run_clear {prog : List Micro} (rest : List Micro) {s : State} (hp : ∀ m ∈ prog, m.stops = false)
    (hs : Clear prog.length s.events) :
    run (prog ++ rest) s = run rest { straight prog s with events := passed prog.length s.events } := by
  rw [run, runMicros_clear rest hp hs, run]

theorem micro_with_todo (m : Micro) (s : State) (l : List Micro) : micro m { s with todo := l } = { micro m s with todo := l } := by
  cases m with
  | pin sig v => simp only [micro, pinWrite]; split <;> rfl
  | dir sig d => simp only [micro, dirWrite]; split <;> rfl
  | romRd dst v => cases dst <;> rfl
  | _ => rfl

/-- A run does not read what was left to do before it. -/
theorem runMicros_with_todo (l l' : List Micro) (s : State) : runMicros l { s with todo := l' } = runMicros l s := by
  induction l generalizing s with
  | nil => rfl
  | cons m l ih =>
    have htick : tick (micro m { s with todo := l' }) = { tick (micro m s) with todo := l' } := by
      rw [micro_with_todo]; rfl
    rw [runMicros, runMicros, htick, ih]
    rfl

theorem run_with_todo (l l' : List Micro) (s : State) : run l { s with todo := l' } = run l s := by
  rw [run, run, runMicros_with_todo]

theorem passed_passed (m n : Nat) (es : List Timed) : passed m (passed n es) = passed (n + m) es := by
  cases es <;> simp [Nat.sub_sub]

theorem waitSteps_cons (x : Answer) (xs : List Answer) : waitSteps (x :: xs) = x.1 + 1 + 1 + waitSteps xs := by
  simp [waitSteps]

/-- The moves of a far end that answers the arguments of a record, seen before the first is read (log 4). -/
def argAnswers : List Answer → List Timed
  | [] => []
  | x :: rest => ⟨x.1 + 5, .cpl x.2⟩ :: rest.map fun y => ⟨y.1 + 10, .cpl y.2⟩

/-- Five micro-actions after a wait has been left. -/
theorem passed_five_answers (xs : List Answer) :
    passed 5 (xs.map fun y => ⟨y.1 + 10, .cpl y.2⟩) = argAnswers xs := by
  cases xs <;> simp [argAnswers]

theorem clear_five_answers (xs : List Answer) : Clear 5 (xs.map fun y => ⟨y.1 + 10, .cpl y.2⟩) := by
  cases xs <;> simp

/-- An argument's byte read and on the wire, up to its wait. -/
def argSend (a : Byte) : List Micro := .romRd .arg a :: framerSend true a

theorem argProgram_serial {c : Config} (a : Byte) (hm : c.busMode = .serial) :
    argProgram c a = argSend a ++ Micro.poll .init :: (framerFinish ++ [Micro.argSent]) := by
  simp [argProgram, argSend, txData, Polarity.dcData, framer_serial _ _ _ hm]

theorem argSend_stops (a : Byte) : ∀ m ∈ argSend a, m.stops = false := by
  simp [argSend, framerSend, Micro.stops]

theorem straight_argSend (s : State) (a : Byte) :
    straight (argSend a) s = { s with
      ptr := s.ptr + 1, pinOut := selectedLines s.pinOut true, xdone := false, txbuf := a, pending := true, polls := 0,
      trace := s.trace ++ [.romRd s.ptr a, .pin .cs false, .pin .dc true, .flagClr, .serTx a] } := by
  rw [argSend, straight_cons, straight_framerSend]
  simp [micro, romRead, setRomDst, emit]

/-- A wait of `INIT` answered in time, and the program behind it up to some point: the poll that finds the flag makes it. -/
theorem steps_init_wait {s : State} {d : Nat} {r : Byte} {es : List Timed} {prog rest : List Micro}
    (ht : s.todo = .poll .init :: (prog ++ rest)) (hx : s.xdone = false) (hp : s.pending = true) (hz : s.polls = 0)
    (he : s.events = ⟨d, .cpl r⟩ :: es) (hd : ∀ n, s.cfg.timeoutPolls = some n → d ≤ n) (hstops : ∀ m ∈ prog, m.stops = false)
    (hes : Clear (prog.length + 1) es) :
    Steps (d + 1 + 1) s (run rest (straight prog { s with
      polls := d, rxhold := r, xdone := true, pending := false, trace := s.trace ++ [.cpl r],
      events := passed (prog.length + 1) es })) := by
  have hpoll : Clear 1 es := by cases es <;> simp_all; omega
  have hprog : Clear prog.length (passed 1 es) := by cases es <;> simp_all; omega
  refine (steps_wait ht hx hp hz he hd).trans (Steps.one ((step_answered hpoll (by exact ht) rfl).trans ?_))
  rw [run_clear rest hstops hprog, passed_passed, Nat.add_comm 1]
  exact congrArg (fun t => Host.Outcome.next (run rest t)) (straight_with_events prog _ _).symm

/-- The state at the record boundary after the arguments that were still to be sent, `prev` being the answer before them. -/
def serialArgsDone (s : State) (args : List Byte) (xs : List Answer) (prev : Answer) (rest : List Micro) : State :=
  { s with
    ptr := s.ptr + BitVec.ofNat 16 args.length, args := s.args - BitVec.ofNat 8 args.length, recs := s.recs - 1,
    seqState := .applyingRecord, txbuf := args.getLast?.getD s.txbuf, rxhold := (xs.getLast?.getD prev).2,
    polls := (xs.getLast?.getD prev).1, events := [], todo := .records :: rest,
    trace := s.trace ++ serialArgEvents s.ptr (args.zip (xs.map Prod.snd)) ++ [.delayMs s.dly.toNat] }

/-- The state before the next argument, the one at the cursor having been sent and answered. -/
def serialArgSent (s : State) (a : Byte) (x : Answer) (rest : List Answer) : State :=
  { s with
    ptr := s.ptr + 1, args := s.args - 1, txbuf := a, rxhold := x.2, polls := x.1, events := argAnswers rest,
    trace := s.trace ++ .romRd s.ptr a :: serialFramerEvents true a x.2 }

theorem serialArgsDone_cons (s : State) (a : Byte) (args : List Byte) (x prev : Answer) (xs : List Answer) (rest : List Micro) :
    serialArgsDone (serialArgSent s a x xs) args xs x rest = serialArgsDone s (a :: args) (x :: xs) prev rest := by
  simp [serialArgsDone, serialArgSent, serialArgEvents, List.getLast?_cons, Word.add_one_ofNat, Byte.sub_one_ofNat]

/-- The state in the wait for an argument's byte. -/
def serialArgWaiting (s : State) (a : Byte) (x : Answer) (xs : List Answer) (rest : List Micro) : State :=
  { s with
    ptr := s.ptr + 1, pinOut := selectedLines s.pinOut true, xdone := false, txbuf := a, pending := true, polls := 0,
    events := ⟨x.1, .cpl x.2⟩ :: xs.map fun y => ⟨y.1 + 10, .cpl y.2⟩,
    todo := .poll .init :: ((framerFinish ++ [.argSent]) ++ rest),
    trace := s.trace ++ [.romRd s.ptr a, .pin .cs false, .pin .dc true, .flagClr, .serTx a] }

theorem run_argSend {s : State} {a : Byte} {x : Answer} {xs : List Answer} (rest : List Micro) (hm : s.cfg.busMode = .serial)
    (he : s.events = argAnswers (x :: xs)) : run (argProgram s.cfg a ++ rest) s = serialArgWaiting s a x xs rest := by
  have hclear : Clear (argSend a).length s.events := by rw [he]; simp [argAnswers, argSend, framerSend]
  have hpassed : passed (argSend a).length s.events = ⟨x.1, .cpl x.2⟩ :: xs.map fun y => ⟨y.1 + 10, .cpl y.2⟩ := by
    rw [he]; simp [argAnswers, argSend, framerSend]
  rw [argProgram_serial a hm, List.append_assoc, List.cons_append, run_clear_stop _ (argSend_stops a) rfl (by simp) hclear, hpassed,
    straight_argSend]
  rfl

/-- One argument, from before it is read to before the next. -/
theorem steps_serialArg {s : State} {a : Byte} {x : Answer} {xs : List Answer} (rest : List Micro) (hm : s.cfg.busMode = .serial)
    (hx : s.xdone = true) (hp : s.pending = false) (hpin : releasedLines s.pinOut = s.pinOut) (he : s.events = argAnswers (x :: xs))
    (hd : ∀ n, s.cfg.timeoutPolls = some n → x.1 ≤ n) :
    Steps (x.1 + 1 + 1) (run (argProgram s.cfg a ++ rest) s) (run rest (serialArgSent s a x xs)) := by
  have hstops : ∀ m ∈ framerFinish ++ [.argSent], m.stops = false := by simp [framerFinish, Micro.stops]
  have hwait := steps_init_wait (s := serialArgWaiting s a x xs rest) rfl rfl rfl rfl rfl hd hstops (clear_five_answers xs)
  have hlen : (framerFinish ++ [Micro.argSent]).length + 1 = 5 := rfl
  have hdone : straight (framerFinish ++ [.argSent]) { serialArgWaiting s a x xs rest with
      polls := x.1, rxhold := x.2, xdone := true, pending := false,
      trace := (serialArgWaiting s a x xs rest).trace ++ [.cpl x.2], events := argAnswers xs }
      = { serialArgSent s a x xs with todo := .poll .init :: ((framerFinish ++ [.argSent]) ++ rest) } := by
    rw [straight_append, straight_framerFinish]
    simp [serialArgWaiting, serialArgSent, serialFramerEvents, micro, hx, hp, hpin]
  rw [run_argSend rest hm he]
  rw [hlen, passed_five_answers, hdone] at hwait
  rwa [run_with_todo] at hwait

/-- The arguments of a record and its delay (40_sequencer.md R84), by induction on the arguments. -/
theorem steps_serialArgs {s : State} {args : List Byte} {xs : List Answer} {prev : Answer} (rest : List Micro)
    (hm : s.cfg.busMode = .serial) (hx : s.xdone = true) (hp : s.pending = false) (hpin : releasedLines s.pinOut = s.pinOut)
    (hprev : s.polls = prev.1 ∧ s.rxhold = prev.2) (he : s.events = argAnswers xs) (hlen : args.length = xs.length)
    (hin : inTime s.cfg xs) :
    Steps (waitSteps xs) (run (args.flatMap (argProgram s.cfg) ++ (.settle :: .settled :: .records :: rest)) s)
      (serialArgsDone s args xs prev rest) := by
  induction args generalizing s xs prev with
  | nil =>
    obtain rfl : xs = [] := List.eq_nil_of_length_eq_zero hlen.symm
    obtain ⟨hpolls, hrx⟩ := hprev
    have hend : run ([.settle, .settled] ++ .records :: rest) s =
        { straight [.settle, .settled] s with todo := .records :: rest } :=
      run_straight_stop rest (by simp [Micro.stops]) rfl (by simp) he
    have hdone : serialArgsDone s [] [] prev rest = { straight [.settle, .settled] s with todo := .records :: rest } := by
      simp [serialArgsDone, serialArgEvents, micro, emit, ← hpolls, ← hrx, he, argAnswers]
    rw [hdone, ← hend]
    exact Steps.refl _
  | cons a args ih =>
    cases xs with
    | nil => cases hlen
    | cons x xs =>
      have hd : ∀ n, s.cfg.timeoutPolls = some n → x.1 ≤ n := fun n hn => hin n hn x List.mem_cons_self
      have hrest : inTime s.cfg xs := fun n hn y hy => hin n hn y (List.mem_cons_of_mem _ hy)
      have hfirst := steps_serialArg (a := a) (args.flatMap (argProgram s.cfg) ++ (.settle :: .settled :: .records :: rest))
        hm hx hp hpin he hd
      have hothers := ih (s := serialArgSent s a x xs) (xs := xs) (prev := x) hm hx hp hpin ⟨rfl, rfl⟩ rfl
        (Nat.succ.inj hlen) hrest
      rw [serialArgsDone_cons s a args x prev xs rest] at hothers
      rw [List.flatMap_cons, List.append_assoc, waitSteps_cons]
      exact hfirst.trans hothers

/-- The moves that answer a record, seen after its opcode's byte is on the wire. -/
theorem recordAnswers_eq (x : Answer) (xs : List Answer) :
    ∃ es, recordAnswers x xs = ⟨x.1 + 7, .cpl x.2⟩ :: es ∧ Clear 4 es ∧ passed 4 es = argAnswers xs := by
  cases xs with
  | nil => exact ⟨_, rfl, trivial, rfl⟩
  | cons y ys => exact ⟨_, rfl, by simp, by simp [argAnswers]⟩

/-- The state once the opcode of the record at the cursor has been sent and answered. -/
def serialOpcodeSent (s : State) (x : Answer) (xs : List Answer) : State :=
  let r := recordAt s s.ptr
  { s with
    ptr := s.ptr + 3, args := r.argCount, dly := r.delayMs, opc := r.opcode, pinOut := releasedLines s.pinOut, xdone := true,
    txbuf := r.opcode, rxhold := x.2, pending := false, polls := x.1, events := argAnswers xs,
    trace := s.trace ++ [.romRd s.ptr r.argCount, .romRd (s.ptr + 1) r.delayMs, .romRd (s.ptr + 2) r.opcode]
      ++ serialFramerEvents false r.opcode x.2 }

/-- The head of a record, its opcode and the answer to it. -/
theorem steps_serialOpcode {s : State} {rest : List Micro} {x : Answer} {xs : List Answer} (hm : s.cfg.busMode = .serial)
    (ht : s.todo = .records :: rest) (hr : s.recs ≠ 0) (he : s.events = recordAnswers x xs)
    (hd : ∀ n, s.cfg.timeoutPolls = some n → x.1 ≤ n) :
    Steps (1 + (x.1 + 1 + 1)) s (run ((recordAt s s.ptr).args.flatMap (argProgram s.cfg)
      ++ (.settle :: .settled :: .records :: rest)) (serialOpcodeSent s x xs)) := by
  obtain ⟨es, hes, hclear, hpassed⟩ := recordAnswers_eq x xs
  rw [hes] at he
  have hdue : Clear 7 s.events := by rw [he]; simp
  have hpass : passed 7 s.events = ⟨x.1, .cpl x.2⟩ :: es := by rw [he]; simp
  have hrest : ∀ l : List Micro, framerFinish ++ l ++ [.settle, .settled] ++ .records :: rest
      = framerFinish ++ (l ++ (.settle :: .settled :: .records :: rest)) := by simp
  have hstep := (step_records hdue.not_due ht hr).trans (exec_record_serial _ _ _ _ hm hdue)
  rw [hpass, ht, hrest] at hstep
  have hwait := (Steps.one hstep).trans (steps_init_wait (by exact rfl) rfl rfl rfl rfl hd framerFinish_stops hclear)
  rw [show framerFinish.length + 1 = 4 from rfl, hpassed, straight_framerFinish] at hwait
  rw [← run_with_todo _ (.poll .init :: (framerFinish ++ ((recordAt s s.ptr).args.flatMap (argProgram s.cfg)
      ++ (.settle :: .settled :: .records :: rest)))) (serialOpcodeSent s x xs)]
  simpa [serialOpcodeSent, serialFramerEvents, recordAt] using hwait

/-- Settles O34: the head and the opcode by `steps_serialOpcode`, the arguments and the delay by `steps_serialArgs`. -/
theorem serialRecordCompletesWhenAnswered : Obligations.SerialRecordCompletesWhenAnswered := by
  intro s rest first others hm hpend ht hr hlen hin he
  have hopcode := steps_serialOpcode hm ht hr he fun n hn => hin n hn first List.mem_cons_self
  have hargs := steps_serialArgs (s := serialOpcodeSent s first others) (args := (recordAt s s.ptr).args) (xs := others)
    (prev := first) rest hm rfl rfl (releasedLines_releasedLines _) ⟨rfl, rfl⟩ rfl ((recordAt_args_length _ _).trans hlen.symm)
    fun n hn y hy => hin n hn y (List.mem_cons_of_mem _ hy)
  have hsteps : 1 + (first.1 + 1 + 1) + waitSteps others = waitSteps (first :: others) + 1 := by
    rw [waitSteps_cons]; omega
  have hrun := hopcode.trans hargs
  rw [hsteps] at hrun
  have hcount : (recordAt s s.ptr).argCount = s.romByte s.ptr := rfl
  have hlast : lastByte 0 [recordAt s s.ptr] = (recordAt s s.ptr).args.getLast?.getD (recordAt s s.ptr).opcode := by
    simp [lastByte, List.getLast?_cons]
  have hptr : afterRecord s s.ptr = s.ptr + 3 + BitVec.ofNat 16 (recordAt s s.ptr).args.length := by simp [afterRecord]
  refine ⟨_, hrun, ?_, releasedLines_cs _, releasedLines_dc _, fun sig hc hd => releasedLines_other s.pinOut hc hd⟩
  rw [hlast, hptr]
  simp [serialArgsDone, serialOpcodeSent, serialRecordEvents, hcount, ht]
  rfl

end Sys2Proof.Machine
end

section
/-! PROOFS. The Byte-Oriented Transport (43_serial_transport.md R150, R156, R158): `XFER` byte by byte, and a whole block whose bytes are all
answered in time. -/

namespace Sys2Proof.Machine

/-! The loop of `XFER`. -/

/-- What stands behind the loop test of `XFER`: the end of the block and the end step. -/
def xferEnd (c : Config) : List Micro := [.pin .msel true, .delayUs c.tMselUs, .opEnd 0x4]

theorem modeRelease_end (c : Config) : modeRelease c ++ [Micro.opEnd 0x4] = xferEnd c := rfl

/-- The state once the block has ended. -/
def blockEnded (s : State) : State :=
  { s with
    busy := false, pinOut := setBit s.pinOut Signal.msel.id true, todo := [],
    trace := s.trace ++ [.pin .msel true, .delayUs s.cfg.tMselUs, .opEnd 0x4 s.result] }

/-- The loop left, undisturbed: the block ends (R150, R156). -/
theorem passLoop_blockEnded {s : State} {tx rx n : Word} (hste : s.cfg.hasSte = true) (hq : Quiet s)
    (ht : s.todo = .xferLoop tx rx n :: xferEnd s.cfg) (hi : s.idx = n) : passLoop s = blockEnded s := by
  have hrun := runMicros_straight [] (prog := xferEnd s.cfg) (by simp [xferEnd, Micro.stops]) hq
  rw [List.append_nil] at hrun
  rw [passLoop_end ht hq hi, hrun, runMicros_nil]
  simp [xferEnd, blockEnded, micro, pinWrite_eq, hste, emit, endOperation]

/-- The body of the loop up to its wait (R150, R152 steps 1 and 2). -/
def xferSend (s : State) (tx : Word) : List Micro :=
  [.memRd (tx + s.idx) (s.dmemByte (tx + s.idx)), .flagClr, .serTx (s.dmemByte (tx + s.idx))]

/-- The state in the wait for the byte at `IDX`. -/
def byteSent (s : State) (tx rx n : Word) : State :=
  { s with
    xdone := false, txbuf := s.dmemByte (tx + s.idx), pending := true, polls := 0, events := passed 3 s.events,
    todo := .poll .xfer :: .storeRx (rx + s.idx) :: .xferLoop tx rx n :: xferEnd s.cfg,
    trace := s.trace ++ [.memRd (tx + s.idx) (s.dmemByte (tx + s.idx)), .flagClr, .serTx (s.dmemByte (tx + s.idx))] }

/-- The body of the loop up to its wait, while no other agent's move falls due (R150, R152). -/
theorem passLoop_byteSent {s : State} {tx rx n : Word} (ht : s.todo = .xferLoop tx rx n :: xferEnd s.cfg)
    (hs : Clear 3 s.events) (hi : s.idx ≠ n) : passLoop s = byteSent s tx rx n := by
  have hbody : xferByte tx rx s ++ .xferLoop tx rx n :: xferEnd s.cfg =
      xferSend s tx ++ .poll .xfer :: .storeRx (rx + s.idx) :: .xferLoop tx rx n :: xferEnd s.cfg := by
    simp [xferByte, serByte, xferSend]
  have hstops : ∀ m ∈ xferSend s tx, m.stops = false := by simp [xferSend, Micro.stops]
  unfold passLoop
  rw [ht]
  dsimp only
  rw [if_neg (by simp [hs.not_due]), if_neg hi, hbody, runMicros_clear _ hstops hs, runMicros_stop _ _ rfl]
  simp [xferSend, micro, emit, flagClear, serialSend, byteSent]

/-- `XFER` up to its first loop test (R150). -/
def xferStart (c : Config) : List Micro := [.pin .msel false, .delayUs c.tMselUs, .idxZero]

/-- The state at the first loop test. -/
def blockStarted (s : State) (p : Ports) : State :=
  { s with
    busy := true, result := .ok, pinOut := setBit s.pinOut Signal.msel.id false, idx := 0, events := passed 4 s.events,
    todo := .xferLoop p.a p.b p.n :: xferEnd s.cfg,
    trace := s.trace ++ [.opStart 0x4 p.a p.b p.n, .pin .msel false, .delayUs s.cfg.tMselUs] }

/-- `XFER` of an idle block up to its first loop test. -/
theorem exec_xfer {s : State} (p : Ports) (hb : s.busy = false) (hs : Clear 4 s.events) (hste : s.cfg.hasSte = true) :
    exec (.xfer p) s = .next (passLoop (blockStarted s p)) := by
  have hprog : hostProgram s (.xfer p) ++ [Micro.opEnd 0x4] = xferStart s.cfg ++ .xferLoop p.a p.b p.n :: xferEnd s.cfg := by
    simp [hostProgram, hste, xferProgram, xferStart, xferEnd, modeRelease, Polarity.mselAsserted]
  have hstops : ∀ m ∈ xferStart s.cfg, m.stops = false := by simp [xferStart, Micro.stops]
  have hrun : runMicros (xferStart s.cfg ++ .xferLoop p.a p.b p.n :: xferEnd s.cfg) (accept 0x4 p s) = blockStarted s p := by
    rw [runMicros_clear (s := accept 0x4 p s) _ hstops hs.tick, runMicros_stop _ _ rfl, accept_events, passed_succ (by exact hs)]
    simp [xferStart, micro, pinWrite_eq, hste, emit, accept, tick, blockStarted]
  calc exec (.xfer p) s
      = .next (hostOperation 0x4 p (hostProgram s (.xfer p)) s) := rfl
    _ = .next (run (xferStart s.cfg ++ .xferLoop p.a p.b p.n :: xferEnd s.cfg) (accept 0x4 p s)) := by
        rw [hostOperation, if_neg (by simp [hb]), hprog]
    _ = .next (passLoop (blockStarted s p)) := by rw [run, hrun]

/-- Settles O43: from the first loop test the byte at `host_a` is sent. -/
theorem xferSendsItsFirstByte : Obligations.XferSendsItsFirstByte := by
  intro s p hi hq hste hn
  have hquiet : (blockStarted s p).events = s.events := passed_of_quiet 4 hq
  have hclear : Clear 3 (blockStarted s p).events := by rw [hquiet]; exact clear_of_quiet 3 hq
  rw [exec_xfer p hi.1 (clear_of_quiet 4 hq) hste, passLoop_byteSent rfl hclear (Ne.symm hn)]
  have hbyte : (blockStarted s p).dmemByte (p.a + 0) = s.dmemByte p.a :=
    congrArg (fun a : Word => Memory.read s.dmem a.toNat) (BitVec.add_zero p.a)
  refine ⟨_, rfl, ?_, ?_, fun sig hne => ?_, rfl⟩
  · have hevents : passed 3 (blockStarted s p).events = s.events := by rw [hquiet, passed_of_quiet 3 hq]
    rw [byteSent, hevents, show (blockStarted s p).idx = 0 from rfl, hbyte]
    simp [blockStarted]
  · simp [State.out, byteSent, blockStarted]
  · simp [State.out, byteSent, blockStarted, hne]

/-- Settles O44: at the first loop test of a block of length 0 the block ends. -/
theorem xferOfNoBytes : Obligations.XferOfNoBytes := by
  intro s p hi hq hste hn
  have hquiet : (blockStarted s p).events = s.events := passed_of_quiet 4 hq
  rw [exec_xfer p hi.1 (clear_of_quiet 4 hq) hste, passLoop_blockEnded (s := blockStarted s p) hste (hquiet.trans hq) rfl hn.symm]
  obtain ⟨hb, ht⟩ := hi
  refine ⟨_, rfl, ?_, ?_, fun sig hne => ?_⟩
  · simp [blockEnded, blockStarted, passed_of_quiet 4 hq, hb, ht]
  · simp [State.out, blockEnded]
  · simp [State.out, blockEnded, blockStarted, hne]

/-! One byte answered. -/

/-- The state at the loop test after the answer has been stored and counted (R150, R152 step 4). -/
def answerStored (s : State) (tx rx n : Word) : State :=
  { s with
    dmem := Memory.write s.dmem (rx + s.idx).toNat s.rxhold, idx := s.idx + 1, events := passed 2 s.events,
    todo := .xferLoop tx rx n :: xferEnd s.cfg, trace := s.trace ++ [.serRx s.rxhold, .memWr (rx + s.idx) s.rxhold] }

/-- The step that finds the flag set in the wait of `XFER`. -/
theorem step_answerStored {s : State} {tx rx n : Word} (hs : Clear 2 s.events) (hx : s.xdone = true)
    (ht : s.todo = .poll .xfer :: .storeRx (rx + s.idx) :: .xferLoop tx rx n :: xferEnd s.cfg) :
    step s = .next (passLoop (answerStored s tx rx n)) := by
  have hfirst : Clear 1 s.events := by cases h : s.events <;> simp_all; omega
  have hsecond : Clear 1 (passed 1 s.events) := by cases h : s.events <;> simp_all; omega
  have hrun := runMicros_clear (prog := [.storeRx (rx + s.idx)]) (.xferLoop tx rx n :: xferEnd s.cfg)
    (s := { s with events := passed 1 s.events }) (by simp [Micro.stops]) hsecond
  rw [step_answered hfirst ht hx, run]
  rw [List.cons_append, List.nil_append] at hrun
  rw [hrun, runMicros_stop _ _ rfl, List.length_singleton, passed_passed]
  simp [answerStored, micro]

/-- Settles O46: the store by `step_answerStored`; then the loop test, with the byte read after that store. -/
theorem xferStoresTheAnswer : Obligations.XferStoresTheAnswer := by
  intro s tx rx n hq hste hx ht hwf
  have hstep := step_answerStored (clear_of_quiet 2 hq) hx ht
  have hquiet : (answerStored s tx rx n).events = [] := (passed_of_quiet 2 hq).trans hq
  have hsame : (answerStored s tx rx n).dmemByte (rx + s.idx) = s.rxhold := Memory.read_write_same _ hwf
  have hother : ∀ a, a ≠ rx + s.idx → (answerStored s tx rx n).dmemByte a = s.dmemByte a :=
    fun a ha => Memory.read_write_other _ _ _ _ (Word.toNat_ne ha)
  by_cases hn : s.idx + 1 = n
  · rw [passLoop_blockEnded (s := answerStored s tx rx n) hste hquiet rfl hn] at hstep
    refine ⟨_, hstep, hsame, hother, rfl, fun _ => ⟨rfl, rfl, ?_, ?_⟩, fun hne => absurd hn hne⟩
    · simp [State.out, blockEnded]
    · simp [blockEnded, answerStored]
  · rw [passLoop_byteSent rfl (by rw [hquiet]; trivial) hn] at hstep
    refine ⟨_, hstep, hsame, hother, rfl, fun he => absurd he hn, fun _ => ⟨rfl, rfl, rfl, rfl, rfl, rfl, ?_⟩⟩
    simp [byteSent, answerStored]

/-! A whole block. -/

/-- The moves of a far end that answers the rest of a block, seen at a loop test (log 4). -/
def loopAnswers : List Answer → List Timed
  | [] => []
  | x :: rest => ⟨x.1 + 3, .cpl x.2⟩ :: rest.map fun y => ⟨y.1 + 5, .cpl y.2⟩

theorem passed_xferAnswers (xs : List Answer) : passed 4 (xferAnswers xs) = loopAnswers xs := by
  cases xs <;> simp [xferAnswers, loopAnswers]

theorem clear_xferAnswers (xs : List Answer) : Clear 4 (xferAnswers xs) := by
  cases xs <;> simp [xferAnswers]

theorem passed_two_answers (xs : List Answer) : passed 2 (xs.map fun y => ⟨y.1 + 5, .cpl y.2⟩) = loopAnswers xs := by
  cases xs <;> simp [loopAnswers]

theorem clear_two_answers (xs : List Answer) : Clear 2 (xs.map fun y => ⟨y.1 + 5, .cpl y.2⟩) := by
  cases xs <;> simp

/-- The bytes a block sends, each read after the answers before it have been stored. -/
def bytesRead : Memory → Word → Word → List Byte → List Byte
  | _, _, _, [] => []
  | m, tx, rx, r :: rest => Memory.read m tx.toNat :: bytesRead (Memory.write m rx.toNat r) (tx + 1) (rx + 1) rest

/-- Where the buffers do not meet, they are the bytes of the transmit buffer as the block found it (R158). -/
theorem bytesRead_disjoint {m : Memory} {tx rx : Word} {rs : List Byte}
    (h : ∀ i j, i < rs.length → j < rs.length → tx + BitVec.ofNat 16 i ≠ rx + BitVec.ofNat 16 j) :
    bytesRead m tx rx rs = (List.range rs.length).map fun i => Memory.read m (tx + BitVec.ofNat 16 i).toNat := by
  induction rs generalizing m tx rx with
  | nil => rfl
  | cons r rs ih =>
    have hshift : ∀ (a : Word) i, a + 1 + BitVec.ofNat 16 i = a + BitVec.ofNat 16 (i + 1) := fun a i => Word.add_one_ofNat a i
    have hrest := ih (m := Memory.write m rx.toNat r) (tx := tx + 1) (rx := rx + 1) fun i j hi hj => by
      rw [hshift, hshift]
      exact h _ _ (Nat.succ_lt_succ hi) (Nat.succ_lt_succ hj)
    rw [bytesRead, hrest, List.length_cons, List.range_succ_eq_map, List.map_cons, List.map_map]
    refine congrArg₂ _ (by simp) (List.map_congr_left fun i hi => ?_)
    have hne : tx + BitVec.ofNat 16 (i + 1) ≠ rx := by
      simpa using h (i + 1) 0 (Nat.succ_lt_succ (List.mem_range.mp hi)) (Nat.succ_pos _)
    rw [hshift, Memory.read_write_other _ _ _ _ (Word.toNat_ne hne)]
    rfl

/-- What a state at a loop test comes to at the end of the block, `xs` being the answers still to come. -/
structure BlockDone (s t : State) (tx rx n : Word) (xs : List Answer) : Prop where
  trace : t.trace = s.trace
    ++ xferEvents (tx + s.idx) (rx + s.idx) ((bytesRead s.dmem (tx + s.idx) (rx + s.idx) (xs.map Prod.snd)).zip (xs.map Prod.snd))
    ++ [Event.pin .msel true, Event.delayUs s.cfg.tMselUs, Event.opEnd 0x4 s.result]
  dmem : t.dmem = placeBytes (xs.map Prod.snd) (rx + s.idx) s.dmem
  pinOut : t.pinOut = setBit s.pinOut Signal.msel.id true
  idx : t.idx = n
  idle : t.busy = false ∧ t.pending = false
  kept : t.result = s.result ∧ t.pinDir = s.pinDir ∧ t.seqState = s.seqState ∧ t.cmds = s.cmds

/-- The state after one exchanged byte, at the next loop test. -/
def byteExchanged (s : State) (tx rx n : Word) (x : Answer) (xs : List Answer) : State :=
  answerStored { byteSent s tx rx n with
    polls := x.1, rxhold := x.2, xdone := true, pending := false, trace := (byteSent s tx rx n).trace ++ [.cpl x.2],
    events := xs.map fun y => ⟨y.1 + 5, .cpl y.2⟩ } tx rx n

/-- One byte of a block from loop test to loop test. -/
theorem steps_byte {s : State} {tx rx n : Word} {x : Answer} {xs : List Answer} (ht : s.todo = .xferLoop tx rx n :: xferEnd s.cfg)
    (he : s.events = loopAnswers (x :: xs)) (hi : s.idx ≠ n) (hd : ∀ k, s.cfg.timeoutPolls = some k → x.1 ≤ k) :
    Steps (x.1 + 1 + 1) (passLoop s) (passLoop (byteExchanged s tx rx n x xs)) := by
  have hclear : Clear 3 s.events := by rw [he]; simp [loopAnswers]
  have hevents : (byteSent s tx rx n).events = ⟨x.1, .cpl x.2⟩ :: xs.map fun y => ⟨y.1 + 5, .cpl y.2⟩ := by
    simp [byteSent, he, loopAnswers]
  rw [passLoop_byteSent ht hclear hi]
  exact (steps_wait rfl rfl rfl rfl hevents hd).trans (Steps.one (step_answerStored (clear_two_answers xs) rfl rfl))

theorem BlockDone.cons {s t : State} {tx rx n : Word} {x : Answer} {xs : List Answer}
    (h : BlockDone (byteExchanged s tx rx n x xs) t tx rx n xs) : BlockDone s t tx rx n (x :: xs) where
  trace := by
    have hidx : ∀ a : Word, a + (s.idx + 1#16) = a + s.idx + 1#16 := fun a => (BitVec.add_assoc ..).symm
    rw [h.trace]
    simp [byteExchanged, answerStored, byteSent, bytesRead, xferEvents, hidx, State.dmemByte]
  dmem := by
    have hidx : rx + (s.idx + 1) = rx + s.idx + 1 := (BitVec.add_assoc ..).symm
    rw [h.dmem, List.map_cons, placeBytes, ← hidx]
    rfl
  pinOut := h.pinOut
  idx := h.idx
  idle := h.idle
  kept := h.kept

/-- A block from a loop test to its end, by induction on the answers still to come. -/
theorem steps_block {s : State} {tx rx n : Word} {xs : List Answer} (hste : s.cfg.hasSte = true) (hp : s.pending = false)
    (ht : s.todo = .xferLoop tx rx n :: xferEnd s.cfg) (he : s.events = loopAnswers xs) (hin : inTime s.cfg xs)
    (hlen : s.idx.toNat + xs.length = n.toNat) :
    ∃ t, Steps (waitSteps xs) (passLoop s) t ∧ BlockDone s t tx rx n xs := by
  induction xs generalizing s with
  | nil =>
    have hi : s.idx = n := BitVec.eq_of_toNat_eq hlen
    refine ⟨blockEnded s, ?_, ?_⟩
    · rw [passLoop_blockEnded hste he ht hi]
      exact Steps.refl _
    · exact ⟨by simp [blockEnded, xferEvents], rfl, rfl, hi, ⟨rfl, hp⟩, rfl, rfl, rfl, rfl⟩
  | cons x xs ih =>
    rw [List.length_cons] at hlen
    have hi : s.idx ≠ n := fun h => by rw [h] at hlen; omega
    have hnext : (s.idx + 1).toNat + xs.length = n.toNat := by
      have hn := n.isLt
      have hone : (s.idx + 1).toNat = s.idx.toNat + 1 := by
        rw [BitVec.toNat_add, show (1 : Word).toNat = 1 from rfl, Nat.mod_eq_of_lt (by omega)]
      omega
    have hfirst := steps_byte ht he hi fun k hk => hin k hk x List.mem_cons_self
    obtain ⟨t, hrest, hdone⟩ := ih (s := byteExchanged s tx rx n x xs) hste rfl rfl (passed_two_answers xs)
      (fun k hk y hy => hin k hk y (List.mem_cons_of_mem _ hy)) hnext
    rw [waitSteps_cons]
    exact ⟨t, hfirst.trans hrest, hdone.cons⟩

/-- Settles O45: the acceptance step by `exec_xfer`, the bytes by `steps_block`, their values by `bytesRead_disjoint` and the laws of placed
bytes. -/
theorem xferExchangesTheBlockInOrder : Obligations.XferExchangesTheBlockInOrder := by
  intro s p cs xs hi hc hste hp hwf hlen hin he hdisjoint
  have hclear : Clear 4 s.events := he ▸ clear_xferAnswers xs
  have hadm : admission { s with cmds := cs } (.xfer p) = none := by simp [admission, reservedUse, hste, hp]
  have hstep : step s = .next (passLoop (blockStarted { s with cmds := cs } p)) := by
    rw [step_issue hi hclear.not_due hc, issue_decoded (i := .xfer p) (rest := []) rfl hadm]
    exact exec_xfer (s := { s with cmds := cs }) p hi.1 hclear hste
  have hevents : (blockStarted { s with cmds := cs } p).events = loopAnswers xs := by
    simp only [blockStarted, he, passed_xferAnswers]
  obtain ⟨t, hblock, hdone⟩ := steps_block (s := blockStarted { s with cmds := cs } p) (tx := p.a) (rx := p.b) (n := p.n)
    hste hp rfl hevents hin (by simpa [blockStarted] using hlen)
  have hsent : bytesRead s.dmem p.a p.b (xs.map Prod.snd) =
      (List.range p.n.toNat).map fun i => s.dmemByte (p.a + BitVec.ofNat 16 i) := by
    rw [bytesRead_disjoint (by simpa [hlen] using hdisjoint), List.length_map, hlen]
    rfl
  have hzero : ∀ a : Word, a + (blockStarted { s with cmds := cs } p).idx = a := fun a => BitVec.add_zero a
  have hplaced := holds_placeBytes p.b hwf (bytes := xs.map Prod.snd) (by
    have := p.n.isLt
    simp [hlen]; omega)
  obtain ⟨htrace, hdmem, hpin, hidx, ⟨hbusy, hpend⟩, hresult, hdir, hseq, hcmds⟩ := hdone
  rw [hzero] at hdmem
  rw [hzero, hzero] at htrace
  refine ⟨t, Steps.cons hstep hblock, ?_, fun i x hx => ?_, fun a ha => ?_, hbusy, hresult, hidx, hpend, ?_, fun sig hne => ?_, hdir,
    hseq, hcmds⟩
  · rw [htrace, show (blockStarted { s with cmds := cs } p).dmem = s.dmem from rfl, hsent]
    rfl
  · rw [State.dmemByte, hdmem]
    exact hplaced i x.2 (by simp [hx])
  · rw [State.dmemByte, hdmem]
    refine read_placeBytes_other _ fun k hk => (ha k ?_).symm
    rwa [List.length_map, hlen] at hk
  · simp [State.out, hpin]
  · simp [State.out, hpin, blockStarted, hne]

end Sys2Proof.Machine
end
